-- ==== Sys2Proof/Word.lean ====
section
/-! DEFINITION. The word types of RBSC: a command word, a payload beat, a response value and a binary32 pattern are
32 bits (30_encoding.md R70, R77, R78; 41_render_convert.md R130), a byte of MEM is 8 bits (10_state.md R25). -/

namespace Sys2Proof

/-- A 32-bit word: a command word, a payload beat, a response value or a binary32 pattern. -/
abbrev Word := BitVec 32

/-- One byte of MEM. -/
abbrev Byte := BitVec 8

end Sys2Proof
end

