-- ==== Sys2Proof/Syntax.lean ====
section
/-! DEFINITION. The commands of RBSC, one constructor per row of the opcode table (30_encoding.md R72), with their
operands at the widths of the operand forms (R73). The payload beats of a command travel beside its word (R77) and are
not part of it. -/

namespace Sys2Proof

/-- The three command ports (00_scope.md R3, 30_encoding.md R71). -/
inductive Port where
  /-- the host/lifecycle port -/
  | host
  /-- the producer port -/
  | producer
  /-- the consumer port -/
  | consumer
  deriving DecidableEq, Repr

/-- The commands of the FUNC map (30_encoding.md R72). -/
inductive Instr where
  | hInit
  | hActivate
  | hDeactivate
  /-- N26: the rate in Hz -/
  | hStart (rate : BitVec 26)
  | hStop
  | hDeinit
  | hSetVolume
  /-- IDX3: the register index -/
  | hReadReg (idx : BitVec 3)
  /-- S16: the sample's two's-complement pattern -/
  | hConvert (s : BitVec 16)
  /-- N26: the number of bytes -/
  | pWrite (n : BitVec 26)
  /-- N26: the number of frames -/
  | pPlay (count : BitVec 26)
  | pFreeSpace
  | pWspan
  | cReadAvailable
  | cPeek
  /-- N26: the number of bytes -/
  | cAdvance (n : BitVec 26)
  /-- N26: the byte offset into MEM -/
  | cLoadf (off : BitVec 26)
  /-- N26: the number of frames -/
  | cRender (nframes : BitVec 26)
  deriving DecidableEq, Repr

end Sys2Proof
end

