-- ==== Sys2Proof/WellFormed.lean ====
section
/-! DEFINITION. Well-formed commands: the operand widths leave one check, that H.READ_REG does not name the reserved
index 7 (10_state.md R39, 30_encoding.md R74(d)). -/

namespace Sys2Proof

/-- A command that some legal word stands for: only H.READ_REG with index 7 is not (30_encoding.md R74(d)). -/
def Instr.wellFormed (i : Instr) : Bool :=
  match i with
  | .hReadReg idx => idx != 7#3
  | .hInit | .hActivate | .hDeactivate | .hStart _ | .hStop | .hDeinit | .hSetVolume | .hConvert _
  | .pWrite _ | .pPlay _ | .pFreeSpace | .pWspan
  | .cReadAvailable | .cPeek | .cAdvance _ | .cLoadf _ | .cRender _ => true

end Sys2Proof
end

