-- ==== Sys2Proof/Decode.lean ====
section
/-! DEFINITION. Decoding a 32-bit command word on the port it is issued on (30_encoding.md R70 to R75, R83), and the
encoder of the same tables. Decoding is total: a word is a command or is illegal for a reason of R74. -/

namespace Sys2Proof

/-- Why a command word is illegal (30_encoding.md R74 (a) to (d)). -/
inductive IllegalWord where
  /-- (a) PORT is the reserved value 11 -/
  | portReserved
  /-- (a) PORT names another port than the one the word was issued on -/
  | wrongPort
  /-- (b) FUNC is reserved for the port -/
  | funcReserved
  /-- (c) an operand bit that must be zero is 1 -/
  | operandBits
  /-- (d) H.READ_REG with index 7 -/
  | regIndex
  deriving DecidableEq, Repr

/-- The PORT field, bits [31:30] (R70). -/
def portField (w : Word) : BitVec 2 := w.extractLsb' 30 2

/-- The FUNC field, bits [29:26] (R70). -/
def funcField (w : Word) : BitVec 4 := w.extractLsb' 26 4

/-- The OPERAND field, bits [25:0] (R70). -/
def operandField (w : Word) : BitVec 26 := w.extractLsb' 0 26

/-- The port a PORT value names; 11 is reserved (R71). -/
def portOfBits (b : BitVec 2) : Option Port :=
  match b.toNat with
  | 0 => some .host
  | 1 => some .producer
  | 2 => some .consumer
  | _ => none

/-- The PORT value of a port (R71). -/
def portBits (p : Port) : BitVec 2 :=
  match p with
  | .host => 0b00#2
  | .producer => 0b01#2
  | .consumer => 0b10#2

/-- Operand form NONE: every operand bit must be zero (R73, R74(c)). -/
def formNone (i : Instr) (op : BitVec 26) : Except IllegalWord Instr :=
  if op = 0#26 then .ok i else .error .operandBits

/-- Operand form N26: all 26 bits are the operand (R73). -/
def formN26 (f : BitVec 26 → Instr) (op : BitVec 26) : Except IllegalWord Instr :=
  .ok (f op)

/-- Operand form IDX3: bits [25:3] must be zero and index 7 is illegal (R73, R74(c)(d)). -/
def formIdx3 (f : BitVec 3 → Instr) (op : BitVec 26) : Except IllegalWord Instr :=
  if op.extractLsb' 3 23 = 0#23 then
    if op.extractLsb' 0 3 = 7#3 then .error .regIndex else .ok (f (op.extractLsb' 0 3))
  else .error .operandBits

/-- Operand form S16: bits [25:16] must be zero (R73, R74(c)). -/
def formS16 (f : BitVec 16 → Instr) (op : BitVec 26) : Except IllegalWord Instr :=
  if op.extractLsb' 16 10 = 0#10 then .ok (f (op.extractLsb' 0 16)) else .error .operandBits

/-- The H rows of the FUNC map (R72). -/
def decodeH (func : BitVec 4) (op : BitVec 26) : Except IllegalWord Instr :=
  match func.toNat with
  | 0b0001 => formNone .hInit op
  | 0b0010 => formNone .hActivate op
  | 0b0011 => formNone .hDeactivate op
  | 0b0100 => formN26 .hStart op
  | 0b0101 => formNone .hStop op
  | 0b0110 => formNone .hDeinit op
  | 0b0111 => formNone .hSetVolume op
  | 0b1000 => formIdx3 .hReadReg op
  | 0b1001 => formS16 .hConvert op
  | _ => .error .funcReserved

/-- The P rows of the FUNC map (R72). -/
def decodeP (func : BitVec 4) (op : BitVec 26) : Except IllegalWord Instr :=
  match func.toNat with
  | 0b0001 => formN26 .pWrite op
  | 0b0010 => formN26 .pPlay op
  | 0b0011 => formNone .pFreeSpace op
  | 0b0100 => formNone .pWspan op
  | _ => .error .funcReserved

/-- The C rows of the FUNC map (R72). -/
def decodeC (func : BitVec 4) (op : BitVec 26) : Except IllegalWord Instr :=
  match func.toNat with
  | 0b0001 => formNone .cReadAvailable op
  | 0b0010 => formNone .cPeek op
  | 0b0011 => formN26 .cAdvance op
  | 0b0100 => formN26 .cLoadf op
  | 0b0101 => formN26 .cRender op
  | _ => .error .funcReserved

/-- Decode a command word issued on port `p` (R71, R72, R74 (a) to (d)). -/
def decode (p : Port) (w : Word) : Except IllegalWord Instr :=
  match portOfBits (portField w) with
  | none => .error .portReserved
  | some q =>
    if q = p then
      match p with
      | .host => decodeH (funcField w) (operandField w)
      | .producer => decodeP (funcField w) (operandField w)
      | .consumer => decodeC (funcField w) (operandField w)
    else .error .wrongPort

/-- The port a command belongs to (R72). -/
def Instr.port (i : Instr) : Port :=
  match i with
  | .hInit | .hActivate | .hDeactivate | .hStart _ | .hStop | .hDeinit | .hSetVolume | .hReadReg _ | .hConvert _ => .host
  | .pWrite _ | .pPlay _ | .pFreeSpace | .pWspan => .producer
  | .cReadAvailable | .cPeek | .cAdvance _ | .cLoadf _ | .cRender _ => .consumer

/-- The FUNC value of a command (R72). -/
def Instr.func (i : Instr) : BitVec 4 :=
  match i with
  | .hInit => 0b0001#4
  | .hActivate => 0b0010#4
  | .hDeactivate => 0b0011#4
  | .hStart _ => 0b0100#4
  | .hStop => 0b0101#4
  | .hDeinit => 0b0110#4
  | .hSetVolume => 0b0111#4
  | .hReadReg _ => 0b1000#4
  | .hConvert _ => 0b1001#4
  | .pWrite _ => 0b0001#4
  | .pPlay _ => 0b0010#4
  | .pFreeSpace => 0b0011#4
  | .pWspan => 0b0100#4
  | .cReadAvailable => 0b0001#4
  | .cPeek => 0b0010#4
  | .cAdvance _ => 0b0011#4
  | .cLoadf _ => 0b0100#4
  | .cRender _ => 0b0101#4

/-- The OPERAND field of a command, in its operand form (R73). -/
def Instr.operand (i : Instr) : BitVec 26 :=
  match i with
  | .hStart n | .pWrite n | .pPlay n | .cAdvance n | .cLoadf n | .cRender n => n
  | .hReadReg idx => 0#23 ++ idx
  | .hConvert s => 0#10 ++ s
  | .hInit | .hActivate | .hDeactivate | .hStop | .hDeinit | .hSetVolume
  | .pFreeSpace | .pWspan | .cReadAvailable | .cPeek => 0#26

/-- The command word of a command: PORT, FUNC, OPERAND (R70). -/
def encode (i : Instr) : Word :=
  portBits i.port ++ (i.func ++ i.operand)

/-- The command a word stands for, on the port its own PORT field names; none where no port accepts it. Every command
word is one 32-bit word (R70, R83), so no shorter and no longer table row exists (log 18). -/
def decodeTableWord (nbits w : Nat) : Option Instr :=
  if nbits ≤ 32 ∧ w < 2 ^ 32 then
    match portOfBits (portField (BitVec.ofNat 32 w)) with
    | none => none
    | some p =>
      match decode p (BitVec.ofNat 32 w) with
      | .ok i => some i
      | .error _ => none
  else none

end Sys2Proof
end

