-- ==== Sys2Proof/Config.lean ====
section
/-! DEFINITION. What one implementation of RBSC fixes, and the free values (00_scope.md R8, R9). The two parameters
CAP and SUPPORTED_RATE are read through registers (10_state.md R39), so State holds them; this file gives their legal
values and the values the reset state takes. The free values are opaque: no proof can learn them. -/

namespace Sys2Proof

/-- The legal values of the parameter CAP: a multiple of 4 from 4 to 2^25 (00_scope.md R8). -/
abbrev Config.CapLegal (cap : Nat) : Prop := cap % 4 = 0 ∧ 4 ≤ cap ∧ cap ≤ 2 ^ 25

/-- The legal values of the parameter SUPPORTED_RATE: 1 to 2^26 - 1 (00_scope.md R8). -/
abbrev Config.RateLegal (rate : Nat) : Prop := 1 ≤ rate ∧ rate ≤ 2 ^ 26 - 1

/-- DESIGN CHOICE (log 1): the CAP of the reset state, the 16 bytes of the spec's own scenario (00_scope.md R8 leaves
CAP open). A claim over states holds for every CAP, since CAP is a field of State. -/
def Config.defaultCap : Nat := 16

/-- The default of SUPPORTED_RATE (00_scope.md R8), for the reset state (log 1). -/
def Config.defaultRate : Nat := 44100

/-- The free value of a MEM byte that no producer step has written since MEM last became unspecified: the n-th such
time, at a byte offset (10_state.md R30, 00_scope.md R9(d); log 8). -/
opaque Config.memDraw : Nat → Nat → Byte

/-- The free value of the n-th conversion, should its result be NaN: the sign (bit 22) and the payload (bits 21 to 0)
of the quiet NaN (41_render_convert.md R136, 00_scope.md R9(a); log 9). -/
opaque Config.nanDraw : Nat → BitVec 23

end Sys2Proof
end

