-- ==== Sys2Proof/Machine/State.lean ====
section
/-! DEFINITION. The state of RBSC (10_state.md): every register, the ring buffer, the sequencers of the two multi-step
commands and the data-in channels; with it the model's record of the environment (10_state.md R32) and the counters of
the free values. Plain data throughout. -/

namespace Sys2Proof.Machine

/-- STATUS.LSTATE, the lifecycle state (10_state.md R29); the values 5 to 7 are never held. -/
inductive LState where
  | uninit
  | ready
  | active
  | closed
  | fatal
  deriving DecidableEq, Repr

/-- The fields of STATUS (10_state.md R28) but for the two busy bits, which say whether a sequencer's state exists
(R31) and are read off it (`State.statusWord`, log 10); the reserved bits are hardwired to 0. -/
structure Status where
  /-- bits [2:0] -/
  lstate : LState
  /-- bit [3] -/
  started : Bool
  /-- bit [4], sticky -/
  overrun : Bool
  /-- bit [8], sticky -/
  eIllegal : Bool
  /-- bit [9], sticky -/
  eState : Bool
  /-- bit [10], sticky -/
  eFrame : Bool
  /-- bit [11], sticky -/
  eRange : Bool
  /-- bit [12], sticky -/
  eRate : Bool
  deriving DecidableEq, Repr

/-- The P sequencer while a P.PLAY is in progress (10_state.md R31). -/
structure PlaySeq where
  /-- p_rem: the bytes not yet written -/
  rem : Nat
  /-- p_pay: the rest of the payload beats -/
  pay : List Word
  /-- the operand `count`, which the response 4*count needs (42_feeder.md R151; log 11) -/
  count : Nat
  deriving DecidableEq, Repr

/-- c_phase (10_state.md R31). -/
inductive RenderPhase where
  | chunk
  | fill
  deriving DecidableEq, Repr

/-- The C sequencer while a C.RENDER is in progress (10_state.md R31). -/
structure RenderSeq where
  /-- c_phase -/
  phase : RenderPhase
  /-- c_n: the operand nframes -/
  n : Nat
  /-- c_left: the frames still needed -/
  left : Nat
  /-- c_o: the next output frame index -/
  o : Nat
  /-- c_k: the frames taken from the buffer so far -/
  k : Nat
  /-- c_vol: VOLUME as latched at the start step -/
  vol : Word
  deriving DecidableEq, Repr

/-- The response codes (30_encoding.md R78); 7 to 15 are never produced. -/
inductive Code where
  | ok
  | short
  | eIllegal
  | eState
  | eFrame
  | eRange
  | eRate
  deriving DecidableEq, Repr

/-- A response: a code and its values (30_encoding.md R78). -/
structure Response where
  code : Code
  values : List Word
  deriving DecidableEq, Repr

/-- One output beat: the binary32 patterns of one frame (30_encoding.md R79). -/
structure OutBeat where
  left : Word
  right : Word
  deriving DecidableEq, Repr

/-- A command an issuer will issue: the word, its payload beats (30_encoding.md R77), and whether its issuer has then
seen the response of every command issued earlier on the opposite port (20_memory.md R57; log 5). -/
structure Command where
  word : Word
  payload : List Word
  seen : Bool
  deriving DecidableEq, Repr

/-- Which agent steps next, with the draw of a link step (00_scope.md R4, R9; 20_memory.md R55), or the reset event
(70_reset_and_hazards.md R210). -/
inductive Choice where
  | agentH
  | agentP
  | agentC
  /-- L.SYNC_W with its draw -/
  | syncW (d : Nat)
  /-- L.SYNC_R with its draw -/
  | syncR (d : Nat)
  | reset
  deriving DecidableEq, Repr

/-- The whole machine: RBSC and the model's record of its environment. -/
structure State where
  /-- CAPACITY, the parameter CAP (10_state.md R39, R41) -/
  cap : Nat
  /-- RATE, the parameter SUPPORTED_RATE (10_state.md R39, R41) -/
  rate : Nat
  /-- MEM: the bytes a producer step has written since MEM last became unspecified, by rising offset (10_state.md
  R25, R30; log 8) -/
  mem : List Host.Cell
  /-- how often MEM has become unspecified: the model's own counter for `Config.memDraw` (log 8) -/
  memGen : Nat
  /-- WPTR (10_state.md R21; log 17 for this and the next three) -/
  wptr : Nat
  /-- RPTR (10_state.md R22) -/
  rptr : Nat
  /-- WVIEW, the value of WPTR the consumer sees (10_state.md R24) -/
  wview : Nat
  /-- RVIEW, the value of RPTR the producer sees (10_state.md R24) -/
  rview : Nat
  /-- VOLUME (10_state.md R26) -/
  volume : Word
  /-- DROPPED (10_state.md R27) -/
  dropped : Word
  /-- STATUS (10_state.md R28) -/
  status : Status
  /-- the P sequencer; present exactly while STATUS.P_BUSY = 1 (10_state.md R31) -/
  pSeq : Option PlaySeq
  /-- the C sequencer; present exactly while STATUS.C_BUSY = 1 (10_state.md R31) -/
  cSeq : Option RenderSeq
  /-- the data-in channel of port H (30_encoding.md R77) -/
  hIn : List Word
  /-- the data-in channel of port P -/
  pIn : List Word
  /-- the data-in channel of port C -/
  cIn : List Word
  /-- how many conversions have run: the model's own counter for `Config.nanDraw` (log 9) -/
  nanDraws : Nat
  /-- what the lifecycle controller will still issue on H (10_state.md R32; log 4) -/
  hCmds : List Command
  /-- what the feeder will still issue on P -/
  pCmds : List Command
  /-- what the engine will still issue on C -/
  cCmds : List Command
  /-- how many commands have been issued on H (70_reset_and_hazards.md R221; log 24) -/
  hIssued : Nat
  /-- how many commands have been issued on P -/
  pIssued : Nat
  /-- how many commands have been issued on C -/
  cIssued : Nat
  /-- the order in which agents step (00_scope.md R9(b)(c); log 2) -/
  sched : List Choice
  /-- the responses given on H, oldest first (log 16) -/
  hResp : List Response
  /-- the responses given on P -/
  pResp : List Response
  /-- the responses given on C -/
  cResp : List Response
  /-- the output stream (30_encoding.md R79) -/
  out : List OutBeat
  deriving DecidableEq, Repr

/-- Why the machine stops. -/
inductive Fault where
  /-- Raised by the P.PLAY write step alone, when `take()` finds fewer beats than the bytes still owed: no rule gives
  `take()` a value on an empty channel. Safe: the machine stops, and no run from reset gets there, since the payload
  length is checked at the issue (30_encoding.md R74(e)). -/
  | noBeat
  deriving DecidableEq, Repr

/-- Why a step has no meaning. -/
inductive Refusal where
  /-- Raised by `exec` alone, for a command that has no meaning in the model; no arm raises it now. Safe. -/
  | notModelled (mnemonic : String)
  deriving DecidableEq, Repr

/-- STATUS after reset: UNINIT and every other bit 0 (10_state.md R28, R41). -/
def Status.reset : Status :=
  { lstate := .uninit, started := false, overrun := false, eIllegal := false, eState := false,
    eFrame := false, eRange := false, eRate := false }

/-- The machine right after reset (10_state.md R41, 70_reset_and_hazards.md R210), with nothing queued, scheduled or
answered. The parameters take the values of log 1, the model's counters those of logs 8 and 9. -/
def State.reset : State :=
  { cap := Config.defaultCap, rate := Config.defaultRate,
    mem := [], memGen := 0,
    wptr := 0, rptr := 0, wview := 0, rview := 0,
    volume := 0x3F800000#32, dropped := 0#32, status := Status.reset,
    pSeq := none, cSeq := none,
    hIn := [], pIn := [], cIn := [],
    nanDraws := 0,
    hCmds := [], pCmds := [], cCmds := [], hIssued := 0, pIssued := 0, cIssued := 0, sched := [],
    hResp := [], pResp := [], cResp := [], out := [] }

end Sys2Proof.Machine
end

