-- ==== Sys2Proof/Machine/Memory.lean ====
section
/-! DEFINITION. MEM as a sorted list of the bytes written (20_memory.md R50 to R52, 00_scope.md R12). An unlisted
offset holds no written byte: a read of it gives the free value `Config.memDraw` (10_state.md R30; log 8). -/

namespace Sys2Proof.Machine

/-- The byte last written at an offset since MEM became unspecified; none where nothing was written. -/
def memLookup (m : List Host.Cell) (a : Nat) : Option Byte :=
  match m with
  | [] => none
  | (b, v) :: rest => if b = a then some v else memLookup rest a

/-- Write one byte, keeping the offsets strictly rising. -/
def memStore (m : List Host.Cell) (a : Nat) (v : Byte) : List Host.Cell :=
  match m with
  | [] => [(a, v)]
  | (b, w) :: rest =>
    if a < b then (a, v) :: (b, w) :: rest
    else if a = b then (a, v) :: rest
    else (b, w) :: memStore rest a v

/-- The canonical form: offsets strictly rising. (An unlisted offset reads as no written byte, which no entry equals.) -/
def memWf (m : List Host.Cell) : Bool :=
  match m with
  | [] => true
  | [_] => true
  | (a, _) :: (b, w) :: rest => decide (a < b) && memWf ((b, w) :: rest)

/-- A byte of MEM as a command reads it: the byte written, or the draw of an unwritten byte (10_state.md R30). -/
def memByte (s : State) (a : Nat) : Byte :=
  match memLookup s.mem a with
  | some v => v
  | none => Config.memDraw s.memGen a

/-- `MemRead(off, n)`: the little-endian value of n bytes, offsets modulo CAP (00_scope.md R12). -/
def memRead (s : State) (off n : Nat) : Nat :=
  match n with
  | 0 => 0
  | k + 1 => memRead s off k + (memByte s ((off + k) % s.cap)).toNat * 2 ^ (8 * k)

/-- `MemWrite(off, n, v)` on the list of written bytes (00_scope.md R12): byte i of v to `(off + i) mod CAP`. -/
def memWrite (cap : Nat) (m : List Host.Cell) (off n : Nat) (v : Word) : List Host.Cell :=
  match n with
  | 0 => m
  | k + 1 => memStore (memWrite cap m off k v) ((off + k) % cap) (v.extractLsb' (8 * k) 8)

/-- The loop of 40_ring_buffer.md R101 and 42_feeder.md R151: beat i goes to `(base + 4*i) mod CAP`. -/
def memWriteBeats (cap : Nat) (m : List Host.Cell) (base : Nat) (beats : List Word) : List Host.Cell :=
  match beats with
  | [] => m
  | b :: rest => memWriteBeats cap (memWrite cap m (base % cap) 4 b) (base + 4) rest

end Sys2Proof.Machine
end

