-- ==== Sys2Proof/Machine/Flags.lean ====
section
/-! DEFINITION. STATUS (10_state.md R28, R29): the word H.READ_REG reads, the error bits, and the two flag-like
computations the commands make, the saturating DROPPED sum (R27) and the sticky OVERRUN bit. -/

namespace Sys2Proof.Machine

/-- The value of STATUS.LSTATE (10_state.md R29). -/
def lstateBits (l : LState) : BitVec 3 :=
  match l with
  | .uninit => 0#3
  | .ready => 1#3
  | .active => 2#3
  | .closed => 3#3
  | .fatal => 4#3

/-- STATUS.P_BUSY (10_state.md R28, R31). -/
def State.pBusy (s : State) : Bool := s.pSeq.isSome

/-- STATUS.C_BUSY (10_state.md R28, R31). -/
def State.cBusy (s : State) : Bool := s.cSeq.isSome

/-- STATUS as H.READ_REG reads it, bits [31:13] down to [2:0] (10_state.md R28). -/
def State.statusWord (s : State) : Word :=
  0#19 ++ (BitVec.ofBool s.status.eRate ++ (BitVec.ofBool s.status.eRange ++ (BitVec.ofBool s.status.eFrame ++
    (BitVec.ofBool s.status.eState ++ (BitVec.ofBool s.status.eIllegal ++ (0#1 ++ (BitVec.ofBool s.cBusy ++
      (BitVec.ofBool s.pBusy ++ (BitVec.ofBool s.status.overrun ++ (BitVec.ofBool s.status.started ++
        lstateBits s.status.lstate))))))))))

/-- The five error classes (60_exceptions.md R190). -/
inductive ErrClass where
  | illegal
  | state
  | frame
  | range
  | rate
  deriving DecidableEq, Repr

/-- The response code of an error class (60_exceptions.md R190, 30_encoding.md R78). -/
def errCode (e : ErrClass) : Code :=
  match e with
  | .illegal => .eIllegal
  | .state => .eState
  | .frame => .eFrame
  | .range => .eRange
  | .rate => .eRate

/-- The 4-bit value of a response code (30_encoding.md R78). -/
def codeBits (c : Code) : BitVec 4 :=
  match c with
  | .ok => 0#4
  | .short => 1#4
  | .eIllegal => 2#4
  | .eState => 3#4
  | .eFrame => 4#4
  | .eRange => 5#4
  | .eRate => 6#4

/-- `STATUS.bit(E) <- 1` (60_exceptions.md R192): every other field stays. -/
def statusWithError (e : ErrClass) (st : Status) : Status :=
  match e with
  | .illegal => { st with eIllegal := true }
  | .state => { st with eState := true }
  | .frame => { st with eFrame := true }
  | .range => { st with eRange := true }
  | .rate => { st with eRate := true }

/-- Some error bit [12:8] is set: the run is faulted (60_exceptions.md R196). -/
def statusHasError (st : Status) : Bool :=
  st.eIllegal || st.eState || st.eFrame || st.eRange || st.eRate

/-- `min(DROPPED + d, 2^32 - 1)` (10_state.md R27). -/
def droppedAdd (dropped : Word) (d : Nat) : Word :=
  BitVec.ofNat 32 (min (dropped.toNat + d) (2 ^ 32 - 1))

end Sys2Proof.Machine
end

