-- ==== Sys2Proof/Machine/Float.lean ====
section
/-! DEFINITION. IEEE 754 binary32 as the converter uses it (41_render_convert.md R130 to R138): the exact value of a
pattern, rounding to nearest even, multiplication, and the conversion of an int16 sample. Magnitudes are exact naturals
counted in units of 2^-298, the product of two subnormal steps, so nothing is rounded before the one final rounding.
The fields of a pattern are those of IEEE 754, which the spec names and does not repeat (PRESUMED, log 23). -/

namespace Sys2Proof.Machine

/-- The sign bit. -/
def f32Sign (a : Word) : Bool := a.getLsbD 31

/-- The biased exponent field, bits [30:23]. -/
def f32Exp (a : Word) : Nat := (a.extractLsb' 23 8).toNat

/-- The fraction field, bits [22:0]. -/
def f32Frac (a : Word) : Nat := (a.extractLsb' 0 23).toNat

/-- A NaN: exponent all ones and a nonzero fraction. -/
def f32IsNaN (a : Word) : Bool := f32Exp a == 255 && f32Frac a != 0

/-- An infinity. -/
def f32IsInf (a : Word) : Bool := f32Exp a == 255 && f32Frac a == 0

/-- A zero of either sign. -/
def f32IsZero (a : Word) : Bool := f32Exp a == 0 && f32Frac a == 0

/-- The significand of a finite pattern; subnormals are used as they are (R135). -/
def f32Mant (a : Word) : Nat := if f32Exp a = 0 then f32Frac a else 2 ^ 23 + f32Frac a

/-- The scale of a finite pattern: its magnitude is `f32Mant a * 2^(f32Scale a)` units of 2^-149. -/
def f32Scale (a : Word) : Nat := f32Exp a - 1

/-- `v / 2^sh` rounded to the nearest integer, ties to even (R135). -/
def rneShift (v sh : Nat) : Nat :=
  let q := v / 2 ^ sh
  let r := v % 2 ^ sh
  if 2 ^ sh < 2 * r ∨ (2 * r = 2 ^ sh ∧ q % 2 = 1) then q + 1 else q

/-- The exponent step of a result: how many units of the last place lie above 2^-149 when the magnitude
`m * 2^sh` (in units of 2^-298) keeps 24 significant bits; 0 for a subnormal result. -/
def roundScale (m sh : Nat) : Nat := m.log2 + 1 + sh - 173

/-- The significand of the magnitude `m * 2^sh` (in units of 2^-298), rounded once to the unit `2^(149 + r)`. -/
def roundSignificand (m sh r : Nat) : Nat :=
  if 149 + r ≤ sh then m * 2 ^ (sh - (149 + r)) else rneShift m (149 + r - sh)

/-- Round the magnitude `m * 2^sh` (in units of 2^-298) once to binary32, ties to even, subnormals kept, overflow to
infinity (R135; log 22): the exponent and fraction bits. A significand rounded up to 2^24 carries into the exponent by itself,
and the hidden bit of a normal significand adds the 1 that the exponent field needs. -/
def roundMagnitude (m sh : Nat) : Nat :=
  if m = 0 then 0
  else min (roundScale m sh * 2 ^ 23 + roundSignificand m sh (roundScale m sh)) 0x7F800000

/-- A sign and 31 magnitude bits as a pattern. -/
def packF32 (sign : Bool) (mag : Nat) : Word :=
  BitVec.ofBool sign ++ BitVec.ofNat 31 mag

/-- The quiet NaN of a draw: bits [30:22] all 1, sign and payload as drawn (R136). -/
def quietNaN (draw : BitVec 23) : Word :=
  draw.extractLsb' 22 1 ++ (0x1FF#9 ++ draw.extractLsb' 0 22)

/-- When a product is NaN (R136). -/
def f32MulIsNaN (a b : Word) : Bool :=
  f32IsNaN a || f32IsNaN b || (f32IsZero a && f32IsInf b) || (f32IsInf a && f32IsZero b)

/-- `f32_mul(a, b)` (R135, R136), with the draw a NaN result takes. -/
def f32Mul (a b : Word) (draw : BitVec 23) : Word :=
  if f32MulIsNaN a b then quietNaN draw
  else if f32IsInf a || f32IsInf b then packF32 (f32Sign a ^^ f32Sign b) 0x7F800000
  else packF32 (f32Sign a ^^ f32Sign b)
    (roundMagnitude (f32Mant a * f32Mant b) (f32Scale a + f32Scale b))

/-- `bits32(v / 32768)` for an integer v: 2^-15 is 2^283 units of 2^-298 (R130, R131). -/
def bits32Over32768 (v : Int) : Word :=
  packF32 (decide (v < 0)) (roundMagnitude v.natAbs 283)

/-- `conv(s, vol)` (R130): sign-extend arithmetically (R132), scale exactly, multiply by the volume. -/
def conv (s : BitVec 16) (vol : Word) (draw : BitVec 23) : Word :=
  f32Mul (bits32Over32768 s.toInt) vol draw

/-- Silence: +0.0 (R138). -/
def silence : Word := 0x00000000#32

end Sys2Proof.Machine
end

