-- ==== Sys2Proof/Machine/Operands.lean ====
section
/-! DEFINITION. The operand forms as the meanings read them (30_encoding.md R73), the payload length of each command
(R72, R77, R83), and the register index map of H.READ_REG (10_state.md R39). -/

namespace Sys2Proof.Machine

/-- N26: the unsigned operand `zext_26` (30_encoding.md R73). -/
def operandN26 (n : BitVec 26) : Nat := n.toNat

/-- A natural result as a 32-bit response value (30_encoding.md R78). -/
def valueWord (n : Nat) : Word := BitVec.ofNat 32 n

/-- IDX3: the value of register `idx`; index 7 is reserved (10_state.md R39). WPTR and RPTR are the true cursors, not
the views (20_memory.md R58). -/
def readRegister (idx : BitVec 3) (s : State) : Option Word :=
  match idx.toNat with
  | 0 => some s.statusWord
  | 1 => some (valueWord s.wptr)
  | 2 => some (valueWord s.rptr)
  | 3 => some (valueWord s.cap)
  | 4 => some s.volume
  | 5 => some s.dropped
  | 6 => some (valueWord s.rate)
  | _ => none

/-- S16: the sample converted with the current volume, NaN results drawn (41_render_convert.md R130, R136, R147). -/
def convertOperand (smp : BitVec 16) (s : State) : Word :=
  conv smp s.volume (Config.nanDraw s.nanDraws)

/-- The payload beats a command requires (30_encoding.md R72): one for H.SET_VOLUME, ceil(n/4) for P.WRITE, count for
P.PLAY, none for the others. -/
def payloadBeats (i : Instr) : Nat :=
  match i with
  | .hSetVolume => 1
  | .pWrite n => (operandN26 n + 3) / 4
  | .pPlay count => operandN26 count
  | .hInit | .hActivate | .hDeactivate | .hStart _ | .hStop | .hDeinit | .hReadReg _ | .hConvert _
  | .pFreeSpace | .pWspan
  | .cReadAvailable | .cPeek | .cAdvance _ | .cLoadf _ | .cRender _ => 0

end Sys2Proof.Machine
end

