-- ==== Sys2Proof/Machine/Ops.lean ====
section
/-! DEFINITION. The named operations every meaning is written over: cursor arithmetic (00_scope.md R12), spans
(40_ring_buffer.md R100), publishes and views (20_memory.md R54 to R57), responses and the error procedure
(60_exceptions.md R192), the legality table and the order of checks (R193, R194), the fatal transition
(43_lifecycle.md R170), the reset event (70_reset_and_hazards.md R210), and the issue of a command. -/

namespace Sys2Proof.Machine

/-! ## Cursors -/

/-- `dist(a, b) = (b - a) mod (2*CAP)` (00_scope.md R12), on naturals. -/
def cursorDist (cap a b : Nat) : Nat := (b + (2 * cap - a % (2 * cap))) % (2 * cap)

/-- `adv(a, k) = (a + k) mod (2*CAP)` (00_scope.md R12). -/
def cursorAdv (cap a k : Nat) : Nat := (a + k) % (2 * cap)

/-- `avail_c`: the readable bytes as the consumer sees them (40_ring_buffer.md R100). -/
def State.availC (s : State) : Nat := cursorDist s.cap s.rptr s.wview

/-- `free_p`: the free bytes as the producer sees them (40_ring_buffer.md R100). -/
def State.freeP (s : State) : Nat := s.cap - cursorDist s.cap s.rview s.wptr

/-- The bytes a producer step accepts of `bytes` offered: what fits its view of the free region, cut to whole frames, so
that the write cursor never leaves a frame boundary whatever the view is (40_ring_buffer.md R101 and 42_feeder.md R151,
`k`, a multiple of 4; 90_conflicts.md C7). DEDUCED: the cut at a view that stands off a frame (log 7). -/
def State.acceptedBytes (s : State) (bytes : Nat) : Nat := 4 * (min bytes s.freeP / 4)

/-- Two contiguous byte ranges of MEM; the second always starts at offset 0 (40_ring_buffer.md R100). -/
structure Spans where
  off1 : Nat
  len1 : Nat
  off2 : Nat
  len2 : Nat
  deriving DecidableEq, Repr

/-- `spans(o, len)` (40_ring_buffer.md R100). -/
def spans (cap o len : Nat) : Spans :=
  { off1 := o, len1 := min len (cap - o), off2 := 0, len2 := len - min len (cap - o) }

/-- The four response values of a span query (40_ring_buffer.md R103, R105). -/
def spanValues (r : Spans) : List Word :=
  [valueWord r.off1, valueWord r.len1, valueWord r.off2, valueWord r.len2]

/-- `publish_W(v)` (20_memory.md R54). -/
def State.publishW (s : State) (v : Nat) : State := { s with wptr := v }

/-- `publish_R(v)` (20_memory.md R54). -/
def State.publishR (s : State) (v : Nat) : State := { s with rptr := v }

/-- The writable span as the producer sees it (40_ring_buffer.md R103). -/
def State.writableSpans (s : State) : Spans := spans s.cap (s.wptr % s.cap) s.freeP

/-- The readable span as the consumer sees it (40_ring_buffer.md R105, 41_render_convert.md R140). -/
def State.readableSpans (s : State) : Spans := spans s.cap (s.rptr % s.cap) s.availC

/-- The MemWrite loop of a producer step followed by its one publish: `beats` at the write cursor, which moves by `k`
(40_ring_buffer.md R101, 42_feeder.md R151). -/
def State.writeFrames (s : State) (beats : List Word) (k : Nat) : State :=
  { s with mem := memWriteBeats s.cap s.mem (s.wptr % s.cap) beats, wptr := cursorAdv s.cap s.wptr k }

/-! ## Plain updates of one register -/

/-- The schedule after its first choice is taken. -/
def State.setSched (s : State) (rest : List Choice) : State := { s with sched := rest }

/-- STATUS fields written by a command (10_state.md R28). -/
def State.setStatus (s : State) (st : Status) : State := { s with status := st }

/-- `STATUS.LSTATE <- l`. -/
def State.setLState (s : State) (l : LState) : State := { s with status := { s.status with lstate := l } }

/-- `VOLUME <- v` (43_lifecycle.md R167). -/
def State.setVolume (s : State) (v : Word) : State := { s with volume := v }

/-- `DROPPED <- v` (10_state.md R27). -/
def State.setDropped (s : State) (v : Word) : State := { s with dropped := v }

/-- The P sequencer, and with it STATUS.P_BUSY (10_state.md R31). -/
def State.setPlay (s : State) (q : Option PlaySeq) : State := { s with pSeq := q }

/-- The C sequencer, and with it STATUS.C_BUSY (10_state.md R31). -/
def State.setRender (s : State) (q : Option RenderSeq) : State := { s with cSeq := q }

/-- `n` conversions have each had a NaN draw (41_render_convert.md R136; log 9). -/
def State.countConversions (s : State) (n : Nat) : State := { s with nanDraws := s.nanDraws + n }

/-! ## Views -/

/-- A link step may draw any amount from 1 to the distance (20_memory.md R55; log 7). -/
def linkEnabled (d distance : Nat) : Bool := decide (1 ≤ d) && decide (d ≤ distance)

/-- L.SYNC_W with draw `d`; a draw that is not enabled moves nothing (20_memory.md R55; log 3). -/
def State.syncW (s : State) (d : Nat) : State :=
  if linkEnabled d (cursorDist s.cap s.wview s.wptr) then { s with wview := cursorAdv s.cap s.wview d } else s

/-- L.SYNC_R with draw `d`; a draw that is not enabled moves nothing (20_memory.md R55; log 3). -/
def State.syncR (s : State) (d : Nat) : State :=
  if linkEnabled d (cursorDist s.cap s.rview s.rptr) then { s with rview := cursorAdv s.cap s.rview d } else s

/-- The view a sequential issue moves: the opposite port has no command in flight and the issuer has seen all its
responses. An H issue and a concurrent issue move none (20_memory.md R57). -/
def State.issueView (s : State) (port : Port) (seen : Bool) : State :=
  match port with
  | .host => s
  | .producer => if seen && !s.cBusy then { s with rview := s.rptr } else s
  | .consumer => if seen && !s.pBusy then { s with wview := s.wptr } else s

/-! ## Responses, output and payloads -/

/-- The data-in channel of a port (30_encoding.md R77). -/
def State.dataIn (s : State) (port : Port) : List Word :=
  match port with
  | .host => s.hIn
  | .producer => s.pIn
  | .consumer => s.cIn

/-- `respond(code, values)`: the command ends, its one response is given, and what is left of its payload is discarded
(30_encoding.md R77, R78). -/
def State.respond (s : State) (port : Port) (code : Code) (values : List Word) : State :=
  match port with
  | .host => { s with hIn := [], hResp := s.hResp ++ [⟨code, values⟩] }
  | .producer => { s with pIn := [], pResp := s.pResp ++ [⟨code, values⟩] }
  | .consumer => { s with cIn := [], cResp := s.cResp ++ [⟨code, values⟩] }

/-- `emit` of a run of beats, in order (30_encoding.md R79). -/
def State.emit (s : State) (beats : List OutBeat) : State := { s with out := s.out ++ beats }

/-- Frames of silence on both channels (41_render_convert.md R138). -/
def silentFrames (n : Nat) : List OutBeat := List.replicate n ⟨silence, silence⟩

/-! ## Errors -/

/-- `raise Fault(E)` on a port: the sticky STATUS bit, the payload discarded, the response (code(E), 0), and nothing
else (60_exceptions.md R192, R197). -/
def State.raiseError (s : State) (e : ErrClass) (port : Port) : State :=
  (s.setStatus (statusWithError e s.status)).respond port (errCode e) [0#32]

/-- `fatal()`: LSTATE is FATAL and both sequencers are abandoned without a response (43_lifecycle.md R170; log 15). -/
def State.fatal (s : State) : State :=
  { s with status := { s.status with lstate := .fatal }, pSeq := none, cSeq := none }

/-- The legality table (60_exceptions.md R193): in which lifecycle states a command is legal, with the further
condition of H.DEINIT. -/
def legal (i : Instr) (s : State) : Bool :=
  match i with
  | .hInit => s.status.lstate == .uninit
  | .hActivate => s.status.lstate == .ready
  | .hDeactivate => s.status.lstate == .active
  | .hStart _ | .hStop => s.status.lstate == .ready || s.status.lstate == .active
  | .hDeinit => s.status.lstate == .ready && !s.pBusy && !s.cBusy
  | .hSetVolume | .hConvert _ => s.status.lstate != .fatal
  | .hReadReg _ => true
  | .pWrite _ | .pPlay _ | .pFreeSpace | .pWspan => s.status.lstate == .ready || s.status.lstate == .active
  | .cReadAvailable | .cPeek | .cAdvance _ | .cLoadf _ | .cRender _ => s.status.lstate == .active

/-- The checks every command runs first, in the order of 60_exceptions.md R194: the payload length (30_encoding.md
R74(e); the word itself was checked by `decode`), then the lifecycle and busy state. A command that passes runs
`body`, which makes the command's own checks. -/
def checked (i : Instr) (s : State) (body : State → State) : Host.Outcome State Fault Refusal :=
  if (s.dataIn i.port).length ≠ payloadBeats i then .next (s.raiseError .illegal i.port)
  else if legal i s then .next (body s)
  else .next (s.raiseError .state i.port)

/-! ## Lifecycle -/

/-- Cursors and views to 0 and MEM unspecified, as H.INIT and H.DEINIT leave them (43_lifecycle.md R161, R166). -/
def State.emptyBuffer (s : State) : State :=
  { s with wptr := 0, rptr := 0, wview := 0, rview := 0, mem := [], memGen := s.memGen + 1 }

/-- The reset event (70_reset_and_hazards.md R210): every piece of RBSC's state takes its reset value, MEM becomes
unspecified, running commands and undelivered payloads are gone. The parameters, the issuers' coming commands, the
schedule, the record of issues, the responses and the output stream are not RBSC's to reset (log 14). -/
def State.resetEvent (s : State) : State :=
  { State.reset with
    cap := s.cap, rate := s.rate, memGen := s.memGen + 1, nanDraws := s.nanDraws,
    hCmds := s.hCmds, pCmds := s.pCmds, cCmds := s.cCmds,
    hIssued := s.hIssued, pIssued := s.pIssued, cIssued := s.cIssued, sched := s.sched,
    hResp := s.hResp, pResp := s.pResp, cResp := s.cResp, out := s.out }

/-! ## Issuing a command -/

/-- The commands an issuer has still to issue. -/
def State.cmds (s : State) (port : Port) : List Command :=
  match port with
  | .host => s.hCmds
  | .producer => s.pCmds
  | .consumer => s.cCmds

/-- Replace the commands an issuer has still to issue. -/
def State.setCmds (s : State) (port : Port) (q : List Command) : State :=
  match port with
  | .host => { s with hCmds := q }
  | .producer => { s with pCmds := q }
  | .consumer => { s with cCmds := q }

/-- One more command has been issued on the port (70_reset_and_hazards.md R221; log 24). -/
def State.countIssued (s : State) (port : Port) : State :=
  match port with
  | .host => { s with hIssued := s.hIssued + 1 }
  | .producer => { s with pIssued := s.pIssued + 1 }
  | .consumer => { s with cIssued := s.cIssued + 1 }

/-- Put a command's payload into its port's data-in channel (30_encoding.md R77). -/
def State.deliver (s : State) (port : Port) (payload : List Word) : State :=
  match port with
  | .host => { s with hIn := payload }
  | .producer => { s with pIn := payload }
  | .consumer => { s with cIn := payload }

/-- The next command of a port, if its issuer has one: the word, and the state in which its first step runs, with the
issue counted, at a sequential issue the port's view moved, and the payload delivered (20_memory.md R57; log 6). -/
def acceptCommand (port : Port) (s : State) : Option (Word × State) :=
  match s.cmds port with
  | [] => none
  | cmd :: rest =>
    some (cmd.word, (((s.setCmds port rest).countIssued port).issueView port cmd.seen).deliver port cmd.payload)

/-- The payload of zero beats that a word's command requires; none for an illegal word (30_encoding.md R83). -/
def zeroPayload (port : Port) (w : Word) : List Word :=
  match decode port w with
  | .ok i => List.replicate (payloadBeats i) 0#32
  | .error _ => []

/-- The port a word names, H for the reserved PORT value (any port refuses that word, 30_encoding.md R74(a)). -/
def portForWord (w : Word) : Port :=
  match portOfBits (portField w) with
  | some port => port
  | none => .host

/-- Make the next step issue word `w`, concurrently and with a payload of zero beats: it is put first on its port's
queue, the port is idle, and its agent steps next (log 4). -/
def State.placeCommand (s : State) (w : Word) : State :=
  let port := portForWord w
  let cmd : Command := { word := w, payload := zeroPayload port w, seen := false }
  match port with
  | .host => { s with sched := .agentH :: s.sched, hCmds := cmd :: s.hCmds }
  | .producer => { s with sched := .agentP :: s.sched, pCmds := cmd :: s.pCmds, pSeq := none }
  | .consumer => { s with sched := .agentC :: s.sched, cCmds := cmd :: s.cCmds, cSeq := none }

end Sys2Proof.Machine
end

