-- ==== Sys2Proof/Machine/Feeder.lean ====
section
/-! DEFINITION. P.PLAY (42_feeder.md R150 to R155): its start step is the command's meaning; the write steps are the
later steps of agent P while the play runs. -/

namespace Sys2Proof.Machine

/-- P.PLAY, the start step (42_feeder.md R150): a count of 0 ends at once. -/
def effectPPlay (count : BitVec 26) (s : State) : State :=
  let c := operandN26 count
  if 4 * c = 0 then s.respond .producer .ok [0#32]
  else (s.deliver .producer []).setPlay (some { rem := 4 * c, pay := s.pIn, count := c })

/-- P.PLAY: the common checks, then its effect. -/
def execPPlay (count : BitVec 26) (s : State) : Host.Outcome State Fault Refusal :=
  checked (.pPlay count) s (effectPPlay count)

/-- P.PLAY, the write step (42_feeder.md R151). With nothing left to write or no whole frame free in the producer's view,
agent P has no enabled step and holds (R152; each write step writes at least one frame, R154). DEDUCED: the
hold with 1 to 3 bytes free, which only a view off a frame reaches (log 7). -/
def playStep (q : PlaySeq) (s : State) : Host.Outcome State Fault Refusal :=
  let k := s.acceptedBytes q.rem
  if k = 0 then .next s
  else if q.pay.length < k / 4 then .fault .noBeat
  else
    let t := s.writeFrames (q.pay.take (k / 4)) k
    if q.rem - k = 0 then .next ((t.setPlay none).respond .producer .ok [valueWord (4 * q.count)])
    else .next (t.setPlay (some { q with rem := q.rem - k, pay := q.pay.drop (k / 4) }))

end Sys2Proof.Machine
end

