-- ==== Sys2Proof/Machine/Lifecycle.lean ====
section
/-! DEFINITION. The commands of port H (43_lifecycle.md R160 to R170, 41_render_convert.md R147). -/

namespace Sys2Proof.Machine

/-- H.INIT (43_lifecycle.md R161): VOLUME and the error bits are kept. -/
def effectHInit (s : State) : State :=
  ((s.emptyBuffer.setDropped 0#32).setStatus
    { s.status with overrun := false, started := false, lstate := .ready }).respond .host .ok [0#32]

/-- H.INIT: the common checks, then its effect. -/
def execHInit (s : State) : Host.Outcome State Fault Refusal :=
  checked .hInit s effectHInit

/-- H.ACTIVATE (43_lifecycle.md R162). -/
def effectHActivate (s : State) : State :=
  (s.setLState .active).respond .host .ok [0#32]

/-- H.ACTIVATE: the common checks, then its effect. -/
def execHActivate (s : State) : Host.Outcome State Fault Refusal :=
  checked .hActivate s effectHActivate

/-- H.DEACTIVATE (43_lifecycle.md R163): a C.RENDER or P.PLAY in progress goes on. -/
def effectHDeactivate (s : State) : State :=
  (s.setLState .ready).respond .host .ok [0#32]

/-- H.DEACTIVATE: the common checks, then its effect. -/
def execHDeactivate (s : State) : Host.Outcome State Fault Refusal :=
  checked .hDeactivate s effectHDeactivate

/-- H.START (43_lifecycle.md R164): a rate other than SUPPORTED_RATE is fatal. -/
def effectHStart (rate : BitVec 26) (s : State) : State :=
  if operandN26 rate ≠ s.rate then s.fatal.raiseError .rate .host
  else (s.setStatus { s.status with started := true }).respond .host .ok [0#32]

/-- H.START: the common checks, then its effect. -/
def execHStart (rate : BitVec 26) (s : State) : Host.Outcome State Fault Refusal :=
  checked (.hStart rate) s (effectHStart rate)

/-- H.STOP (43_lifecycle.md R165): no effect but its response. -/
def effectHStop (s : State) : State :=
  s.respond .host .ok [0#32]

/-- H.STOP: the common checks, then its effect. -/
def execHStop (s : State) : Host.Outcome State Fault Refusal :=
  checked .hStop s effectHStop

/-- H.DEINIT (43_lifecycle.md R166): VOLUME, DROPPED and OVERRUN are kept. -/
def effectHDeinit (s : State) : State :=
  (s.emptyBuffer.setStatus { s.status with started := false, lstate := .closed }).respond .host .ok [0#32]

/-- H.DEINIT: the common checks, then its effect. -/
def execHDeinit (s : State) : Host.Outcome State Fault Refusal :=
  checked .hDeinit s effectHDeinit

/-- H.SET_VOLUME (43_lifecycle.md R167): `VOLUME <- take()`, any pattern. A payload without a beat is illegal
(30_encoding.md R74(e)) and has been refused before. -/
def effectHSetVolume (s : State) : State :=
  match s.hIn with
  | [] => s.raiseError .illegal .host
  | beat :: _ => (s.setVolume beat).respond .host .ok [0#32]

/-- H.SET_VOLUME: the common checks, then its effect. -/
def execHSetVolume (s : State) : Host.Outcome State Fault Refusal :=
  checked .hSetVolume s effectHSetVolume

/-- H.READ_REG (43_lifecycle.md R168): index 7 is an illegal word (30_encoding.md R74(d);
log 19). -/
def effectHReadReg (idx : BitVec 3) (s : State) : State :=
  match readRegister idx s with
  | none => s.raiseError .illegal .host
  | some v => s.respond .host .ok [v]

/-- H.READ_REG: the common checks, then its effect. -/
def execHReadReg (idx : BitVec 3) (s : State) : Host.Outcome State Fault Refusal :=
  checked (.hReadReg idx) s (effectHReadReg idx)

/-- H.CONVERT (41_render_convert.md R147). -/
def effectHConvert (smp : BitVec 16) (s : State) : State :=
  (s.countConversions 1).respond .host .ok [convertOperand smp s]

/-- H.CONVERT: the common checks, then its effect. -/
def execHConvert (smp : BitVec 16) (s : State) : Host.Outcome State Fault Refusal :=
  checked (.hConvert smp) s (effectHConvert smp)

end Sys2Proof.Machine
end

