-- ==== Sys2Proof/Machine/Render.lean ====
section
/-! DEFINITION. C.RENDER (41_render_convert.md R139 to R148): its start step is the command's meaning; the chunk and
fill steps are the later steps of agent C while the render runs. -/

namespace Sys2Proof.Machine

/-- C.RENDER, the start step (41_render_convert.md R139): latches VOLUME (R134); with nothing readable it fills with
silence and ends at once. -/
def effectCRender (nframes : BitVec 26) (s : State) : State :=
  let n := operandN26 nframes
  if s.availC = 0 then (s.emit (silentFrames n)).respond .consumer .ok [0#32]
  else (s.deliver .consumer []).setRender
    (some { phase := .chunk, n := n, left := n, o := 0, k := 0, vol := s.volume })

/-- C.RENDER: the common checks, then its effect. -/
def execCRender (nframes : BitVec 26) (s : State) : Host.Outcome State Fault Refusal :=
  checked (.cRender nframes) s (effectCRender nframes)

/-- The sample at a byte offset of MEM (20_memory.md R50). -/
def sampleAt (s : State) (off : Nat) : BitVec 16 := BitVec.ofNat 16 (memRead s off 2)

/-- The output beat of the j-th frame of a chunk that starts at offset `o1`: left at +0, right at +2, both with the
latched volume (41_render_convert.md R140, R142); each conversion has a NaN draw of its own (R136). -/
def chunkBeat (s : State) (vol : Word) (o1 j : Nat) : OutBeat :=
  { left := conv (sampleAt s (o1 + 4 * j)) vol (Config.nanDraw (s.nanDraws + 2 * j))
    right := conv (sampleAt s (o1 + 4 * j + 2)) vol (Config.nanDraw (s.nanDraws + 2 * j + 1)) }

/-- The frames a chunk step takes: those needed, of the whole frames in the first span (41_render_convert.md R140,
R148). -/
def chunkFrames (s : State) (q : RenderSeq) : Nat := min q.left (s.readableSpans.len1 / 4)

/-- C.RENDER, the chunk step (41_render_convert.md R140). -/
def renderChunk (q : RenderSeq) (s : State) : State :=
  let r := s.readableSpans
  let f := chunkFrames s q
  if 0 < q.left ∧ 4 ≤ r.len1 then
    (((s.emit ((List.range f).map (chunkBeat s q.vol r.off1))).publishR (cursorAdv s.cap s.rptr (4 * f))).countConversions
      (2 * f)).setRender (some { q with left := q.left - f, o := q.o + f, k := q.k + f })
  else s.setRender (some { q with phase := .fill })

/-- C.RENDER, the fill step (41_render_convert.md R141): silence for what is left, then the response with the frames
taken. -/
def renderFill (q : RenderSeq) (s : State) : State :=
  ((s.emit (silentFrames q.left)).setRender none).respond .consumer .ok [valueWord q.k]

/-- The next step of a running C.RENDER, by its phase. -/
def renderStep (q : RenderSeq) (s : State) : State :=
  match q.phase with
  | .chunk => renderChunk q s
  | .fill => renderFill q s

end Sys2Proof.Machine
end

