-- ==== Sys2Proof/Machine/Ring.lean ====
section
/-! DEFINITION. The ring buffer commands of ports P and C (40_ring_buffer.md R101 to R107). -/

namespace Sys2Proof.Machine

/-- P.WRITE (40_ring_buffer.md R101): writes the prefix that fits the producer's view of the free region, publishes
once, and reports what it dropped. -/
def effectPWrite (n : BitVec 26) (s : State) : State :=
  let bytes := operandN26 n
  let k := s.acceptedBytes bytes
  if bytes % 4 ≠ 0 then s.raiseError .frame .producer
  else
    let t := s.writeFrames (s.pIn.take (k / 4)) k
    if k < bytes then
      ((t.setDropped (droppedAdd s.dropped (bytes - k))).setStatus { s.status with overrun := true }).respond
        .producer .short [valueWord k]
    else t.respond .producer .ok [valueWord k]

/-- P.WRITE: the common checks, then its effect. -/
def execPWrite (n : BitVec 26) (s : State) : Host.Outcome State Fault Refusal :=
  checked (.pWrite n) s (effectPWrite n)

/-- P.FREE_SPACE (40_ring_buffer.md R102). -/
def effectPFreeSpace (s : State) : State :=
  s.respond .producer .ok [valueWord s.freeP]

/-- P.FREE_SPACE: the common checks, then its effect. -/
def execPFreeSpace (s : State) : Host.Outcome State Fault Refusal :=
  checked .pFreeSpace s effectPFreeSpace

/-- P.WSPAN (40_ring_buffer.md R103). -/
def effectPWspan (s : State) : State :=
  s.respond .producer .ok (spanValues s.writableSpans)

/-- P.WSPAN: the common checks, then its effect. -/
def execPWspan (s : State) : Host.Outcome State Fault Refusal :=
  checked .pWspan s effectPWspan

/-- C.READ_AVAILABLE (40_ring_buffer.md R104). -/
def effectCReadAvailable (s : State) : State :=
  s.respond .consumer .ok [valueWord s.availC]

/-- C.READ_AVAILABLE: the common checks, then its effect. -/
def execCReadAvailable (s : State) : Host.Outcome State Fault Refusal :=
  checked .cReadAvailable s effectCReadAvailable

/-- C.PEEK (40_ring_buffer.md R105). -/
def effectCPeek (s : State) : State :=
  s.respond .consumer .ok (spanValues s.readableSpans)

/-- C.PEEK: the common checks, then its effect. -/
def execCPeek (s : State) : Host.Outcome State Fault Refusal :=
  checked .cPeek s effectCPeek

/-- C.ADVANCE (40_ring_buffer.md R106): the bound is the consumer's view. -/
def effectCAdvance (n : BitVec 26) (s : State) : State :=
  let bytes := operandN26 n
  if bytes % 4 ≠ 0 then s.raiseError .frame .consumer
  else if s.availC < bytes then s.raiseError .range .consumer
  else (s.publishR (cursorAdv s.cap s.rptr bytes)).respond .consumer .ok [0#32]

/-- C.ADVANCE: the common checks, then its effect. -/
def execCAdvance (n : BitVec 26) (s : State) : Host.Outcome State Fault Refusal :=
  checked (.cAdvance n) s (effectCAdvance n)

/-- C.LOADF (40_ring_buffer.md R107): one frame, wholly inside the readable region the consumer sees. -/
def effectCLoadf (off : BitVec 26) (s : State) : State :=
  let o := operandN26 off
  let rel := (o + (s.cap - s.rptr % s.cap)) % s.cap
  if o % 4 ≠ 0 then s.raiseError .frame .consumer
  else if s.cap ≤ o then s.raiseError .range .consumer
  else if s.availC < rel + 4 then s.raiseError .range .consumer
  else s.respond .consumer .ok [valueWord (memRead s o 4)]

/-- C.LOADF: the common checks, then its effect. -/
def execCLoadf (off : BitVec 26) (s : State) : Host.Outcome State Fault Refusal :=
  checked (.cLoadf off) s (effectCLoadf off)

end Sys2Proof.Machine
end

