-- ==== Sys2Proof/Machine/Dispatch.lean ====
section
/-! DEFINITION. The meaning of each command: the one step of a single-step command, the start step of P.PLAY and
C.RENDER. -/

namespace Sys2Proof.Machine

-- The state is the one in which the command has been accepted: its payload is in its port's data-in channel (log 13).
def exec (i : Instr) (s : State) : Host.Outcome State Fault Refusal :=
  match i with
  | .hInit => Sys2Proof.Machine.execHInit s
  | .hActivate => Sys2Proof.Machine.execHActivate s
  | .hDeactivate => Sys2Proof.Machine.execHDeactivate s
  | .hStart rate => Sys2Proof.Machine.execHStart rate s
  | .hStop => Sys2Proof.Machine.execHStop s
  | .hDeinit => Sys2Proof.Machine.execHDeinit s
  | .hSetVolume => Sys2Proof.Machine.execHSetVolume s
  | .hReadReg idx => Sys2Proof.Machine.execHReadReg idx s
  | .hConvert smp => Sys2Proof.Machine.execHConvert smp s
  | .pWrite n => Sys2Proof.Machine.execPWrite n s
  | .pPlay count => Sys2Proof.Machine.execPPlay count s
  | .pFreeSpace => Sys2Proof.Machine.execPFreeSpace s
  | .pWspan => Sys2Proof.Machine.execPWspan s
  | .cReadAvailable => Sys2Proof.Machine.execCReadAvailable s
  | .cPeek => Sys2Proof.Machine.execCPeek s
  | .cAdvance n => Sys2Proof.Machine.execCAdvance n s
  | .cLoadf off => Sys2Proof.Machine.execCLoadf off s
  | .cRender nframes => Sys2Proof.Machine.execCRender nframes s

end Sys2Proof.Machine
end

