-- ==== Sys2Proof/Machine/Step.lean ====
section
/-! DEFINITION. One step of the machine: the agent the schedule names takes its next step (00_scope.md R4,
20_memory.md R59). RBSC fetches nothing (R64); a command comes from its port's issuer. -/

namespace Sys2Proof.Machine

/-- Run an accepted word on a port: the decoded command's first step, or E_ILLEGAL (30_encoding.md R74). -/
def runWord (port : Port) (w : Word) (s : State) : Host.Outcome State Fault Refusal :=
  match decode port w with
  | .ok i => exec i s
  | .error _ => .next (s.raiseError .illegal port)

/-- An idle port takes its next command, if its issuer has one; else it waits (70_reset_and_hazards.md R211). -/
def issueStep (port : Port) (s : State) : Host.Outcome State Fault Refusal :=
  match acceptCommand port s with
  | none => .next s
  | some (w, t) => runWord port w t

/-- One step of the agent the schedule chose. A port with a running multi-step command takes that command's next step
and accepts no new one (30_encoding.md R82). -/
def agentStep (c : Choice) (s : State) : Host.Outcome State Fault Refusal :=
  match c with
  | .agentH => issueStep .host s
  | .agentP =>
    match s.pSeq with
    | some q => playStep q s
    | none => issueStep .producer s
  | .agentC =>
    match s.cSeq with
    | some q => .next (renderStep q s)
    | none => issueStep .consumer s
  | .syncW d => .next (s.syncW d)
  | .syncR d => .next (s.syncR d)
  | .reset => .next s.resetEvent

/-- One step: the next choice of the schedule is taken; with an empty schedule no agent steps and the machine waits
(70_reset_and_hazards.md R211; log 2, 3). -/
def step (s : State) : Host.Outcome State Fault Refusal :=
  match s.sched with
  | [] => .next s
  | c :: rest => agentStep c (s.setSched rest)

/-- The state whose very next step issues the word `w` of the opcode table (log 4). -/
def State.withFetchWord (s : State) (nbits w : Nat) : State :=
  if nbits ≤ 32 then s.placeCommand (BitVec.ofNat 32 w) else s

end Sys2Proof.Machine
end

