-- ==== Sys2Proof/Safety.lean ====
section
/-! DEFINITION. The vocabulary of claims about RBSC: the true readable and free bytes, a faulted run, the successful end
of a run, the invariants of 10_state.md section 5, and infinite runs with weak fairness. -/

namespace Sys2Proof.Machine

/-- The readable bytes on the true cursors, `dist(RPTR, WPTR)` (10_state.md R34). -/
def State.readable (s : State) : Nat := cursorDist s.cap s.rptr s.wptr

/-- The free bytes on the true cursors, `CAP - dist(RPTR, WPTR)` (10_state.md R34). -/
def State.free (s : State) : Nat := s.cap - s.readable

/-- The run is faulted: some STATUS bit [12:8] is set (60_exceptions.md R196). -/
def Faulted (s : State) : Prop := statusHasError s.status = true

/-- A run has ended successfully: nothing in flight, every issued command has its response, nothing more to issue, no
error bit (70_reset_and_hazards.md R221). A command that reset or the fatal transition abandoned never gets its response
(R210, 43_lifecycle.md R170), so such a run never ends well; each port answers in issue order (30_encoding.md R82), so
counting suffices (log 24). -/
structure EndedWell (s : State) : Prop where
  idleP : s.pSeq = none
  idleC : s.cSeq = none
  answeredH : s.hResp.length = s.hIssued
  answeredP : s.pResp.length = s.pIssued
  answeredC : s.cResp.length = s.cIssued
  noneH : s.hCmds = []
  noneP : s.pCmds = []
  noneC : s.cCmds = []
  clean : statusHasError s.status = false

/-- The parameters are legal (00_scope.md R8). -/
structure ParamsLegal (s : State) : Prop where
  cap : Config.CapLegal s.cap
  rate : Config.RateLegal s.rate

/-- The cursors and views: legal parameters, values modulo 2*CAP, the order RVIEW <= RPTR <= WVIEW <= WPTR <= RVIEW + CAP
in the modular registers (10_state.md R33), and both cursors on whole frames (R35, 20_memory.md R52). It holds whatever
amounts the link draws. -/
structure CursorsInOrder (s : State) : Prop where
  params : ParamsLegal s
  wptr : s.wptr < 2 * s.cap ∧ s.wptr % 4 = 0
  rptr : s.rptr < 2 * s.cap ∧ s.rptr % 4 = 0
  wview : s.wview < 2 * s.cap
  rview : s.rview < 2 * s.cap
  order : cursorDist s.cap s.rview s.rptr + cursorDist s.cap s.rptr s.wview + cursorDist s.cap s.wview s.wptr
    = cursorDist s.cap s.rview s.wptr
  room : cursorDist s.cap s.rview s.wptr ≤ s.cap

/-- The cursors in order, and the views on whole frames as the cursors are (10_state.md R33, R35; log 7). -/
structure CursorsOrdered (s : State) : Prop extends CursorsInOrder s where
  wholeWview : s.wview % 4 = 0
  wholeRview : s.rview % 4 = 0

/-- A link draw of whole frames; every other choice has no draw (10_state.md R35; log 7). -/
def wholeDraw (c : Choice) : Prop :=
  match c with
  | .syncW d | .syncR d => d % 4 = 0
  | .agentH | .agentP | .agentC | .reset => True

/-- The link draws to come are whole frames. What R35 says of the two views rests on it (10_state.md R35; log 7). -/
def WholeDraws (s : State) : Prop := ∀ c ∈ s.sched, wholeDraw c

/-- MEM is in canonical form and lists only offsets below CAP (10_state.md R25, 20_memory.md R62). -/
structure MemFormed (s : State) : Prop where
  wf : memWf s.mem = true
  inRange : ∀ cell ∈ s.mem, cell.1 < s.cap

/-- Every readable byte was written by a producer step since MEM last became unspecified (10_state.md R36). -/
def ReadableWritten (s : State) : Prop :=
  ∀ j < s.readable, (memLookup s.mem ((s.rptr + j) % s.cap)).isSome = true

/-- A running P.PLAY owes exactly its remaining beats, in a state that still has a buffer (10_state.md R31, 42_feeder.md
R150, R151, 60_exceptions.md R193). -/
structure PlayFormed (s : State) (q : PlaySeq) : Prop where
  owes : 0 < q.rem
  beats : q.rem = 4 * q.pay.length
  bound : q.rem ≤ 4 * q.count
  operand : q.count < 2 ^ 26
  buffer : s.status.lstate = .ready ∨ s.status.lstate = .active

/-- A running C.RENDER counts frames consistently, in a state that still has a buffer (10_state.md R31,
41_render_convert.md R143). -/
structure RenderFormed (s : State) (q : RenderSeq) : Prop where
  frames : q.o + q.left = q.n
  taken : q.k = q.o
  operand : q.n < 2 ^ 26
  buffer : s.status.lstate = .ready ∨ s.status.lstate = .active

/-- Both sequencers are consistent where they are busy, and FATAL implies E_RATE (10_state.md R31, 60_exceptions.md
R196). -/
structure SequencersFormed (s : State) : Prop where
  play : ∀ q, s.pSeq = some q → PlayFormed s q
  render : ∀ q, s.cSeq = some q → RenderFormed s q
  fatalRate : s.status.lstate = .fatal → s.status.eRate = true

/-- The invariant of RBSC, whatever the schedule, its link draws and the commands. -/
structure Inv (s : State) : Prop where
  cursors : CursorsInOrder s
  mem : MemFormed s
  written : ReadableWritten s
  sequencers : SequencersFormed s

/-- The frames a running C.RENDER still owes its output stream; 0 when none runs (41_render_convert.md R143). -/
def State.framesOwed (s : State) : Nat :=
  match s.cSeq with
  | none => 0
  | some q => q.left

/-- A bound on the steps of agent C that a running C.RENDER still takes (41_render_convert.md R144). -/
def State.renderStepsLeft (s : State) : Nat :=
  match s.cSeq with
  | none => 0
  | some q =>
    match q.phase with
    | .chunk => q.left + 2
    | .fill => 1

/-- The schedule entry of a port's agent. -/
def agentOf (port : Port) : Choice :=
  match port with
  | .host => .agentH
  | .producer => .agentP
  | .consumer => .agentC

/-- How many commands have been issued on a port (log 24). -/
def State.issued (s : State) (port : Port) : Nat :=
  match port with
  | .host => s.hIssued
  | .producer => s.pIssued
  | .consumer => s.cIssued

/-- No multi-step command runs on the port (30_encoding.md R82); H has none. -/
def State.idle (s : State) (port : Port) : Bool :=
  match port with
  | .host => true
  | .producer => !s.pBusy
  | .consumer => !s.cBusy

/-! ## Infinite runs and weak fairness -/

/-- Between two steps the issuers may add commands behind those still to come (70_reset_and_hazards.md R222). -/
def IssuersAdd (s s' : State) : Prop :=
  ∃ h p c : List Command, s' = { s with hCmds := s.hCmds ++ h, pCmds := s.pCmds ++ p, cCmds := s.cCmds ++ c }

/-- An infinite run: the n-th step is the one `choice n` names, after the issuers added what they add (20_memory.md R59,
60_exceptions.md R195). -/
def IsRun (run : Nat → State) (choice : Nat → Choice) : Prop :=
  ∀ n, ∃ s', IssuersAdd (run n) s' ∧ step { s' with sched := [choice n] } = .next (run (n + 1))

/-- The steps weak fairness speaks of: a C.RENDER chunk or fill step, a P.PLAY write step and the two link steps, which
70_reset_and_hazards.md R219 lists, and the issue of a command, which its "every agent step" takes in (log 3). -/
inductive FairStep where
  | issue (port : Port)
  | render
  | playWrite
  | syncW
  | syncR
  deriving DecidableEq, Repr

/-- When a step is enabled (30_encoding.md R82, 41_render_convert.md R140, R141, 42_feeder.md R151, 20_memory.md R55). -/
def FairStep.Enabled (f : FairStep) (s : State) : Prop :=
  match f with
  | .issue port => s.idle port = true ∧ s.cmds port ≠ []
  | .render => s.cSeq ≠ none
  | .playWrite => ∃ q, s.pSeq = some q ∧ 0 < s.acceptedBytes q.rem
  | .syncW => 0 < cursorDist s.cap s.wview s.wptr
  | .syncR => 0 < cursorDist s.cap s.rview s.rptr

/-- That a choice takes an enabled step, in the state it is made in. -/
def FairStep.Taken (f : FairStep) (s : State) (c : Choice) : Prop :=
  match f with
  | .issue port => c = agentOf port
  | .render => c = .agentC
  | .playWrite => c = .agentP
  | .syncW => ∃ d, c = .syncW d ∧ linkEnabled d (cursorDist s.cap s.wview s.wptr) = true
  | .syncR => ∃ d, c = .syncR d ∧ linkEnabled d (cursorDist s.cap s.rview s.rptr) = true

/-- Weak fairness of every agent: a step that stays enabled is eventually taken (20_memory.md R55, 70_reset_and_hazards.md
R219). No bound is given on the steps between. -/
def WeaklyFair (run : Nat → State) (choice : Nat → Choice) : Prop :=
  ∀ (f : FairStep) (n : Nat), (∀ m, n ≤ m → f.Enabled (run m)) → ∃ m, n ≤ m ∧ f.Taken (run m) (choice m)

/-! ## Vocabulary of single claims -/

/-- The exact value of a finite binary32 pattern (IEEE 754; 41_render_convert.md R135). -/
def f32Value (w : Word) : ℚ :=
  (if f32Sign w then -1 else 1) * (f32Mant w : ℚ) * 2 ^ f32Scale w / 2 ^ 149

/-- A finite pattern: neither an infinity nor a NaN. -/
def f32Finite (w : Word) : Prop := f32Exp w < 255

/-- The state after E is raised on a port, spelled out (60_exceptions.md R192): the bit, the discarded payload and the
response (code(E), 0). -/
def AfterError (s : State) (e : ErrClass) (port : Port) (t : State) : Prop :=
  t = { s with
    status := statusWithError e s.status
    hIn := if port = .host then [] else s.hIn
    pIn := if port = .producer then [] else s.pIn
    cIn := if port = .consumer then [] else s.cIn
    hResp := if port = .host then s.hResp ++ [⟨errCode e, [0#32]⟩] else s.hResp
    pResp := if port = .producer then s.pResp ++ [⟨errCode e, [0#32]⟩] else s.pResp
    cResp := if port = .consumer then s.cResp ++ [⟨errCode e, [0#32]⟩] else s.cResp }

/-- Command `i` in state `s` raises E and has no other effect (60_exceptions.md R192). -/
def Raises (i : Instr) (s : State) (e : ErrClass) : Prop :=
  ∃ t, exec i s = .next t ∧ AfterError s e i.port t

/-- The checks common to all commands (60_exceptions.md R193, R194): a payload that is not `beats` long is illegal in
every state, and with the right payload a lifecycle state outside `states` raises E_STATE. -/
def CommonChecks (i : Instr) (beats : Nat) (states : List LState) : Prop :=
  ∀ s : State,
    ((s.dataIn i.port).length ≠ beats → Raises i s .illegal) ∧
    ((s.dataIn i.port).length = beats → s.status.lstate ∉ states → Raises i s .state)

end Sys2Proof.Machine
end

