-- ==== Sys2Proof/Certificates/Slice0/Obligations.lean ====
section
/-! DEFINITION. The statements for the provers, from the numbered rules of spec/. Each docstring names the rule. -/

open Sys2Proof Sys2Proof.Machine

/-! ## Reset -/

/-- The state right after reset holds the values of 10_state.md R41 (the parameters' values are the model's, log 1). -/
def Obligations.ResetValues : Prop :=
  State.reset.statusWord = 0#32 ∧ State.reset.status.lstate = .uninit ∧
  State.reset.wptr = 0 ∧ State.reset.rptr = 0 ∧ State.reset.wview = 0 ∧ State.reset.rview = 0 ∧
  State.reset.volume = 0x3F800000#32 ∧ State.reset.dropped = 0#32 ∧
  State.reset.pSeq = none ∧ State.reset.cSeq = none ∧
  (∀ a, memByte State.reset a = Config.memDraw State.reset.memGen a) ∧
  ParamsLegal State.reset

/-- The reset event (70_reset_and_hazards.md R210), between any two steps of any state. -/
def Obligations.ResetEventClears : Prop :=
  ∀ (s : State) (rest : List Choice), s.sched = .reset :: rest →
    ∃ t, step s = .next t ∧
      t.status.lstate = .uninit ∧ t.statusWord = 0#32 ∧
      t.wptr = 0 ∧ t.rptr = 0 ∧ t.wview = 0 ∧ t.rview = 0 ∧
      t.volume = 0x3F800000#32 ∧ t.dropped = 0#32 ∧
      (∀ a, memByte t a = Config.memDraw t.memGen a) ∧
      t.pSeq = none ∧ t.cSeq = none ∧
      t.hIn = [] ∧ t.pIn = [] ∧ t.cIn = [] ∧
      t.hResp = s.hResp ∧ t.pResp = s.pResp ∧ t.cResp = s.cResp ∧
      t.out = s.out ∧ t.cap = s.cap ∧ t.rate = s.rate

/-! ## Encoding -/

/-- Decoding an encoded well-formed command on its own port gives it back, with every operand at every value
(30_encoding.md R70 to R73). -/
def Obligations.DecodeOfEncode : Prop :=
  ∀ i : Instr, i.wellFormed = true → decode i.port (encode i) = .ok i

/-- The rows of spec/opcode_table.json: port, mask, match. -/
def Sys2Proof.opcodeRows : List (Port × Word × Word) :=
  [(.host, 0xFFFFFFFF#32, 0x04000000#32), (.host, 0xFFFFFFFF#32, 0x08000000#32),
   (.host, 0xFFFFFFFF#32, 0x0C000000#32), (.host, 0xFC000000#32, 0x10000000#32),
   (.host, 0xFFFFFFFF#32, 0x14000000#32), (.host, 0xFFFFFFFF#32, 0x18000000#32),
   (.host, 0xFFFFFFFF#32, 0x1C000000#32), (.host, 0xFFFFFFF8#32, 0x20000000#32),
   (.host, 0xFFFF0000#32, 0x24000000#32)] ++
  [(.producer, 0xFC000000#32, 0x44000000#32), (.producer, 0xFC000000#32, 0x48000000#32),
   (.producer, 0xFFFFFFFF#32, 0x4C000000#32), (.producer, 0xFFFFFFFF#32, 0x50000000#32)] ++
  [(.consumer, 0xFFFFFFFF#32, 0x84000000#32), (.consumer, 0xFFFFFFFF#32, 0x88000000#32),
   (.consumer, 0xFC000000#32, 0x8C000000#32), (.consumer, 0xFC000000#32, 0x90000000#32),
   (.consumer, 0xFC000000#32, 0x94000000#32)]

/-- A word is legal on a port exactly when it matches a row of that port and is not H.READ_REG with index 7; a legal word
means one command only, which is well formed, of the port it was issued on, and encodes to that word (30_encoding.md R70 to
R75). -/
def Obligations.LegalWordsAreTableRows : Prop :=
  (∀ (port : Port) (w : Word), (∃ i, decode port w = .ok i) ↔
    (w ≠ 0x20000007#32 ∧ ∃ row ∈ Sys2Proof.opcodeRows, row.1 = port ∧ w &&& row.2.1 = row.2.2)) ∧
  ∀ (port : Port) (w : Word) (i : Instr), decode port w = .ok i →
    i.wellFormed = true ∧ i.port = port ∧ encode i = w

/-- Words written out from the encodings of 30_encoding.md R70 to R74 decode to what they stand for (a sanity
statement). -/
def Obligations.DecodeVectors : Prop :=
  decode .host 0x1000AC44#32 = .ok (.hStart 44100#26) ∧
  decode .host 0x24008000#32 = .ok (.hConvert 0x8000#16) ∧
  decode .host 0x20000005#32 = .ok (.hReadReg 5#3) ∧
  decode .producer 0x4400000C#32 = .ok (.pWrite 12#26) ∧
  decode .producer 0x48000003#32 = .ok (.pPlay 3#26) ∧
  decode .consumer 0x94000004#32 = .ok (.cRender 4#26) ∧
  decode .consumer 0x8C000010#32 = .ok (.cAdvance 16#26) ∧
  decode .host 0x20000007#32 = .error .regIndex ∧
  decode .host 0x04000001#32 = .error .operandBits ∧
  decode .producer 0x54000000#32 = .error .funcReserved ∧
  decode .producer 0x84000000#32 = .error .wrongPort ∧
  decode .consumer 0xC4000000#32 = .error .portReserved

/-! ## Stepping -/

/-- When an idle port's agent steps and the next word of its issuer decodes to a command, the step is that command's
meaning, in the state where the command has been taken from the queue and counted, the view has moved at a sequential
issue and the payload has been delivered (00_scope.md R4, 20_memory.md R57, R59, 30_encoding.md R77). -/
def Obligations.StepRunsDecodedCommand : Prop :=
  ∀ (s : State) (port : Port) (rest : List Choice) (cmd : Command) (q : List Command) (i : Instr),
    s.sched = agentOf port :: rest → s.idle port = true → s.cmds port = cmd :: q →
    decode port cmd.word = .ok i →
    step s = exec i
      ((((({ s with sched := rest }).setCmds port q).countIssued port).issueView port cmd.seen).deliver port cmd.payload)

/-- An illegal word raises E_ILLEGAL on the port it was issued on, and does nothing else (30_encoding.md R74 (a) to (d),
R75, 60_exceptions.md R192; that a sequential issue's view move stands is the model's reading, log 6). -/
def Obligations.IllegalWordRaises : Prop :=
  ∀ (s : State) (port : Port) (rest : List Choice) (cmd : Command) (q : List Command) (e : IllegalWord),
    s.sched = agentOf port :: rest → s.idle port = true → s.cmds port = cmd :: q →
    decode port cmd.word = .error e →
    ∃ t, step s = .next t ∧
      AfterError
        ((((({ s with sched := rest }).setCmds port q).countIssued port).issueView port cmd.seen).deliver port cmd.payload)
        .illegal port t

/-- At an issue, the consumer's view becomes WPTR exactly at a sequential issue on C, the producer's view becomes RPTR
exactly at a sequential issue on P, and no other issue moves a view (20_memory.md R57). -/
def Obligations.IssueMovesView : Prop :=
  ∀ (s t : State) (port : Port) (w : Word), acceptCommand port s = some (w, t) →
    ∃ cmd q, s.cmds port = cmd :: q ∧ w = cmd.word ∧ t.dataIn port = cmd.payload ∧ t.cmds port = q ∧
      t.wview = (if port = .consumer ∧ cmd.seen = true ∧ s.pSeq = none then s.wptr else s.wview) ∧
      t.rview = (if port = .producer ∧ cmd.seen = true ∧ s.cSeq = none then s.rptr else s.rview) ∧
      t.wptr = s.wptr ∧ t.rptr = s.rptr ∧ t.mem = s.mem

/-- With nothing scheduled, or a scheduled idle port that has no command, the machine waits: nothing of RBSC changes
(70_reset_and_hazards.md R211; the schedule is the model's, log 2). A port that runs a multi-step command accepts no new
command (30_encoding.md R82). -/
def Obligations.PortsWaitOrRunOneCommand : Prop :=
  (∀ s : State, s.sched = [] → step s = .next s) ∧
  (∀ (s : State) (port : Port) (rest : List Choice),
    s.sched = agentOf port :: rest → s.idle port = true → s.cmds port = [] → step s = .next { s with sched := rest }) ∧
  (∀ (s t : State) (port : Port) (rest : List Choice),
    s.sched = agentOf port :: rest → s.idle port = false → step s = .next t →
    t.hCmds = s.hCmds ∧ t.pCmds = s.pCmds ∧ t.cCmds = s.cCmds ∧
    t.hIssued = s.hIssued ∧ t.pIssued = s.pIssued ∧ t.cIssued = s.cIssued)

/-- Every issued command has exactly one response on its port, when it ends (30_encoding.md R78): a step counts an issue on a
port exactly when it gives the response or leaves the command running, and ends a running command exactly when it gives its
response; only reset and the fatal transition abandon a command without one. The count is the model's record (log 24). -/
def Obligations.CommandsAnsweredOnce : Prop :=
  ∀ (s t : State) (c : Choice) (rest : List Choice), s.sched = c :: rest → c ≠ .reset → step s = .next t →
    t.hResp.length + s.hIssued = s.hResp.length + t.hIssued ∧
    (t.status.lstate ≠ .fatal ∨ s.status.lstate = .fatal →
      t.pResp.length + t.pBusy.toNat + s.pIssued = s.pResp.length + s.pBusy.toNat + t.pIssued ∧
      t.cResp.length + t.cBusy.toNat + s.cIssued = s.cResp.length + s.cBusy.toNat + t.cIssued)

/-! ## Port H -/

/-- H.INIT (43_lifecycle.md R161). -/
def Obligations.HInitRule : Prop :=
  encode .hInit = 0x04000000#32 ∧ CommonChecks .hInit 0 [.uninit] ∧
  ∀ s : State, s.hIn = [] → s.status.lstate = .uninit →
    ∃ t, exec .hInit s = .next t ∧
      (∀ a, memByte t a = Config.memDraw t.memGen a) ∧
      t = { s with
        wptr := 0, rptr := 0, wview := 0, rview := 0, dropped := 0#32, mem := t.mem, memGen := t.memGen
        status := { s.status with overrun := false, started := false, lstate := .ready }
        hResp := s.hResp ++ [⟨.ok, [0#32]⟩] }

/-- H.ACTIVATE (43_lifecycle.md R162). -/
def Obligations.HActivateRule : Prop :=
  encode .hActivate = 0x08000000#32 ∧ CommonChecks .hActivate 0 [.ready] ∧
  ∀ s : State, s.hIn = [] → s.status.lstate = .ready →
    exec .hActivate s = .next
      { s with status := { s.status with lstate := .active }, hResp := s.hResp ++ [⟨.ok, [0#32]⟩] }

/-- H.DEACTIVATE (43_lifecycle.md R163): a render in progress is not cancelled and its steps are the same in every LSTATE;
in READY every consumer command raises E_STATE. -/
def Obligations.HDeactivateRule : Prop :=
  encode .hDeactivate = 0x0C000000#32 ∧ CommonChecks .hDeactivate 0 [.active] ∧
  (∀ s : State, s.hIn = [] → s.status.lstate = .active →
    exec .hDeactivate s = .next
      { s with status := { s.status with lstate := .ready }, hResp := s.hResp ++ [⟨.ok, [0#32]⟩] }) ∧
  (∀ (s : State) (l : LState) (q : RenderSeq), renderStep q (s.setLState l) = (renderStep q s).setLState l) ∧
  ∀ (i : Instr) (s : State), i.port = .consumer → s.status.lstate = .ready → s.cIn = [] → Raises i s .state

/-- H.START (43_lifecycle.md R164, with the fatal transition of R170 spelled out). -/
def Obligations.HStartRule : Prop :=
  (∀ rate, encode (.hStart rate) = 0x10000000#32 ||| rate.setWidth 32) ∧
  (∀ rate, CommonChecks (.hStart rate) 0 [.ready, .active]) ∧
  ∀ (s : State) (rate : BitVec 26), s.hIn = [] → s.status.lstate ∈ [LState.ready, LState.active] →
    exec (.hStart rate) s = .next
      (if rate.toNat = s.rate then
        { s with status := { s.status with started := true }, hResp := s.hResp ++ [⟨.ok, [0#32]⟩] }
      else
        { s with
          status := { s.status with lstate := .fatal, eRate := true }
          pSeq := none, cSeq := none
          hResp := s.hResp ++ [⟨.eRate, [0#32]⟩] })

/-- H.STOP does nothing but respond (43_lifecycle.md R165). -/
def Obligations.HStopRule : Prop :=
  encode .hStop = 0x14000000#32 ∧ CommonChecks .hStop 0 [.ready, .active] ∧
  ∀ s : State, s.hIn = [] → s.status.lstate ∈ [LState.ready, LState.active] →
    exec .hStop s = .next { s with hResp := s.hResp ++ [⟨.ok, [0#32]⟩] }

/-- H.DEINIT (43_lifecycle.md R166). -/
def Obligations.HDeinitRule : Prop :=
  encode .hDeinit = 0x18000000#32 ∧ CommonChecks .hDeinit 0 [.ready] ∧
  (∀ s : State, s.hIn = [] → (s.pSeq ≠ none ∨ s.cSeq ≠ none) → Raises .hDeinit s .state) ∧
  ∀ s : State, s.hIn = [] → s.status.lstate = .ready → s.pSeq = none → s.cSeq = none →
    ∃ t, exec .hDeinit s = .next t ∧
      (∀ a, memByte t a = Config.memDraw t.memGen a) ∧
      t = { s with
        wptr := 0, rptr := 0, wview := 0, rview := 0, mem := t.mem, memGen := t.memGen
        status := { s.status with started := false, lstate := .closed }
        hResp := s.hResp ++ [⟨.ok, [0#32]⟩] }

/-- H.SET_VOLUME accepts every pattern (43_lifecycle.md R167). -/
def Obligations.HSetVolumeRule : Prop :=
  encode .hSetVolume = 0x1C000000#32 ∧
  CommonChecks .hSetVolume 1 [.uninit, .ready, .active, .closed] ∧
  ∀ (s : State) (v : Word), s.hIn = [v] → s.status.lstate ≠ .fatal →
    exec .hSetVolume s = .next { s with volume := v, hIn := [], hResp := s.hResp ++ [⟨.ok, [0#32]⟩] }

/-- H.READ_REG returns the register of the index map and changes nothing, in every lifecycle state (43_lifecycle.md R168,
10_state.md R39, 20_memory.md R58). That the term with index 7, which no legal word decodes to, raises E_ILLEGAL is the
model's choice (log 19). -/
def Obligations.HReadRegRule : Prop :=
  (∀ idx, encode (.hReadReg idx) = 0x20000000#32 ||| idx.setWidth 32) ∧
  (∀ idx, CommonChecks (.hReadReg idx) 0 [.uninit, .ready, .active, .closed, .fatal]) ∧
  decode .host 0x20000007#32 = .error .regIndex ∧
  (∀ s : State, s.hIn = [] → Raises (.hReadReg 7#3) s .illegal) ∧
  ∀ s : State, s.hIn = [] →
    ∀ r ∈ [(0#3, s.statusWord), (1#3, BitVec.ofNat 32 s.wptr), (2#3, BitVec.ofNat 32 s.rptr),
        (3#3, BitVec.ofNat 32 s.cap), (4#3, s.volume), (5#3, s.dropped), (6#3, BitVec.ofNat 32 s.rate)],
      exec (.hReadReg r.1) s = .next { s with hResp := s.hResp ++ [⟨.ok, [r.2]⟩] }

/-- H.CONVERT returns conv of its sample and VOLUME, with some draw for a NaN result, and changes no state of the spec
(41_render_convert.md R147); only the model's own counter of draws may move. -/
def Obligations.HConvertRule : Prop :=
  (∀ smp, encode (.hConvert smp) = 0x24000000#32 ||| smp.setWidth 32) ∧
  (∀ smp, CommonChecks (.hConvert smp) 0 [.uninit, .ready, .active, .closed]) ∧
  (∀ (s : State) (smp : BitVec 16), s.hIn = [] → s.status.lstate ≠ .fatal →
    ∃ t d, exec (.hConvert smp) s = .next t ∧
      t = { s with nanDraws := t.nanDraws, hResp := s.hResp ++ [⟨.ok, [conv smp s.volume d]⟩] }) ∧
  (∀ d, conv 0x8000#16 0x3F800000#32 d = 0xBF800000#32) ∧
  (∀ d, conv 0x0000#16 0xBF800000#32 d = 0x80000000#32) ∧
  (∀ smp vol d, f32IsNaN vol = true → conv smp vol d = quietNaN d)

/-! ## Port P -/

/-- P.WRITE (40_ring_buffer.md R101): the accepted prefix k, the bytes it stores and where, every other byte and the rest of
the state, and the report of what was dropped. R101 has k <- min(n, f); k is that cut to whole frames (90_conflicts.md C7).
The cut changes nothing where the view is on a whole frame; at an off-frame view it is the model's choice (log 7). -/
def Obligations.PWriteRule : Prop :=
  (∀ n, encode (.pWrite n) = 0x44000000#32 ||| n.setWidth 32) ∧
  (∀ n : BitVec 26, CommonChecks (.pWrite n) ((n.toNat + 3) / 4) [.ready, .active]) ∧
  (∀ (s : State) (n : BitVec 26), s.pIn.length = (n.toNat + 3) / 4 → s.status.lstate ∈ [LState.ready, LState.active] →
    n.toNat % 4 ≠ 0 → Raises (.pWrite n) s .frame) ∧
  ∀ (s : State) (n : BitVec 26) (k : Nat), s.pIn.length = (n.toNat + 3) / 4 →
    s.status.lstate ∈ [LState.ready, LState.active] → n.toNat % 4 = 0 →
    k = 4 * (min n.toNat (s.cap - cursorDist s.cap s.rview s.wptr) / 4) →
    k % 4 = 0 ∧ (CursorsOrdered s → k = min n.toNat (s.cap - cursorDist s.cap s.rview s.wptr)) ∧
    ∃ t, exec (.pWrite n) s = .next t ∧
      (∀ i < k / 4, ∀ j < 4, ∀ beat, s.pIn[i]? = some beat →
        memByte t ((s.wptr + 4 * i + j) % s.cap) = beat.extractLsb' (8 * j) 8) ∧
      (∀ a, (∀ j < k, a ≠ (s.wptr + j) % s.cap) → memByte t a = memByte s a) ∧
      t = { s with
        mem := t.mem
        wptr := (s.wptr + k) % (2 * s.cap)
        dropped := if k < n.toNat then
            BitVec.ofNat 32 (min (s.dropped.toNat + (n.toNat - k)) (2 ^ 32 - 1)) else s.dropped
        status := { s.status with overrun := if k < n.toNat then true else s.status.overrun }
        pIn := []
        pResp := s.pResp ++ [⟨if k < n.toNat then .short else .ok, [BitVec.ofNat 32 k]⟩] }

/-- P.PLAY, the start step (42_feeder.md R150). -/
def Obligations.PPlayStartRule : Prop :=
  (∀ count, encode (.pPlay count) = 0x48000000#32 ||| count.setWidth 32) ∧
  (∀ count : BitVec 26, CommonChecks (.pPlay count) count.toNat [.ready, .active]) ∧
  ∀ (s : State) (count : BitVec 26), s.pIn.length = count.toNat → s.status.lstate ∈ [LState.ready, LState.active] →
    exec (.pPlay count) s = .next
      (if count.toNat = 0 then { s with pIn := [], pResp := s.pResp ++ [⟨.ok, [0#32]⟩] }
      else
        { s with pIn := [], pSeq := some { rem := 4 * count.toNat, pay := s.pIn, count := count.toNat } })

/-- P.FREE_SPACE (40_ring_buffer.md R102): the value is CAP on an empty buffer with a current view, 0 on a full one, and
never more than the true free bytes, and less than them while RVIEW lags RPTR. -/
def Obligations.PFreeSpaceRule : Prop :=
  encode .pFreeSpace = 0x4C000000#32 ∧ CommonChecks .pFreeSpace 0 [.ready, .active] ∧
  (∀ s : State, s.pIn = [] → s.status.lstate ∈ [LState.ready, LState.active] →
    exec .pFreeSpace s = .next
      { s with pResp := s.pResp ++ [⟨.ok, [BitVec.ofNat 32 (s.cap - cursorDist s.cap s.rview s.wptr)]⟩] }) ∧
  ∀ s : State, CursorsInOrder s →
    s.cap - cursorDist s.cap s.rview s.wptr ≤ s.free ∧
    (s.rview ≠ s.rptr → s.cap - cursorDist s.cap s.rview s.wptr < s.free) ∧
    (s.rview = s.rptr → s.readable = 0 → s.cap - cursorDist s.cap s.rview s.wptr = s.cap) ∧
    (s.readable = s.cap → s.cap - cursorDist s.cap s.rview s.wptr = 0)

/-- P.WSPAN: the writable region as two ranges from the write offset on, the second from offset 0 (40_ring_buffer.md R100,
R103). -/
def Obligations.PWspanRule : Prop :=
  encode .pWspan = 0x50000000#32 ∧ CommonChecks .pWspan 0 [.ready, .active] ∧
  ∀ (s : State) (f o l : Nat), s.pIn = [] → s.status.lstate ∈ [LState.ready, LState.active] →
    f = s.cap - cursorDist s.cap s.rview s.wptr → o = s.wptr % s.cap → l = min f (s.cap - o) →
    l + (f - l) = f ∧
    exec .pWspan s = .next
      { s with pResp := s.pResp ++
          [⟨.ok, [BitVec.ofNat 32 o, BitVec.ofNat 32 l, 0#32, BitVec.ofNat 32 (f - l)]⟩] }

/-! ## Port C -/

/-- C.READ_AVAILABLE (40_ring_buffer.md R104): the value is 0 on an empty buffer, CAP on a full one with a current view,
never more than the true readable bytes, and less than them while WVIEW lags WPTR. R104 says it is a multiple of 4; that this
is claimed only where the views are on whole frames is the model's reading (log 7). -/
def Obligations.CReadAvailableRule : Prop :=
  encode .cReadAvailable = 0x84000000#32 ∧ CommonChecks .cReadAvailable 0 [.active] ∧
  (∀ s : State, s.cIn = [] → s.status.lstate = .active →
    exec .cReadAvailable s = .next
      { s with cResp := s.cResp ++ [⟨.ok, [BitVec.ofNat 32 (cursorDist s.cap s.rptr s.wview)]⟩] }) ∧
  ∀ s : State, CursorsInOrder s →
    cursorDist s.cap s.rptr s.wview ≤ s.readable ∧
    (CursorsOrdered s → cursorDist s.cap s.rptr s.wview % 4 = 0) ∧
    (s.wview ≠ s.wptr → cursorDist s.cap s.rptr s.wview < s.readable) ∧
    (s.readable = 0 → cursorDist s.cap s.rptr s.wview = 0) ∧
    (s.wview = s.wptr → s.readable = s.cap → cursorDist s.cap s.rptr s.wview = s.cap)

/-- C.PEEK: the readable region as two ranges from the read offset on, the second from offset 0 (40_ring_buffer.md R100,
R105). R105 says that both lengths are multiples of 4; that this is claimed only where the views are on whole frames is the
model's reading (log 7). -/
def Obligations.CPeekRule : Prop :=
  encode .cPeek = 0x88000000#32 ∧ CommonChecks .cPeek 0 [.active] ∧
  ∀ (s : State) (a o l : Nat), s.cIn = [] → s.status.lstate = .active →
    a = cursorDist s.cap s.rptr s.wview → o = s.rptr % s.cap → l = min a (s.cap - o) →
    l + (a - l) = a ∧ (CursorsOrdered s → l % 4 = 0 ∧ (a - l) % 4 = 0) ∧
    exec .cPeek s = .next
      { s with cResp := s.cResp ++
          [⟨.ok, [BitVec.ofNat 32 o, BitVec.ofNat 32 l, 0#32, BitVec.ofNat 32 (a - l)]⟩] }

/-- C.ADVANCE (40_ring_buffer.md R106): E_FRAME before E_RANGE, the bound is the consumer's view. -/
def Obligations.CAdvanceRule : Prop :=
  (∀ n, encode (.cAdvance n) = 0x8C000000#32 ||| n.setWidth 32) ∧
  (∀ n, CommonChecks (.cAdvance n) 0 [.active]) ∧
  ∀ (s : State) (n : BitVec 26), s.cIn = [] → s.status.lstate = .active →
    (n.toNat % 4 ≠ 0 → Raises (.cAdvance n) s .frame) ∧
    (n.toNat % 4 = 0 → cursorDist s.cap s.rptr s.wview < n.toNat → Raises (.cAdvance n) s .range) ∧
    (n.toNat % 4 = 0 → n.toNat ≤ cursorDist s.cap s.rptr s.wview →
      exec (.cAdvance n) s = .next
        { s with rptr := (s.rptr + n.toNat) % (2 * s.cap), cResp := s.cResp ++ [⟨.ok, [0#32]⟩] })

/-- C.LOADF (40_ring_buffer.md R107): E_FRAME, then E_RANGE outside MEM or the readable region, else the frame's four
bytes, little-endian. -/
def Obligations.CLoadfRule : Prop :=
  (∀ off, encode (.cLoadf off) = 0x90000000#32 ||| off.setWidth 32) ∧
  (∀ off, CommonChecks (.cLoadf off) 0 [.active]) ∧
  ∀ (s : State) (off : BitVec 26) (rel : Nat), s.cIn = [] → s.status.lstate = .active →
    (rel : Int) = ((off.toNat : Int) - (s.rptr % s.cap : Nat)) % s.cap →
    (off.toNat % 4 ≠ 0 → Raises (.cLoadf off) s .frame) ∧
    (off.toNat % 4 = 0 → s.cap ≤ off.toNat → Raises (.cLoadf off) s .range) ∧
    (off.toNat % 4 = 0 → off.toNat < s.cap → cursorDist s.cap s.rptr s.wview < rel + 4 →
      Raises (.cLoadf off) s .range) ∧
    (off.toNat % 4 = 0 → off.toNat < s.cap → rel + 4 ≤ cursorDist s.cap s.rptr s.wview →
      ∃ v : Word, (∀ j < 4, v.extractLsb' (8 * j) 8 = memByte s ((off.toNat + j) % s.cap)) ∧
        exec (.cLoadf off) s = .next { s with cResp := s.cResp ++ [⟨.ok, [v]⟩] })

/-- C.RENDER, the start step (41_render_convert.md R139): the early exit on an empty buffer, else the sequencer with the
latched volume. -/
def Obligations.CRenderStartRule : Prop :=
  (∀ n, encode (.cRender n) = 0x94000000#32 ||| n.setWidth 32) ∧
  (∀ n, CommonChecks (.cRender n) 0 [.active]) ∧
  ∀ (s : State) (n : BitVec 26), s.cIn = [] → s.status.lstate = .active →
    exec (.cRender n) s = .next
      (if cursorDist s.cap s.rptr s.wview = 0 then
        { s with
          out := s.out ++ List.replicate n.toNat ⟨0x00000000#32, 0x00000000#32⟩
          cResp := s.cResp ++ [⟨.ok, [0#32]⟩] }
      else
        { s with
          cSeq := some { phase := .chunk, n := n.toNat, left := n.toNat, o := 0, k := 0, vol := s.volume } })

/-! ## Steps of the running commands and of the link -/

/-- P.PLAY, the write step (42_feeder.md R151): with a whole frame free in view it writes what fits, at least one frame
(R154), publishes once, and responds when nothing is left. OVERRUN and DROPPED are never written. R151 has
k <- min(p_rem, f) and is enabled at any free byte; the cut of k to whole frames (90_conflicts.md C7) and the bound of 4 free
bytes differ from it only at an off-frame view, where they are the model's choice (log 7). -/
def Obligations.PlayWriteStepRule : Prop :=
  ∀ (s : State) (q : PlaySeq) (rest : List Choice) (k : Nat),
    s.sched = .agentP :: rest → s.pSeq = some q → q.rem = 4 * q.pay.length → 0 < q.rem →
    4 ≤ s.cap - cursorDist s.cap s.rview s.wptr → k = 4 * (min q.rem (s.cap - cursorDist s.cap s.rview s.wptr) / 4) →
    4 ≤ k ∧ (CursorsOrdered s → k = min q.rem (s.cap - cursorDist s.cap s.rview s.wptr)) ∧
    ∃ t, step s = .next t ∧
      (∀ i < k / 4, ∀ j < 4, ∀ beat, q.pay[i]? = some beat →
        memByte t ((s.wptr + 4 * i + j) % s.cap) = beat.extractLsb' (8 * j) 8) ∧
      (∀ a, (∀ j < k, a ≠ (s.wptr + j) % s.cap) → memByte t a = memByte s a) ∧
      t = { s with
        sched := rest
        mem := t.mem
        wptr := (s.wptr + k) % (2 * s.cap)
        pSeq := if q.rem - k = 0 then none else some { q with rem := q.rem - k, pay := q.pay.drop (k / 4) }
        pIn := if q.rem - k = 0 then [] else s.pIn
        pResp := if q.rem - k = 0 then s.pResp ++ [⟨.ok, [BitVec.ofNat 32 (4 * q.count)]⟩] else s.pResp }

/-- P.PLAY, the hold (42_feeder.md R152): with no whole frame free in view agent P changes nothing, and so does every other
agent's step to the play's sequencer unless it is the fatal transition or reset. R152 gives the hold at 0 free bytes; that the
play also holds with 1 to 3 bytes free in view, which only an off-frame view reaches, is the model's choice (log 7). -/
def Obligations.PlayHolds : Prop :=
  (∀ (s : State) (q : PlaySeq) (rest : List Choice),
    s.sched = .agentP :: rest → s.pSeq = some q → s.cap - cursorDist s.cap s.rview s.wptr < 4 →
    step s = .next { s with sched := rest }) ∧
  (∀ (s t : State) (q : PlaySeq) (c : Choice) (rest : List Choice),
    s.sched = c :: rest → c ≠ .agentP → c ≠ .reset → s.pSeq = some q → step s = .next t →
    t.pSeq = some q ∨ (c = .agentH ∧ t.pSeq = none ∧ t.status.lstate = .fatal))

/-- C.RENDER, the chunk step (41_render_convert.md R140, R142): the whole frames of the first readable range, at most
those needed, converted with the latched volume, published once after the reads; else the phase becomes FILL. -/
def Obligations.RenderChunkStepRule : Prop :=
  ∀ (s : State) (q : RenderSeq) (rest : List Choice) (o l f : Nat),
    s.sched = .agentC :: rest → s.cSeq = some q → q.phase = .chunk →
    o = s.rptr % s.cap → l = min (cursorDist s.cap s.rptr s.wview) (s.cap - o) → f = min q.left (l / 4) →
    (0 < q.left → 4 ≤ l →
      ∃ beats : List OutBeat, beats.length = f ∧
        (∀ j < f, ∃ dl dr, beats[j]? = some
          { left := conv (memByte s ((o + 4 * j + 1) % s.cap) ++ memByte s ((o + 4 * j) % s.cap)) q.vol dl
            right := conv (memByte s ((o + 4 * j + 3) % s.cap) ++ memByte s ((o + 4 * j + 2) % s.cap)) q.vol dr }) ∧
        ∃ draws, step s = .next
          { s with
            sched := rest
            out := s.out ++ beats
            rptr := (s.rptr + 4 * f) % (2 * s.cap)
            nanDraws := draws
            cSeq := some { q with left := q.left - f, o := q.o + f, k := q.k + f } }) ∧
    (q.left = 0 ∨ l < 4 → step s = .next { s with sched := rest, cSeq := some { q with phase := .fill } })

/-- C.RENDER, the fill step (41_render_convert.md R141). -/
def Obligations.RenderFillStepRule : Prop :=
  ∀ (s : State) (q : RenderSeq) (rest : List Choice),
    s.sched = .agentC :: rest → s.cSeq = some q → q.phase = .fill →
    step s = .next
      { s with
        sched := rest
        out := s.out ++ List.replicate q.left ⟨0x00000000#32, 0x00000000#32⟩
        cSeq := none
        cIn := []
        cResp := s.cResp ++ [⟨.ok, [BitVec.ofNat 32 q.k]⟩] }

/-- The link steps (20_memory.md R55): any draw from 1 to the distance moves its view by that much and changes nothing else
(log 7); another draw is not enabled and moves nothing, which is the model's choice (log 3). -/
def Obligations.LinkStepsMoveViews : Prop :=
  ∀ (s : State) (rest : List Choice) (d : Nat),
    (s.sched = .syncW d :: rest →
      step s = .next { s with
        sched := rest
        wview := if 1 ≤ d ∧ d ≤ cursorDist s.cap s.wview s.wptr then (s.wview + d) % (2 * s.cap)
          else s.wview }) ∧
    (s.sched = .syncR d :: rest →
      step s = .next { s with
        sched := rest
        rview := if 1 ≤ d ∧ d ≤ cursorDist s.cap s.rview s.rptr then (s.rview + d) % (2 * s.cap)
          else s.rview })

/-! ## STATUS and the lifecycle -/

/-- The layout of STATUS (10_state.md R28, R29): every bit of the word H.READ_REG reads. -/
def Obligations.StatusWordLayout : Prop :=
  ∀ s : State,
    s.statusWord.extractLsb' 0 3 = (match s.status.lstate with
      | .uninit => 0#3 | .ready => 1#3 | .active => 2#3 | .closed => 3#3 | .fatal => 4#3) ∧
    s.statusWord.getLsbD 3 = s.status.started ∧ s.statusWord.getLsbD 4 = s.status.overrun ∧
    s.statusWord.getLsbD 5 = s.pSeq.isSome ∧ s.statusWord.getLsbD 6 = s.cSeq.isSome ∧
    s.statusWord.getLsbD 7 = false ∧
    s.statusWord.getLsbD 8 = s.status.eIllegal ∧ s.statusWord.getLsbD 9 = s.status.eState ∧
    s.statusWord.getLsbD 10 = s.status.eFrame ∧ s.statusWord.getLsbD 11 = s.status.eRange ∧
    s.statusWord.getLsbD 12 = s.status.eRate ∧
    ∀ j, 13 ≤ j → s.statusWord.getLsbD j = false

/-- LSTATE changes only by the transitions of 43_lifecycle.md R160. -/
def Obligations.LifecycleTransitions : Prop :=
  ∀ (s t : State) (c : Choice) (rest : List Choice), s.sched = c :: rest → step s = .next t →
    t.status.lstate ≠ s.status.lstate →
    (c = .reset ∧ t.status.lstate = .uninit) ∨
    (c = .agentH ∧ ∃ cmd q i, s.hCmds = cmd :: q ∧ decode .host cmd.word = .ok i ∧
      ((i = .hInit ∧ s.status.lstate = .uninit ∧ t.status.lstate = .ready) ∨
       (i = .hActivate ∧ s.status.lstate = .ready ∧ t.status.lstate = .active) ∨
       (i = .hDeactivate ∧ s.status.lstate = .active ∧ t.status.lstate = .ready) ∨
       (i = .hDeinit ∧ s.status.lstate = .ready ∧ t.status.lstate = .closed) ∨
       (∃ rate, i = .hStart rate ∧ rate.toNat ≠ s.rate ∧ s.status.lstate ∈ [LState.ready, LState.active] ∧
          t.status.lstate = .fatal)))

/-- The lifecycle columns of 60_exceptions.md R193 in which a command is legal. -/
def Sys2Proof.legalStates (i : Instr) : List LState :=
  match i with
  | .hInit => [.uninit]
  | .hActivate | .hDeinit => [.ready]
  | .hDeactivate => [.active]
  | .hStart _ | .hStop => [.ready, .active]
  | .hSetVolume | .hConvert _ => [.uninit, .ready, .active, .closed]
  | .hReadReg _ => [.uninit, .ready, .active, .closed, .fatal]
  | .pWrite _ | .pPlay _ | .pFreeSpace | .pWspan => [.ready, .active]
  | .cReadAvailable | .cPeek | .cAdvance _ | .cLoadf _ | .cRender _ => [.active]

/-- The legality table (60_exceptions.md R193): with the right payload, a command raises E_STATE exactly outside its
states or, for H.DEINIT, while a sequencer is busy; and running sequencers are not gated by LSTATE. -/
def Obligations.LegalityTable : Prop :=
  (∀ (i : Instr) (s : State), (s.dataIn i.port).length = payloadBeats i →
    ((s.status.lstate ∉ Sys2Proof.legalStates i ∨ (i = .hDeinit ∧ (s.pSeq ≠ none ∨ s.cSeq ≠ none))) →
      Raises i s .state) ∧
    (¬ (s.status.lstate ∉ Sys2Proof.legalStates i ∨ (i = .hDeinit ∧ (s.pSeq ≠ none ∨ s.cSeq ≠ none))) →
      ∃ t, exec i s = .next t ∧ t.status.eState = s.status.eState)) ∧
  (∀ (s : State) (l : LState) (q : RenderSeq), renderStep q (s.setLState l) = (renderStep q s).setLState l) ∧
  (∀ (s t : State) (l : LState) (q : PlaySeq), playStep q s = .next t → playStep q (s.setLState l) = .next (t.setLState l))

/-- From FATAL on, every command but H.READ_REG raises E_STATE, any command with a wrong payload E_ILLEGAL, and no command
moves data (43_lifecycle.md R170, 60_exceptions.md R193, R194). -/
def Obligations.FatalIsFinal : Prop :=
  ∀ (i : Instr) (s t : State), s.status.lstate = .fatal → exec i s = .next t →
    ((s.dataIn i.port).length ≠ payloadBeats i → AfterError s .illegal i.port t) ∧
    ((s.dataIn i.port).length = payloadBeats i → (∀ idx, i ≠ .hReadReg idx) → AfterError s .state i.port t) ∧
    t.status.lstate = .fatal ∧ t.mem = s.mem ∧ t.memGen = s.memGen ∧ t.wptr = s.wptr ∧ t.rptr = s.rptr ∧
    t.wview = s.wview ∧ t.rview = s.rview ∧ t.volume = s.volume ∧ t.dropped = s.dropped ∧ t.out = s.out ∧
    t.pSeq = s.pSeq ∧ t.cSeq = s.cSeq

/-- Error bits are sticky: only reset clears one (10_state.md R28, 60_exceptions.md R196). -/
def Obligations.ErrorBitsSticky : Prop :=
  ∀ (s t : State) (c : Choice) (rest : List Choice), s.sched = c :: rest → c ≠ .reset → step s = .next t →
    (s.status.eIllegal = true → t.status.eIllegal = true) ∧ (s.status.eState = true → t.status.eState = true) ∧
    (s.status.eFrame = true → t.status.eFrame = true) ∧ (s.status.eRange = true → t.status.eRange = true) ∧
    (s.status.eRate = true → t.status.eRate = true)

/-- Each agent changes only what is its own (10_state.md R21, R22, R24, R25, R27, 20_memory.md R53): the producer never
RPTR, WVIEW, VOLUME or the output; the consumer never MEM, WPTR, RVIEW, VOLUME or DROPPED; the host the buffer only with
H.INIT and H.DEINIT; a link step only its view. None changes the parameters, STARTED (but for the host) or another port's
responses, payload or coming commands. -/
def Obligations.AgentsChangeOnlyTheirOwn : Prop :=
  ∀ (s t : State) (c : Choice) (rest : List Choice), s.sched = c :: rest → step s = .next t →
    t.cap = s.cap ∧ t.rate = s.rate ∧
    (c = .agentP → t.rptr = s.rptr ∧ t.wview = s.wview ∧ t.volume = s.volume ∧ t.out = s.out ∧ t.cSeq = s.cSeq ∧
      t.memGen = s.memGen ∧ t.status.lstate = s.status.lstate ∧ t.status.started = s.status.started ∧
      s.dropped.toNat ≤ t.dropped.toNat ∧ t.hResp = s.hResp ∧ t.cResp = s.cResp ∧ t.hIn = s.hIn ∧ t.cIn = s.cIn ∧
      t.hCmds = s.hCmds ∧ t.cCmds = s.cCmds) ∧
    (c = .agentC → t.wptr = s.wptr ∧ t.mem = s.mem ∧ t.memGen = s.memGen ∧ t.rview = s.rview ∧ t.volume = s.volume ∧
      t.dropped = s.dropped ∧ t.pSeq = s.pSeq ∧ t.status.lstate = s.status.lstate ∧
      t.status.overrun = s.status.overrun ∧ t.status.started = s.status.started ∧
      t.hResp = s.hResp ∧ t.pResp = s.pResp ∧ t.hIn = s.hIn ∧ t.pIn = s.pIn ∧
      t.hCmds = s.hCmds ∧ t.pCmds = s.pCmds) ∧
    (c = .agentH →
      (t.pResp = s.pResp ∧ t.cResp = s.cResp ∧ t.pIn = s.pIn ∧ t.cIn = s.cIn ∧
        t.pCmds = s.pCmds ∧ t.cCmds = s.cCmds ∧ t.out = s.out) ∧
      ((t.wptr = s.wptr ∧ t.rptr = s.rptr ∧ t.wview = s.wview ∧ t.rview = s.rview ∧ t.mem = s.mem ∧
          t.memGen = s.memGen ∧ t.dropped = s.dropped) ∨
        (s.status.lstate = .uninit ∧ t.status.lstate = .ready) ∨
        (s.status.lstate = .ready ∧ t.status.lstate = .closed))) ∧
    (∀ d, c = .syncW d → t = { s with sched := rest, wview := t.wview }) ∧
    (∀ d, c = .syncR d → t = { s with sched := rest, rview := t.rview })

/-! ## Properties of the buffer -/

/-- No producer step writes a byte of the unread region, whatever the link drew (10_state.md R36, 20_memory.md R67,
40_ring_buffer.md R108). -/
def Obligations.ProducerNeverOverwritesUnread : Prop :=
  ∀ (s t : State) (rest : List Choice), CursorsInOrder s → s.sched = .agentP :: rest → step s = .next t →
    ∀ j < s.readable, memByte t ((s.rptr + j) % s.cap) = memByte s ((s.rptr + j) % s.cap)

/-- Nothing a consumer step does depends on a byte that no producer step has written: with other draws for the unwritten
bytes of MEM, a step of agent C gives the same next state, output and response included (10_state.md R30, R36, 20_memory.md
R56). -/
def Obligations.ConsumerReadsOnlyWritten : Prop :=
  ∀ (s t : State) (rest : List Choice) (g : Nat), CursorsInOrder s → ReadableWritten s → s.sched = .agentC :: rest →
    step s = .next t →
    step { s with memGen := g } = .next { t with memGen := g }

/-- Readable and free bytes on the true cursors add up to CAP, in whole frames, each query result is at most the true value
and equal to it when its view is current, and whole frames where the views are (10_state.md R34, R35,
70_reset_and_hazards.md R216). -/
def Obligations.QueriesNeverOverReport : Prop :=
  ∀ s : State, CursorsInOrder s →
    s.readable ≤ s.cap ∧ s.readable + s.free = s.cap ∧ s.readable % 4 = 0 ∧ s.free % 4 = 0 ∧
    s.availC ≤ s.readable ∧ s.freeP ≤ s.free ∧
    (s.wview = s.wptr → s.availC = s.readable) ∧ (s.rview = s.rptr → s.freeP = s.free) ∧
    (CursorsOrdered s → s.availC % 4 = 0 ∧ s.freeP % 4 = 0)

/-- A beat written by P.WRITE is what C.LOADF returns at the offset it was written to, once the consumer sees it
(20_memory.md R51). -/
def Obligations.WriteThenLoadReturnsBeat : Prop :=
  ∀ (s : State) (beat : Word), CursorsInOrder s → s.status.lstate = .active → s.pIn = [beat] → s.cIn = [] →
    4 ≤ s.freeP →
    ∃ t u, exec (.pWrite 4#26) s = .next t ∧
      exec (.cLoadf (BitVec.ofNat 26 (s.wptr % s.cap))) { t with wview := t.wptr } = .next u ∧
      u.cResp = s.cResp ++ [⟨.ok, [beat]⟩]

/-- A P.PLAY with room for all its frames completes in its start step and one write step: its bytes stand at the write
cursor in payload order, nothing is dropped, and the response counts them (42_feeder.md R150, R151, R154). -/
def Obligations.PlayWithRoomCompletes : Prop :=
  ∀ (s : State) (count : BitVec 26) (pay : List Word) (seen : Bool), CursorsInOrder s →
    s.status.lstate ∈ [LState.ready, LState.active] → s.pSeq = none → pay.length = count.toNat → 0 < count.toNat →
    s.pCmds = [⟨encode (.pPlay count), pay, seen⟩] → s.sched = [.agentP, .agentP] →
    4 * count.toNat ≤ s.cap - cursorDist s.cap s.rview s.wptr →
    ∃ t, Host.Core.run Sys2Proof.core 2 s = .next t ∧
      (∀ i < count.toNat, ∀ j < 4, ∀ beat, pay[i]? = some beat →
        memByte t ((s.wptr + 4 * i + j) % s.cap) = beat.extractLsb' (8 * j) 8) ∧
      (∀ a, (∀ j < 4 * count.toNat, a ≠ (s.wptr + j) % s.cap) → memByte t a = memByte s a) ∧
      t.wptr = (s.wptr + 4 * count.toNat) % (2 * s.cap) ∧ t.pSeq = none ∧ t.dropped = s.dropped ∧
      t.status = s.status ∧ t.pResp = s.pResp ++ [⟨.ok, [BitVec.ofNat 32 (4 * count.toNat)]⟩]

/-! ## Properties of the render -/

/-- A render emits exactly the frames it owes: its start owes or emits nframes, each of its later steps emits as many as
it stops owing, and no other agent's step emits or changes what is owed, but for the fatal transition and reset
(41_render_convert.md R143). Whatever steps interleave, it keeps its latched volume and its nframes (R134). -/
def Obligations.RenderConservesFrames : Prop :=
  (∀ (s t : State) (q q' : RenderSeq), step s = .next t → s.cSeq = some q → t.cSeq = some q' →
    q'.vol = q.vol ∧ q'.n = q.n) ∧
  (∀ (s t : State) (n : BitVec 26), s.cIn = [] → s.status.lstate = .active → s.cSeq = none →
    exec (.cRender n) s = .next t → t.out.length + t.framesOwed = s.out.length + n.toNat) ∧
  (∀ (s t : State) (q : RenderSeq) (rest : List Choice), s.sched = .agentC :: rest → s.cSeq = some q →
    step s = .next t → t.out.length + t.framesOwed = s.out.length + s.framesOwed) ∧
  (∀ (s t : State) (c : Choice) (rest : List Choice), s.sched = c :: rest → c ≠ .agentC → c ≠ .reset →
    step s = .next t → t.out = s.out ∧ (t.cSeq = s.cSeq ∨ (t.cSeq = none ∧ t.status.lstate = .fatal)))

/-- A render takes at most nframes + 3 steps of agent C: its start leaves at most nframes + 2, each of its later steps
leaves fewer, and no other step adds any (41_render_convert.md R144). -/
def Obligations.RenderStepBound : Prop :=
  (∀ (s t : State) (n : BitVec 26), s.cIn = [] → s.status.lstate = .active → s.cSeq = none →
    exec (.cRender n) s = .next t → t.renderStepsLeft ≤ n.toNat + 2) ∧
  (∀ (s : State) (q : RenderSeq) (rest : List Choice), s.sched = .agentC :: rest → s.cSeq = some q →
    ∃ t, step s = .next t ∧ t.renderStepsLeft < s.renderStepsLeft) ∧
  (∀ (s t : State) (c : Choice) (rest : List Choice), s.sched = c :: rest → c ≠ .agentC → step s = .next t →
    t.renderStepsLeft ≤ s.renderStepsLeft)

/-- The early exit of the start step ends where the chunk and fill steps from an empty buffer end (41_render_convert.md
R146). -/
def Obligations.EarlyExitEqualsChunkAndFill : Prop :=
  ∀ (s : State) (n : BitVec 26), s.cIn = [] → s.status.lstate = .active → s.cSeq = none →
    cursorDist s.cap s.rptr s.wview = 0 →
    ∃ t, exec (.cRender n) s = .next t ∧
      Host.Core.run Sys2Proof.core 2
        { s with
          sched := [.agentC, .agentC]
          cSeq := some { phase := .chunk, n := n.toNat, left := n.toNat, o := 0, k := 0, vol := s.volume } }
        = .next { t with sched := [] }

/-- A sequential render that nothing interrupts delivers the oldest min(K, n) frames converted with VOLUME, then silence,
advances RPTR past them and responds with their number, within five steps of agent C (41_render_convert.md R145). -/
def Obligations.SequentialRenderDelivers : Prop :=
  ∀ (s : State) (n : BitVec 26) (K m : Nat), CursorsInOrder s → s.status.lstate = .active →
    s.pSeq = none → s.cSeq = none → s.cCmds = [⟨encode (.cRender n), [], true⟩] →
    s.sched = List.replicate 5 .agentC → s.readable = 4 * K → m = min K n.toNat →
    ∃ t, Host.Core.run Sys2Proof.core 5 s = .next t ∧
      t.out = s.out ++
        (List.range m).map (fun j =>
          { left := conv (memByte s ((s.rptr + 4 * j + 1) % s.cap) ++ memByte s ((s.rptr + 4 * j) % s.cap)) s.volume
              (Config.nanDraw (s.nanDraws + 2 * j))
            right := conv (memByte s ((s.rptr + 4 * j + 3) % s.cap) ++ memByte s ((s.rptr + 4 * j + 2) % s.cap))
              s.volume (Config.nanDraw (s.nanDraws + 2 * j + 1)) }) ++
        List.replicate (n.toNat - m) ⟨0x00000000#32, 0x00000000#32⟩ ∧
      t.rptr = (s.rptr + 4 * m) % (2 * s.cap) ∧ t.cSeq = none ∧
      t.cResp = s.cResp ++ [⟨.ok, [BitVec.ofNat 32 m]⟩] ∧
      t.mem = s.mem ∧ t.wptr = s.wptr ∧ t.status = s.status

/-! ## The converter -/

/-- v / 32768 is exact in binary32 for every int16 v, with the values the rule lists, and is what conv gives at volume 1.0
(41_render_convert.md R131). -/
def Obligations.SampleScalingExact : Prop :=
  (∀ v : Int, -32768 ≤ v → v ≤ 32767 →
    f32Finite (bits32Over32768 v) ∧ f32Value (bits32Over32768 v) = (v : ℚ) / 32768 ∧
    -1 ≤ f32Value (bits32Over32768 v) ∧ f32Value (bits32Over32768 v) ≤ 32767 / 32768) ∧
  bits32Over32768 0 = 0x00000000#32 ∧ bits32Over32768 1 = 0x38000000#32 ∧ bits32Over32768 (-1) = 0xB8000000#32 ∧
  bits32Over32768 16384 = 0x3F000000#32 ∧ bits32Over32768 32767 = 0x3F7FFE00#32 ∧
  bits32Over32768 (-32768) = 0xBF800000#32 ∧
  ∀ (smp : BitVec 16) (d : BitVec 23), conv smp 0x3F800000#32 d = bits32Over32768 smp.toInt

/-- A product is NaN exactly when the rule says, and then it is any quiet NaN, as drawn; in conv only for a NaN volume, or
sample 0 at an infinite volume (41_render_convert.md R136). -/
def Obligations.ProductNaNIsAnyQuietNaN : Prop :=
  (∀ (smp : BitVec 16) (vol : Word) (d : BitVec 23),
    f32IsNaN (conv smp vol d) = true ↔ (f32IsNaN vol = true ∨ (smp = 0#16 ∧ f32IsInf vol = true))) ∧
  ∀ a b : Word,
    (∀ d, f32IsNaN (f32Mul a b d) = true ↔
      (f32IsNaN a = true ∨ f32IsNaN b = true ∨ (f32IsZero a = true ∧ f32IsInf b = true) ∨
        (f32IsInf a = true ∧ f32IsZero b = true))) ∧
    ((f32IsNaN a = true ∨ f32IsNaN b = true ∨ (f32IsZero a = true ∧ f32IsInf b = true) ∨
        (f32IsInf a = true ∧ f32IsZero b = true)) →
      (∀ d, (f32Mul a b d).extractLsb' 22 9 = 0x1FF#9) ∧
      (∀ w : Word, w.extractLsb' 22 9 = 0x1FF#9 → ∃ d, f32Mul a b d = w))

/-- With a finite volume, conv is the exact product rounded to the nearest binary32, ties to even, subnormals kept, with
the XOR of the signs, never above the volume in magnitude (41_render_convert.md R130, R132, R133, R135). -/
def Obligations.ConvRoundsToNearestEven : Prop :=
  ∀ (smp : BitVec 16) (vol : Word) (d : BitVec 23) (x : ℚ), f32Finite vol →
    x = (smp.toInt : ℚ) / 32768 * f32Value vol →
    f32Finite (conv smp vol d) ∧
    f32Sign (conv smp vol d) = (decide (smp.toInt < 0) ^^ f32Sign vol) ∧
    |f32Value (conv smp vol d)| ≤ |f32Value vol| ∧
    (∀ y : Word, f32Finite y → |f32Value (conv smp vol d) - x| ≤ |f32Value y - x|) ∧
    (∀ y : Word, f32Finite y → f32Value y ≠ f32Value (conv smp vol d) →
      |f32Value (conv smp vol d) - x| = |f32Value y - x| → f32Frac (conv smp vol d) % 2 = 0)

/-- With an infinite volume, a nonzero sample converts to an infinity signed by the XOR (41_render_convert.md R135). -/
def Obligations.ConvInfiniteVolume : Prop :=
  ∀ (smp : BitVec 16) (vol : Word) (d : BitVec 23), f32IsInf vol = true → smp ≠ 0#16 →
    conv smp vol d = (if (decide (smp.toInt < 0) ^^ f32Sign vol) = true then 0xFF800000#32 else 0x7F800000#32)

/-! ## Invariants -/

/-- The invariant holds right after reset. -/
def Obligations.ResetMeetsInvariant : Prop := Inv State.reset

/-- Every step keeps MEM in canonical form with offsets below CAP (10_state.md R25, 20_memory.md R62). -/
def Obligations.StepKeepsMemoryForm : Prop :=
  ∀ s t : State, ParamsLegal s → MemFormed s → step s = .next t → ParamsLegal t ∧ MemFormed t

/-- Every step keeps the cursors and views in order and both cursors on whole frames, whatever the commands and whatever
amounts the link draws (10_state.md R33, R35, 20_memory.md R52, R55). That the cursors stay on whole frames at an off-frame
view rests on the model's cut of the producer's k (90_conflicts.md C7; log 7). -/
def Obligations.StepKeepsCursorOrder : Prop :=
  ∀ s t : State, CursorsInOrder s → step s = .next t → CursorsInOrder t

/-- Where the link draws whole frames, every step keeps the views on whole frames too (10_state.md R35; the premise on the
draws is the model's reading, log 7). -/
def Obligations.StepKeepsWholeFrames : Prop :=
  ∀ s t : State, CursorsOrdered s → WholeDraws s → step s = .next t → CursorsOrdered t ∧ WholeDraws t

/-- Every step keeps the sequencers consistent, a running P.PLAY owing exactly its remaining beats (42_feeder.md R154), and
FATAL marked by E_RATE, and never stops (10_state.md R31, 60_exceptions.md R192, R196: every error is a next state). -/
def Obligations.StepKeepsSequencers : Prop :=
  ∀ s : State, SequencersFormed s → ∃ t, step s = .next t ∧ SequencersFormed t

/-- Every step keeps every readable byte a written one, whatever the link draws (10_state.md R36, 20_memory.md R56); at an
off-frame view this rests on the model's cut of the producer's k (90_conflicts.md C7; log 7). -/
def Obligations.StepKeepsReadableWritten : Prop :=
  ∀ s t : State, CursorsInOrder s → ReadableWritten s → step s = .next t → ReadableWritten t

/-- From a state that meets the invariant, no number of steps stops, under any schedule, any link draws and any commands, and
the invariant holds at the end; consistent sequencers alone rule a stop out (60_exceptions.md R192, R195). -/
def Obligations.RunNeverStops : Prop :=
  (∀ (s : State) (k : Nat), Inv s → ∃ t, Host.Core.run Sys2Proof.core k s = .next t ∧ Inv t) ∧
  (∀ (s : State) (k : Nat), SequencersFormed s → ∃ t, Host.Core.run Sys2Proof.core k s = .next t ∧ SequencersFormed t)

/-! ## Weak fairness -/

/-- In an infinite weakly fair run a command that waits on an idle port is issued, a render ends (41_render_convert.md R144),
a P.PLAY that always has a frame free in view ends (42_feeder.md R151, R154), and a cursor that stands still becomes visible
to the other side (20_memory.md R55, 70_reset_and_hazards.md R219). The fairness of an issue is no step that R219 lists: the
model reads it from R219's "every agent step" (log 3). That a play needs a whole frame free at an off-frame view is the model's
choice (log 7). -/
def Obligations.WeakFairnessGivesProgress : Prop :=
  ∀ (run : Nat → State) (choice : Nat → Choice) (n : Nat), IsRun run choice → WeaklyFair run choice →
    (∀ port, (run n).idle port = true → (run n).cmds port ≠ [] →
      ∃ m, n < m ∧ (run n).issued port < (run m).issued port) ∧
    ((run n).cSeq ≠ none → ∃ m, n < m ∧ (run m).cSeq = none) ∧
    (SequencersFormed (run n) → (run n).pSeq ≠ none →
      (∀ m, n ≤ m → (run m).pSeq ≠ none → 4 ≤ (run m).freeP) → ∃ m, n < m ∧ (run m).pSeq = none) ∧
    (CursorsInOrder (run n) → (∀ m, n ≤ m → (run m).wptr = (run n).wptr) →
      ∃ m, n ≤ m ∧ (run m).wview = (run n).wptr) ∧
    (CursorsInOrder (run n) → (∀ m, n ≤ m → (run m).rptr = (run n).rptr) →
      ∃ m, n ≤ m ∧ (run m).rview = (run n).rptr)
end

