-- ==== Sys2Proof/Laws/Cursor.lean ====
section
/-! SUPPORT. The laws of cursor arithmetic (00_scope.md R12, R13): `cursorDist` is the remainder the spec writes, both results
are cursor values, and moving a cursor changes distances by the amount moved. -/

namespace Sys2Proof.Machine

variable {cap a b c k : Nat}

/-- `cursorDist` is the spec's `(b - a) mod (2*CAP)` on integers. -/
theorem cursorDist_eq_emod (hcap : 0 < cap) : ((cursorDist cap a b : Nat) : Int) = ((b : Int) - a) % (2 * cap) := by
  have hlt : a % (2 * cap) < 2 * cap := Nat.mod_lt _ (by omega)
  unfold cursorDist
  rw [Int.natCast_mod, Int.natCast_add, Int.natCast_sub (Nat.le_of_lt hlt), Int.natCast_mod]
  push_cast
  rw [show (b : Int) + (2 * cap - a % (2 * cap)) = (b - a % (2 * cap)) + 2 * cap by ring, Int.add_emod_right,
    Int.sub_emod, Int.emod_emod, ← Int.sub_emod]

theorem cursorDist_lt (hcap : 0 < cap) : cursorDist cap a b < 2 * cap := Nat.mod_lt _ (by omega)

theorem cursorAdv_lt (hcap : 0 < cap) : cursorAdv cap a k < 2 * cap := Nat.mod_lt _ (by omega)

@[simp] theorem cursorDist_self (ha : a < 2 * cap) : cursorDist cap a a = 0 := by
  unfold cursorDist
  rw [Nat.mod_eq_of_lt ha, show a + (2 * cap - a) = 2 * cap by omega, Nat.mod_self]

/-- The two cases of a distance between cursor values: the later one has wrapped or not. -/
theorem cursorDist_cases (ha : a < 2 * cap) (hb : b < 2 * cap) :
    (a ≤ b ∧ cursorDist cap a b = b - a) ∨ (b < a ∧ cursorDist cap a b = b + 2 * cap - a) := by
  unfold cursorDist
  rw [Nat.mod_eq_of_lt ha]
  rcases Nat.lt_or_ge b a with h | h
  · exact .inr ⟨h, by rw [Nat.mod_eq_of_lt (by omega)]; omega⟩
  · refine .inl ⟨h, ?_⟩
    rw [show b + (2 * cap - a) = (b - a) + 2 * cap by omega, Nat.add_mod_right, Nat.mod_eq_of_lt (by omega)]

/-- The two cases of an advance by at most one turn. -/
theorem cursorAdv_cases (ha : a < 2 * cap) (hk : k ≤ 2 * cap) :
    (a + k < 2 * cap ∧ cursorAdv cap a k = a + k) ∨ (2 * cap ≤ a + k ∧ cursorAdv cap a k = a + k - 2 * cap) := by
  unfold cursorAdv
  rcases Nat.lt_or_ge (a + k) (2 * cap) with h | h
  · exact .inl ⟨h, Nat.mod_eq_of_lt h⟩
  · refine .inr ⟨h, ?_⟩
    rw [show a + k = (a + k - 2 * cap) + 2 * cap by omega, Nat.add_mod_right, Nat.mod_eq_of_lt (by omega)]
    omega

/-- Advancing the later cursor adds to the distance, while the sum stays below one turn. -/
theorem cursorDist_cursorAdv (ha : a < 2 * cap) (hb : b < 2 * cap) (hk : cursorDist cap a b + k < 2 * cap) :
    cursorDist cap a (cursorAdv cap b k) = cursorDist cap a b + k := by
  have hk2 : k ≤ 2 * cap := by omega
  have hlt : cursorAdv cap b k < 2 * cap := cursorAdv_lt (by omega)
  rcases cursorDist_cases ha hb with ⟨_, h1⟩ | ⟨_, h1⟩ <;> rcases cursorAdv_cases hb hk2 with ⟨_, h2⟩ | ⟨_, h2⟩ <;>
    rcases cursorDist_cases ha hlt with ⟨_, h3⟩ | ⟨_, h3⟩ <;> omega

/-- Advancing the earlier cursor by at most the distance takes from it. -/
theorem cursorDist_cursorAdv_left (ha : a < 2 * cap) (hb : b < 2 * cap) (hk : k ≤ cursorDist cap a b) :
    cursorDist cap (cursorAdv cap a k) b = cursorDist cap a b - k := by
  have hd : cursorDist cap a b < 2 * cap := cursorDist_lt (by omega)
  have hk2 : k ≤ 2 * cap := by omega
  have hlt : cursorAdv cap a k < 2 * cap := cursorAdv_lt (by omega)
  rcases cursorDist_cases ha hb with ⟨_, h1⟩ | ⟨_, h1⟩ <;> rcases cursorAdv_cases ha hk2 with ⟨_, h2⟩ | ⟨_, h2⟩ <;>
    rcases cursorDist_cases hlt hb with ⟨_, h3⟩ | ⟨_, h3⟩ <;> omega

/-- Distances between whole-frame cursors are whole frames. -/
theorem cursorDist_mod_four (hcap : cap % 4 = 0) (ha : a < 2 * cap) (hb : b < 2 * cap) (ha4 : a % 4 = 0) (hb4 : b % 4 = 0) :
    cursorDist cap a b % 4 = 0 := by
  rcases cursorDist_cases ha hb with ⟨_, h⟩ | ⟨_, h⟩ <;> omega

/-- Advancing a whole-frame cursor by whole frames keeps it so. -/
theorem cursorAdv_mod_four (hcap : cap % 4 = 0) (ha : a < 2 * cap) (hk : k ≤ 2 * cap) (ha4 : a % 4 = 0) (hk4 : k % 4 = 0) :
    cursorAdv cap a k % 4 = 0 := by
  rcases cursorAdv_cases ha hk with ⟨_, h⟩ | ⟨_, h⟩ <;> omega

/-- The MEM offset of an advanced cursor (10_state.md R23). -/
theorem cursorAdv_mod_cap : cursorAdv cap a k % cap = (a + k) % cap := by
  unfold cursorAdv
  exact Nat.mod_mod_of_dvd _ ⟨2, by ring⟩

/-- The two ranges of a span cover its length, the first one ends at or before the end of MEM (40_ring_buffer.md R100). -/
theorem spans_cover (cap o len : Nat) :
    (spans cap o len).len1 + (spans cap o len).len2 = len ∧ (spans cap o len).len1 ≤ cap - o ∧
      (spans cap o len).off1 = o ∧ (spans cap o len).off2 = 0 := by
  refine ⟨?_, ?_, rfl, rfl⟩ <;> simp only [spans] <;> omega

end Sys2Proof.Machine
end

