-- ==== Sys2Proof/Laws/Memory.lean ====
section
/-! SUPPORT. The laws of MEM: reading back what was written, what a write leaves alone, and that every operation keeps
the canonical form and the offsets below CAP. -/

namespace Sys2Proof.Machine

/-- Every listed offset of `m` lies above `a`. -/
def memAbove (a : Nat) (m : List Host.Cell) : Prop := ∀ c ∈ m, a < c.1

theorem memWf_nil : memWf [] = true := rfl

theorem memWf_tail {c : Host.Cell} {m : List Host.Cell} (h : memWf (c :: m) = true) : memWf m = true := by
  cases m with
  | nil => rfl
  | cons d rest =>
    obtain ⟨a, v⟩ := c; obtain ⟨b, w⟩ := d
    simp only [memWf, Bool.and_eq_true] at h
    exact h.2

theorem memWf_above {a : Nat} {v : Byte} {m : List Host.Cell} (h : memWf ((a, v) :: m) = true) : memAbove a m := by
  induction m generalizing a v with
  | nil => intro c hc; cases hc
  | cons d rest ih =>
    obtain ⟨b, w⟩ := d
    simp only [memWf, Bool.and_eq_true, decide_eq_true_eq] at h
    intro c hc
    rcases List.mem_cons.mp hc with rfl | hc
    · exact h.1
    · exact Nat.lt_trans h.1 (ih h.2 c hc)

theorem memWf_cons {a : Nat} {v : Byte} {m : List Host.Cell} (ha : memAbove a m) (hm : memWf m = true) :
    memWf ((a, v) :: m) = true := by
  cases m with
  | nil => rfl
  | cons d rest =>
    obtain ⟨b, w⟩ := d
    simp only [memWf, Bool.and_eq_true, decide_eq_true_eq]
    exact ⟨ha _ (List.mem_cons_self ..), hm⟩

/-- The offsets listed after a store are the old ones and the one stored to. -/
theorem mem_memStore {m : List Host.Cell} {a : Nat} {v : Byte} {c : Host.Cell} (h : c ∈ memStore m a v) :
    c = (a, v) ∨ c ∈ m := by
  induction m with
  | nil => exact .inl (by simpa [memStore] using h)
  | cons d rest ih =>
    obtain ⟨b, w⟩ := d
    simp only [memStore] at h
    split at h
    · simpa using h
    · split at h
      · rcases List.mem_cons.mp h with h | h
        · exact .inl h
        · exact .inr (List.mem_cons_of_mem _ h)
      · rcases List.mem_cons.mp h with h | h
        · exact .inr (h ▸ List.mem_cons_self ..)
        · exact (ih h).imp_right (List.mem_cons_of_mem _)

/-- A store keeps the canonical form. -/
theorem memWf_memStore (m : List Host.Cell) (a : Nat) (v : Byte) (h : memWf m = true) :
    memWf (memStore m a v) = true := by
  induction m with
  | nil => rfl
  | cons d rest ih =>
    obtain ⟨b, w⟩ := d
    have hab := memWf_above h
    have ht := memWf_tail h
    simp only [memStore]
    split
    · next hlt =>
      refine memWf_cons ?_ h
      intro c hc
      rcases List.mem_cons.mp hc with rfl | hc
      · exact hlt
      · exact Nat.lt_trans hlt (hab c hc)
    · split
      · next _ heq => exact memWf_cons (heq ▸ hab) ht
      · next hlt hne =>
        refine memWf_cons ?_ (ih ht)
        intro c hc
        rcases mem_memStore hc with rfl | hc
        · show b < a
          omega
        · exact hab c hc

theorem memLookup_of_above {m : List Host.Cell} {a : Nat} (h : memAbove a m) : memLookup m a = none := by
  induction m with
  | nil => rfl
  | cons d rest ih =>
    obtain ⟨b, w⟩ := d
    have hb : a < b := h _ (List.mem_cons_self ..)
    have hne : b ≠ a := by omega
    simp only [memLookup, if_neg hne]
    exact ih (fun c hc => h c (List.mem_cons_of_mem _ hc))

/-- Read after write: the byte stored. -/
@[simp] theorem memLookup_memStore_same (m : List Host.Cell) (a : Nat) (v : Byte) :
    memLookup (memStore m a v) a = some v := by
  induction m with
  | nil => simp [memStore, memLookup]
  | cons d rest ih =>
    obtain ⟨b, w⟩ := d
    simp only [memStore]
    split
    · simp [memLookup]
    · split
      · simp [memLookup]
      · next hlt hne =>
        have hba : b ≠ a := fun h => hne h.symm
        simp only [memLookup, if_neg hba]
        exact ih

/-- A store leaves every other offset alone. -/
theorem memLookup_memStore_other (m : List Host.Cell) {a b : Nat} (v : Byte) (h : b ≠ a) :
    memLookup (memStore m a v) b = memLookup m b := by
  induction m with
  | nil => simp [memStore, memLookup, h.symm]
  | cons d rest ih =>
    obtain ⟨x, w⟩ := d
    simp only [memStore]
    split
    · simp [memLookup, h.symm]
    · split
      · next _ heq => subst heq; simp [memLookup, h.symm]
      · simp only [memLookup]
        split
        · rfl
        · exact ih

theorem memWf_memWrite (cap : Nat) (m : List Host.Cell) (off n : Nat) (v : Word) (h : memWf m = true) :
    memWf (memWrite cap m off n v) = true := by
  induction n with
  | zero => exact h
  | succ k ih => exact memWf_memStore _ _ _ ih

theorem memWf_memWriteBeats (cap : Nat) (m : List Host.Cell) (base : Nat) (beats : List Word) (h : memWf m = true) :
    memWf (memWriteBeats cap m base beats) = true := by
  induction beats generalizing m base with
  | nil => exact h
  | cons b rest ih => exact ih _ _ (memWf_memWrite _ _ _ _ _ h)

/-- All listed offsets lie below `cap`. -/
def memBelow (cap : Nat) (m : List Host.Cell) : Prop := ∀ c ∈ m, c.1 < cap

theorem memBelow_memStore {cap : Nat} {m : List Host.Cell} {a : Nat} {v : Byte} (ha : a < cap)
    (h : memBelow cap m) : memBelow cap (memStore m a v) := by
  intro c hc
  rcases mem_memStore hc with rfl | hc
  · exact ha
  · exact h c hc

theorem memBelow_memWrite {cap : Nat} (hcap : 0 < cap) {m : List Host.Cell} (off n : Nat) (v : Word)
    (h : memBelow cap m) : memBelow cap (memWrite cap m off n v) := by
  induction n with
  | zero => exact h
  | succ k ih => exact memBelow_memStore (Nat.mod_lt _ hcap) ih

theorem memBelow_memWriteBeats {cap : Nat} (hcap : 0 < cap) {m : List Host.Cell} (base : Nat) (beats : List Word)
    (h : memBelow cap m) : memBelow cap (memWriteBeats cap m base beats) := by
  induction beats generalizing m base with
  | nil => exact h
  | cons b rest ih => exact ih _ (memBelow_memWrite hcap _ _ _ h)

/-- `MemWrite` leaves every offset alone that it does not reach. -/
theorem memLookup_memWrite_other (cap : Nat) (m : List Host.Cell) (off n : Nat) (v : Word) {a : Nat}
    (h : ∀ i < n, a ≠ (off + i) % cap) : memLookup (memWrite cap m off n v) a = memLookup m a := by
  induction n with
  | zero => rfl
  | succ k ih =>
    rw [memWrite, memLookup_memStore_other _ _ (h k (Nat.lt_succ_self k))]
    exact ih (fun i hi => h i (Nat.lt_succ_of_lt hi))

/-- `MemWrite` of n bytes writes byte i of the value, when the n offsets do not meet (n at most CAP). -/
theorem memLookup_memWrite_hit {cap : Nat} (m : List Host.Cell) (off n : Nat) (v : Word) (hn : n ≤ cap)
    {i : Nat} (hi : i < n) :
    memLookup (memWrite cap m off n v) ((off + i) % cap) = some (v.extractLsb' (8 * i) 8) := by
  induction n with
  | zero => omega
  | succ k ih =>
    rw [memWrite]
    rcases Nat.lt_succ_iff_lt_or_eq.mp hi with hlt | rfl
    · have hne : (off + i) % cap ≠ (off + k) % cap := by
        intro heq
        have hd : (k - i) % cap = 0 := by
          have : off + k = (off + i) + (k - i) := by omega
          rw [this] at heq
          have h := (Nat.ModEq.add_left_cancel' (off + i) (show Nat.ModEq cap (off + i + 0) (off + i + (k - i)) from heq))
          exact h.symm
        rw [Nat.mod_eq_of_lt (by omega)] at hd
        omega
      rw [memLookup_memStore_other _ _ hne]
      exact ih (by omega) hlt
    · exact memLookup_memStore_same ..

theorem memWriteBeats_append (cap : Nat) (m : List Host.Cell) (base : Nat) (xs ys : List Word) :
    memWriteBeats cap m base (xs ++ ys) = memWriteBeats cap (memWriteBeats cap m base xs) (base + 4 * xs.length) ys := by
  induction xs generalizing m base with
  | nil => rfl
  | cons x rest ih =>
    simp only [List.cons_append, memWriteBeats, List.length_cons]
    rw [ih]
    congr 1
    omega

/-- A run of beats leaves every offset alone that it does not reach. -/
theorem memLookup_memWriteBeats_other (cap : Nat) (m : List Host.Cell) (base : Nat) (beats : List Word) {a : Nat}
    (h : ∀ j < 4 * beats.length, a ≠ (base + j) % cap) :
    memLookup (memWriteBeats cap m base beats) a = memLookup m a := by
  induction beats generalizing m base with
  | nil => rfl
  | cons b rest ih =>
    rw [memWriteBeats, ih]
    · refine memLookup_memWrite_other _ _ _ _ _ (fun i hi => ?_)
      rw [Nat.mod_add_mod]
      exact h i (by simp only [List.length_cons]; omega)
    · intro j hj
      have := h (4 + j) (by simp only [List.length_cons]; omega)
      rwa [← Nat.add_assoc] at this

/-- A run of beats that fits MEM puts byte j of beat i where the loop of 40_ring_buffer.md R101 says. -/
theorem memLookup_memWriteBeats_hit {cap : Nat} (m : List Host.Cell) (base : Nat) (beats : List Word)
    (hn : 4 * beats.length ≤ cap) {i j : Nat} (hi : i < beats.length) (hj : j < 4) :
    memLookup (memWriteBeats cap m base beats) ((base + 4 * i + j) % cap)
      = some ((beats[i]).extractLsb' (8 * j) 8) := by
  induction beats generalizing m base i with
  | nil => simp at hi
  | cons b rest ih =>
    simp only [List.length_cons] at hn hi
    rw [memWriteBeats]
    cases i with
    | zero =>
      rw [memLookup_memWriteBeats_other]
      · have := memLookup_memWrite_hit (cap := cap) m (base % cap) 4 b (by omega) hj
        rw [Nat.mod_add_mod] at this
        simpa using this
      · intro l hl heq
        have hd := Nat.ModEq.add_left_cancel' (base + j)
          (show Nat.ModEq cap (base + j + 0) (base + j + (4 + l - j)) by
            have e : base + j + (4 + l - j) = base + 4 + l := by omega
            rw [e]; exact (by simpa using heq : (base + j) % cap = (base + 4 + l) % cap))
        have h0 : (4 + l - j) % cap = 0 := by simpa [Nat.ModEq] using hd.symm
        rw [Nat.mod_eq_of_lt (by omega)] at h0
        omega
    | succ k =>
      have e : base + 4 * (k + 1) + j = base + 4 + 4 * k + j := by omega
      rw [e]
      simpa using ih (memWrite cap m (base % cap) 4 b) (base + 4) (i := k) (by omega) (by omega)

end Sys2Proof.Machine
end

