-- ==== Sys2Proof/Laws/State.lean ====
section
/-! SUPPORT. One lemma per field per named update of the state: what each update leaves and what it writes, so that no
later proof unfolds a record update. -/

namespace Sys2Proof.Machine

variable (s : State)

/-! ### State.respond -/

@[simp] theorem State.respond_cap (port : Port) (code : Code) (vs : List Word) : (s.respond port code vs).cap = s.cap :=
  by cases port <;> rfl
@[simp] theorem State.respond_rate (port : Port) (code : Code) (vs : List Word) : (s.respond port code vs).rate = s.rate :=
  by cases port <;> rfl
@[simp] theorem State.respond_mem (port : Port) (code : Code) (vs : List Word) : (s.respond port code vs).mem = s.mem :=
  by cases port <;> rfl
@[simp] theorem State.respond_memGen (port : Port) (code : Code) (vs : List Word) : (s.respond port code vs).memGen = s.memGen :=
  by cases port <;> rfl
@[simp] theorem State.respond_wptr (port : Port) (code : Code) (vs : List Word) : (s.respond port code vs).wptr = s.wptr :=
  by cases port <;> rfl
@[simp] theorem State.respond_rptr (port : Port) (code : Code) (vs : List Word) : (s.respond port code vs).rptr = s.rptr :=
  by cases port <;> rfl
@[simp] theorem State.respond_wview (port : Port) (code : Code) (vs : List Word) : (s.respond port code vs).wview = s.wview :=
  by cases port <;> rfl
@[simp] theorem State.respond_rview (port : Port) (code : Code) (vs : List Word) : (s.respond port code vs).rview = s.rview :=
  by cases port <;> rfl
@[simp] theorem State.respond_volume (port : Port) (code : Code) (vs : List Word) : (s.respond port code vs).volume = s.volume :=
  by cases port <;> rfl
@[simp] theorem State.respond_dropped (port : Port) (code : Code) (vs : List Word) : (s.respond port code vs).dropped = s.dropped :=
  by cases port <;> rfl
@[simp] theorem State.respond_status (port : Port) (code : Code) (vs : List Word) : (s.respond port code vs).status = s.status :=
  by cases port <;> rfl
@[simp] theorem State.respond_pSeq (port : Port) (code : Code) (vs : List Word) : (s.respond port code vs).pSeq = s.pSeq :=
  by cases port <;> rfl
@[simp] theorem State.respond_cSeq (port : Port) (code : Code) (vs : List Word) : (s.respond port code vs).cSeq = s.cSeq :=
  by cases port <;> rfl
@[simp] theorem State.respond_nanDraws (port : Port) (code : Code) (vs : List Word) : (s.respond port code vs).nanDraws = s.nanDraws :=
  by cases port <;> rfl
@[simp] theorem State.respond_hCmds (port : Port) (code : Code) (vs : List Word) : (s.respond port code vs).hCmds = s.hCmds :=
  by cases port <;> rfl
@[simp] theorem State.respond_pCmds (port : Port) (code : Code) (vs : List Word) : (s.respond port code vs).pCmds = s.pCmds :=
  by cases port <;> rfl
@[simp] theorem State.respond_cCmds (port : Port) (code : Code) (vs : List Word) : (s.respond port code vs).cCmds = s.cCmds :=
  by cases port <;> rfl
@[simp] theorem State.respond_hIssued (port : Port) (code : Code) (vs : List Word) : (s.respond port code vs).hIssued = s.hIssued :=
  by cases port <;> rfl
@[simp] theorem State.respond_pIssued (port : Port) (code : Code) (vs : List Word) : (s.respond port code vs).pIssued = s.pIssued :=
  by cases port <;> rfl
@[simp] theorem State.respond_cIssued (port : Port) (code : Code) (vs : List Word) : (s.respond port code vs).cIssued = s.cIssued :=
  by cases port <;> rfl
@[simp] theorem State.respond_sched (port : Port) (code : Code) (vs : List Word) : (s.respond port code vs).sched = s.sched :=
  by cases port <;> rfl
@[simp] theorem State.respond_out (port : Port) (code : Code) (vs : List Word) : (s.respond port code vs).out = s.out :=
  by cases port <;> rfl

/-! ### State.raiseError -/

@[simp] theorem State.raiseError_cap (e : ErrClass) (port : Port) : (s.raiseError e port).cap = s.cap :=
  by cases port <;> rfl
@[simp] theorem State.raiseError_rate (e : ErrClass) (port : Port) : (s.raiseError e port).rate = s.rate :=
  by cases port <;> rfl
@[simp] theorem State.raiseError_mem (e : ErrClass) (port : Port) : (s.raiseError e port).mem = s.mem :=
  by cases port <;> rfl
@[simp] theorem State.raiseError_memGen (e : ErrClass) (port : Port) : (s.raiseError e port).memGen = s.memGen :=
  by cases port <;> rfl
@[simp] theorem State.raiseError_wptr (e : ErrClass) (port : Port) : (s.raiseError e port).wptr = s.wptr :=
  by cases port <;> rfl
@[simp] theorem State.raiseError_rptr (e : ErrClass) (port : Port) : (s.raiseError e port).rptr = s.rptr :=
  by cases port <;> rfl
@[simp] theorem State.raiseError_wview (e : ErrClass) (port : Port) : (s.raiseError e port).wview = s.wview :=
  by cases port <;> rfl
@[simp] theorem State.raiseError_rview (e : ErrClass) (port : Port) : (s.raiseError e port).rview = s.rview :=
  by cases port <;> rfl
@[simp] theorem State.raiseError_volume (e : ErrClass) (port : Port) : (s.raiseError e port).volume = s.volume :=
  by cases port <;> rfl
@[simp] theorem State.raiseError_dropped (e : ErrClass) (port : Port) : (s.raiseError e port).dropped = s.dropped :=
  by cases port <;> rfl
@[simp] theorem State.raiseError_status (e : ErrClass) (port : Port) : (s.raiseError e port).status = statusWithError e s.status :=
  by cases port <;> rfl
@[simp] theorem State.raiseError_pSeq (e : ErrClass) (port : Port) : (s.raiseError e port).pSeq = s.pSeq :=
  by cases port <;> rfl
@[simp] theorem State.raiseError_cSeq (e : ErrClass) (port : Port) : (s.raiseError e port).cSeq = s.cSeq :=
  by cases port <;> rfl
@[simp] theorem State.raiseError_nanDraws (e : ErrClass) (port : Port) : (s.raiseError e port).nanDraws = s.nanDraws :=
  by cases port <;> rfl
@[simp] theorem State.raiseError_hCmds (e : ErrClass) (port : Port) : (s.raiseError e port).hCmds = s.hCmds :=
  by cases port <;> rfl
@[simp] theorem State.raiseError_pCmds (e : ErrClass) (port : Port) : (s.raiseError e port).pCmds = s.pCmds :=
  by cases port <;> rfl
@[simp] theorem State.raiseError_cCmds (e : ErrClass) (port : Port) : (s.raiseError e port).cCmds = s.cCmds :=
  by cases port <;> rfl
@[simp] theorem State.raiseError_hIssued (e : ErrClass) (port : Port) : (s.raiseError e port).hIssued = s.hIssued :=
  by cases port <;> rfl
@[simp] theorem State.raiseError_pIssued (e : ErrClass) (port : Port) : (s.raiseError e port).pIssued = s.pIssued :=
  by cases port <;> rfl
@[simp] theorem State.raiseError_cIssued (e : ErrClass) (port : Port) : (s.raiseError e port).cIssued = s.cIssued :=
  by cases port <;> rfl
@[simp] theorem State.raiseError_sched (e : ErrClass) (port : Port) : (s.raiseError e port).sched = s.sched :=
  by cases port <;> rfl
@[simp] theorem State.raiseError_out (e : ErrClass) (port : Port) : (s.raiseError e port).out = s.out :=
  by cases port <;> rfl

/-! ### State.emit -/

@[simp] theorem State.emit_cap (beats : List OutBeat) : (s.emit beats).cap = s.cap :=
  rfl
@[simp] theorem State.emit_rate (beats : List OutBeat) : (s.emit beats).rate = s.rate :=
  rfl
@[simp] theorem State.emit_mem (beats : List OutBeat) : (s.emit beats).mem = s.mem :=
  rfl
@[simp] theorem State.emit_memGen (beats : List OutBeat) : (s.emit beats).memGen = s.memGen :=
  rfl
@[simp] theorem State.emit_wptr (beats : List OutBeat) : (s.emit beats).wptr = s.wptr :=
  rfl
@[simp] theorem State.emit_rptr (beats : List OutBeat) : (s.emit beats).rptr = s.rptr :=
  rfl
@[simp] theorem State.emit_wview (beats : List OutBeat) : (s.emit beats).wview = s.wview :=
  rfl
@[simp] theorem State.emit_rview (beats : List OutBeat) : (s.emit beats).rview = s.rview :=
  rfl
@[simp] theorem State.emit_volume (beats : List OutBeat) : (s.emit beats).volume = s.volume :=
  rfl
@[simp] theorem State.emit_dropped (beats : List OutBeat) : (s.emit beats).dropped = s.dropped :=
  rfl
@[simp] theorem State.emit_status (beats : List OutBeat) : (s.emit beats).status = s.status :=
  rfl
@[simp] theorem State.emit_pSeq (beats : List OutBeat) : (s.emit beats).pSeq = s.pSeq :=
  rfl
@[simp] theorem State.emit_cSeq (beats : List OutBeat) : (s.emit beats).cSeq = s.cSeq :=
  rfl
@[simp] theorem State.emit_hIn (beats : List OutBeat) : (s.emit beats).hIn = s.hIn :=
  rfl
@[simp] theorem State.emit_pIn (beats : List OutBeat) : (s.emit beats).pIn = s.pIn :=
  rfl
@[simp] theorem State.emit_cIn (beats : List OutBeat) : (s.emit beats).cIn = s.cIn :=
  rfl
@[simp] theorem State.emit_nanDraws (beats : List OutBeat) : (s.emit beats).nanDraws = s.nanDraws :=
  rfl
@[simp] theorem State.emit_hCmds (beats : List OutBeat) : (s.emit beats).hCmds = s.hCmds :=
  rfl
@[simp] theorem State.emit_pCmds (beats : List OutBeat) : (s.emit beats).pCmds = s.pCmds :=
  rfl
@[simp] theorem State.emit_cCmds (beats : List OutBeat) : (s.emit beats).cCmds = s.cCmds :=
  rfl
@[simp] theorem State.emit_hIssued (beats : List OutBeat) : (s.emit beats).hIssued = s.hIssued :=
  rfl
@[simp] theorem State.emit_pIssued (beats : List OutBeat) : (s.emit beats).pIssued = s.pIssued :=
  rfl
@[simp] theorem State.emit_cIssued (beats : List OutBeat) : (s.emit beats).cIssued = s.cIssued :=
  rfl
@[simp] theorem State.emit_sched (beats : List OutBeat) : (s.emit beats).sched = s.sched :=
  rfl
@[simp] theorem State.emit_hResp (beats : List OutBeat) : (s.emit beats).hResp = s.hResp :=
  rfl
@[simp] theorem State.emit_pResp (beats : List OutBeat) : (s.emit beats).pResp = s.pResp :=
  rfl
@[simp] theorem State.emit_cResp (beats : List OutBeat) : (s.emit beats).cResp = s.cResp :=
  rfl
@[simp] theorem State.emit_out (beats : List OutBeat) : (s.emit beats).out = s.out ++ beats :=
  rfl

/-! ### State.publishW -/

@[simp] theorem State.publishW_cap (v : Nat) : (s.publishW v).cap = s.cap :=
  rfl
@[simp] theorem State.publishW_rate (v : Nat) : (s.publishW v).rate = s.rate :=
  rfl
@[simp] theorem State.publishW_mem (v : Nat) : (s.publishW v).mem = s.mem :=
  rfl
@[simp] theorem State.publishW_memGen (v : Nat) : (s.publishW v).memGen = s.memGen :=
  rfl
@[simp] theorem State.publishW_wptr (v : Nat) : (s.publishW v).wptr = v :=
  rfl
@[simp] theorem State.publishW_rptr (v : Nat) : (s.publishW v).rptr = s.rptr :=
  rfl
@[simp] theorem State.publishW_wview (v : Nat) : (s.publishW v).wview = s.wview :=
  rfl
@[simp] theorem State.publishW_rview (v : Nat) : (s.publishW v).rview = s.rview :=
  rfl
@[simp] theorem State.publishW_volume (v : Nat) : (s.publishW v).volume = s.volume :=
  rfl
@[simp] theorem State.publishW_dropped (v : Nat) : (s.publishW v).dropped = s.dropped :=
  rfl
@[simp] theorem State.publishW_status (v : Nat) : (s.publishW v).status = s.status :=
  rfl
@[simp] theorem State.publishW_pSeq (v : Nat) : (s.publishW v).pSeq = s.pSeq :=
  rfl
@[simp] theorem State.publishW_cSeq (v : Nat) : (s.publishW v).cSeq = s.cSeq :=
  rfl
@[simp] theorem State.publishW_hIn (v : Nat) : (s.publishW v).hIn = s.hIn :=
  rfl
@[simp] theorem State.publishW_pIn (v : Nat) : (s.publishW v).pIn = s.pIn :=
  rfl
@[simp] theorem State.publishW_cIn (v : Nat) : (s.publishW v).cIn = s.cIn :=
  rfl
@[simp] theorem State.publishW_nanDraws (v : Nat) : (s.publishW v).nanDraws = s.nanDraws :=
  rfl
@[simp] theorem State.publishW_hCmds (v : Nat) : (s.publishW v).hCmds = s.hCmds :=
  rfl
@[simp] theorem State.publishW_pCmds (v : Nat) : (s.publishW v).pCmds = s.pCmds :=
  rfl
@[simp] theorem State.publishW_cCmds (v : Nat) : (s.publishW v).cCmds = s.cCmds :=
  rfl
@[simp] theorem State.publishW_hIssued (v : Nat) : (s.publishW v).hIssued = s.hIssued :=
  rfl
@[simp] theorem State.publishW_pIssued (v : Nat) : (s.publishW v).pIssued = s.pIssued :=
  rfl
@[simp] theorem State.publishW_cIssued (v : Nat) : (s.publishW v).cIssued = s.cIssued :=
  rfl
@[simp] theorem State.publishW_sched (v : Nat) : (s.publishW v).sched = s.sched :=
  rfl
@[simp] theorem State.publishW_hResp (v : Nat) : (s.publishW v).hResp = s.hResp :=
  rfl
@[simp] theorem State.publishW_pResp (v : Nat) : (s.publishW v).pResp = s.pResp :=
  rfl
@[simp] theorem State.publishW_cResp (v : Nat) : (s.publishW v).cResp = s.cResp :=
  rfl
@[simp] theorem State.publishW_out (v : Nat) : (s.publishW v).out = s.out :=
  rfl

/-! ### State.publishR -/

@[simp] theorem State.publishR_cap (v : Nat) : (s.publishR v).cap = s.cap :=
  rfl
@[simp] theorem State.publishR_rate (v : Nat) : (s.publishR v).rate = s.rate :=
  rfl
@[simp] theorem State.publishR_mem (v : Nat) : (s.publishR v).mem = s.mem :=
  rfl
@[simp] theorem State.publishR_memGen (v : Nat) : (s.publishR v).memGen = s.memGen :=
  rfl
@[simp] theorem State.publishR_wptr (v : Nat) : (s.publishR v).wptr = s.wptr :=
  rfl
@[simp] theorem State.publishR_rptr (v : Nat) : (s.publishR v).rptr = v :=
  rfl
@[simp] theorem State.publishR_wview (v : Nat) : (s.publishR v).wview = s.wview :=
  rfl
@[simp] theorem State.publishR_rview (v : Nat) : (s.publishR v).rview = s.rview :=
  rfl
@[simp] theorem State.publishR_volume (v : Nat) : (s.publishR v).volume = s.volume :=
  rfl
@[simp] theorem State.publishR_dropped (v : Nat) : (s.publishR v).dropped = s.dropped :=
  rfl
@[simp] theorem State.publishR_status (v : Nat) : (s.publishR v).status = s.status :=
  rfl
@[simp] theorem State.publishR_pSeq (v : Nat) : (s.publishR v).pSeq = s.pSeq :=
  rfl
@[simp] theorem State.publishR_cSeq (v : Nat) : (s.publishR v).cSeq = s.cSeq :=
  rfl
@[simp] theorem State.publishR_hIn (v : Nat) : (s.publishR v).hIn = s.hIn :=
  rfl
@[simp] theorem State.publishR_pIn (v : Nat) : (s.publishR v).pIn = s.pIn :=
  rfl
@[simp] theorem State.publishR_cIn (v : Nat) : (s.publishR v).cIn = s.cIn :=
  rfl
@[simp] theorem State.publishR_nanDraws (v : Nat) : (s.publishR v).nanDraws = s.nanDraws :=
  rfl
@[simp] theorem State.publishR_hCmds (v : Nat) : (s.publishR v).hCmds = s.hCmds :=
  rfl
@[simp] theorem State.publishR_pCmds (v : Nat) : (s.publishR v).pCmds = s.pCmds :=
  rfl
@[simp] theorem State.publishR_cCmds (v : Nat) : (s.publishR v).cCmds = s.cCmds :=
  rfl
@[simp] theorem State.publishR_hIssued (v : Nat) : (s.publishR v).hIssued = s.hIssued :=
  rfl
@[simp] theorem State.publishR_pIssued (v : Nat) : (s.publishR v).pIssued = s.pIssued :=
  rfl
@[simp] theorem State.publishR_cIssued (v : Nat) : (s.publishR v).cIssued = s.cIssued :=
  rfl
@[simp] theorem State.publishR_sched (v : Nat) : (s.publishR v).sched = s.sched :=
  rfl
@[simp] theorem State.publishR_hResp (v : Nat) : (s.publishR v).hResp = s.hResp :=
  rfl
@[simp] theorem State.publishR_pResp (v : Nat) : (s.publishR v).pResp = s.pResp :=
  rfl
@[simp] theorem State.publishR_cResp (v : Nat) : (s.publishR v).cResp = s.cResp :=
  rfl
@[simp] theorem State.publishR_out (v : Nat) : (s.publishR v).out = s.out :=
  rfl

/-! ### State.writeFrames -/

@[simp] theorem State.writeFrames_cap (beats : List Word) (k : Nat) : (s.writeFrames beats k).cap = s.cap :=
  rfl
@[simp] theorem State.writeFrames_rate (beats : List Word) (k : Nat) : (s.writeFrames beats k).rate = s.rate :=
  rfl
@[simp] theorem State.writeFrames_mem (beats : List Word) (k : Nat) : (s.writeFrames beats k).mem = memWriteBeats s.cap s.mem (s.wptr % s.cap) beats :=
  rfl
@[simp] theorem State.writeFrames_memGen (beats : List Word) (k : Nat) : (s.writeFrames beats k).memGen = s.memGen :=
  rfl
@[simp] theorem State.writeFrames_wptr (beats : List Word) (k : Nat) : (s.writeFrames beats k).wptr = cursorAdv s.cap s.wptr k :=
  rfl
@[simp] theorem State.writeFrames_rptr (beats : List Word) (k : Nat) : (s.writeFrames beats k).rptr = s.rptr :=
  rfl
@[simp] theorem State.writeFrames_wview (beats : List Word) (k : Nat) : (s.writeFrames beats k).wview = s.wview :=
  rfl
@[simp] theorem State.writeFrames_rview (beats : List Word) (k : Nat) : (s.writeFrames beats k).rview = s.rview :=
  rfl
@[simp] theorem State.writeFrames_volume (beats : List Word) (k : Nat) : (s.writeFrames beats k).volume = s.volume :=
  rfl
@[simp] theorem State.writeFrames_dropped (beats : List Word) (k : Nat) : (s.writeFrames beats k).dropped = s.dropped :=
  rfl
@[simp] theorem State.writeFrames_status (beats : List Word) (k : Nat) : (s.writeFrames beats k).status = s.status :=
  rfl
@[simp] theorem State.writeFrames_pSeq (beats : List Word) (k : Nat) : (s.writeFrames beats k).pSeq = s.pSeq :=
  rfl
@[simp] theorem State.writeFrames_cSeq (beats : List Word) (k : Nat) : (s.writeFrames beats k).cSeq = s.cSeq :=
  rfl
@[simp] theorem State.writeFrames_hIn (beats : List Word) (k : Nat) : (s.writeFrames beats k).hIn = s.hIn :=
  rfl
@[simp] theorem State.writeFrames_pIn (beats : List Word) (k : Nat) : (s.writeFrames beats k).pIn = s.pIn :=
  rfl
@[simp] theorem State.writeFrames_cIn (beats : List Word) (k : Nat) : (s.writeFrames beats k).cIn = s.cIn :=
  rfl
@[simp] theorem State.writeFrames_nanDraws (beats : List Word) (k : Nat) : (s.writeFrames beats k).nanDraws = s.nanDraws :=
  rfl
@[simp] theorem State.writeFrames_hCmds (beats : List Word) (k : Nat) : (s.writeFrames beats k).hCmds = s.hCmds :=
  rfl
@[simp] theorem State.writeFrames_pCmds (beats : List Word) (k : Nat) : (s.writeFrames beats k).pCmds = s.pCmds :=
  rfl
@[simp] theorem State.writeFrames_cCmds (beats : List Word) (k : Nat) : (s.writeFrames beats k).cCmds = s.cCmds :=
  rfl
@[simp] theorem State.writeFrames_hIssued (beats : List Word) (k : Nat) : (s.writeFrames beats k).hIssued = s.hIssued :=
  rfl
@[simp] theorem State.writeFrames_pIssued (beats : List Word) (k : Nat) : (s.writeFrames beats k).pIssued = s.pIssued :=
  rfl
@[simp] theorem State.writeFrames_cIssued (beats : List Word) (k : Nat) : (s.writeFrames beats k).cIssued = s.cIssued :=
  rfl
@[simp] theorem State.writeFrames_sched (beats : List Word) (k : Nat) : (s.writeFrames beats k).sched = s.sched :=
  rfl
@[simp] theorem State.writeFrames_hResp (beats : List Word) (k : Nat) : (s.writeFrames beats k).hResp = s.hResp :=
  rfl
@[simp] theorem State.writeFrames_pResp (beats : List Word) (k : Nat) : (s.writeFrames beats k).pResp = s.pResp :=
  rfl
@[simp] theorem State.writeFrames_cResp (beats : List Word) (k : Nat) : (s.writeFrames beats k).cResp = s.cResp :=
  rfl
@[simp] theorem State.writeFrames_out (beats : List Word) (k : Nat) : (s.writeFrames beats k).out = s.out :=
  rfl

/-! ### State.fatal -/

@[simp] theorem State.fatal_cap : s.fatal.cap = s.cap :=
  rfl
@[simp] theorem State.fatal_rate : s.fatal.rate = s.rate :=
  rfl
@[simp] theorem State.fatal_mem : s.fatal.mem = s.mem :=
  rfl
@[simp] theorem State.fatal_memGen : s.fatal.memGen = s.memGen :=
  rfl
@[simp] theorem State.fatal_wptr : s.fatal.wptr = s.wptr :=
  rfl
@[simp] theorem State.fatal_rptr : s.fatal.rptr = s.rptr :=
  rfl
@[simp] theorem State.fatal_wview : s.fatal.wview = s.wview :=
  rfl
@[simp] theorem State.fatal_rview : s.fatal.rview = s.rview :=
  rfl
@[simp] theorem State.fatal_volume : s.fatal.volume = s.volume :=
  rfl
@[simp] theorem State.fatal_dropped : s.fatal.dropped = s.dropped :=
  rfl
@[simp] theorem State.fatal_status : s.fatal.status = { s.status with lstate := .fatal } :=
  rfl
@[simp] theorem State.fatal_pSeq : s.fatal.pSeq = none :=
  rfl
@[simp] theorem State.fatal_cSeq : s.fatal.cSeq = none :=
  rfl
@[simp] theorem State.fatal_hIn : s.fatal.hIn = s.hIn :=
  rfl
@[simp] theorem State.fatal_pIn : s.fatal.pIn = s.pIn :=
  rfl
@[simp] theorem State.fatal_cIn : s.fatal.cIn = s.cIn :=
  rfl
@[simp] theorem State.fatal_nanDraws : s.fatal.nanDraws = s.nanDraws :=
  rfl
@[simp] theorem State.fatal_hCmds : s.fatal.hCmds = s.hCmds :=
  rfl
@[simp] theorem State.fatal_pCmds : s.fatal.pCmds = s.pCmds :=
  rfl
@[simp] theorem State.fatal_cCmds : s.fatal.cCmds = s.cCmds :=
  rfl
@[simp] theorem State.fatal_hIssued : s.fatal.hIssued = s.hIssued :=
  rfl
@[simp] theorem State.fatal_pIssued : s.fatal.pIssued = s.pIssued :=
  rfl
@[simp] theorem State.fatal_cIssued : s.fatal.cIssued = s.cIssued :=
  rfl
@[simp] theorem State.fatal_sched : s.fatal.sched = s.sched :=
  rfl
@[simp] theorem State.fatal_hResp : s.fatal.hResp = s.hResp :=
  rfl
@[simp] theorem State.fatal_pResp : s.fatal.pResp = s.pResp :=
  rfl
@[simp] theorem State.fatal_cResp : s.fatal.cResp = s.cResp :=
  rfl
@[simp] theorem State.fatal_out : s.fatal.out = s.out :=
  rfl

/-! ### State.setLState -/

@[simp] theorem State.setLState_cap (l : LState) : (s.setLState l).cap = s.cap :=
  rfl
@[simp] theorem State.setLState_rate (l : LState) : (s.setLState l).rate = s.rate :=
  rfl
@[simp] theorem State.setLState_mem (l : LState) : (s.setLState l).mem = s.mem :=
  rfl
@[simp] theorem State.setLState_memGen (l : LState) : (s.setLState l).memGen = s.memGen :=
  rfl
@[simp] theorem State.setLState_wptr (l : LState) : (s.setLState l).wptr = s.wptr :=
  rfl
@[simp] theorem State.setLState_rptr (l : LState) : (s.setLState l).rptr = s.rptr :=
  rfl
@[simp] theorem State.setLState_wview (l : LState) : (s.setLState l).wview = s.wview :=
  rfl
@[simp] theorem State.setLState_rview (l : LState) : (s.setLState l).rview = s.rview :=
  rfl
@[simp] theorem State.setLState_volume (l : LState) : (s.setLState l).volume = s.volume :=
  rfl
@[simp] theorem State.setLState_dropped (l : LState) : (s.setLState l).dropped = s.dropped :=
  rfl
@[simp] theorem State.setLState_status (l : LState) : (s.setLState l).status = { s.status with lstate := l } :=
  rfl
@[simp] theorem State.setLState_pSeq (l : LState) : (s.setLState l).pSeq = s.pSeq :=
  rfl
@[simp] theorem State.setLState_cSeq (l : LState) : (s.setLState l).cSeq = s.cSeq :=
  rfl
@[simp] theorem State.setLState_hIn (l : LState) : (s.setLState l).hIn = s.hIn :=
  rfl
@[simp] theorem State.setLState_pIn (l : LState) : (s.setLState l).pIn = s.pIn :=
  rfl
@[simp] theorem State.setLState_cIn (l : LState) : (s.setLState l).cIn = s.cIn :=
  rfl
@[simp] theorem State.setLState_nanDraws (l : LState) : (s.setLState l).nanDraws = s.nanDraws :=
  rfl
@[simp] theorem State.setLState_hCmds (l : LState) : (s.setLState l).hCmds = s.hCmds :=
  rfl
@[simp] theorem State.setLState_pCmds (l : LState) : (s.setLState l).pCmds = s.pCmds :=
  rfl
@[simp] theorem State.setLState_cCmds (l : LState) : (s.setLState l).cCmds = s.cCmds :=
  rfl
@[simp] theorem State.setLState_hIssued (l : LState) : (s.setLState l).hIssued = s.hIssued :=
  rfl
@[simp] theorem State.setLState_pIssued (l : LState) : (s.setLState l).pIssued = s.pIssued :=
  rfl
@[simp] theorem State.setLState_cIssued (l : LState) : (s.setLState l).cIssued = s.cIssued :=
  rfl
@[simp] theorem State.setLState_sched (l : LState) : (s.setLState l).sched = s.sched :=
  rfl
@[simp] theorem State.setLState_hResp (l : LState) : (s.setLState l).hResp = s.hResp :=
  rfl
@[simp] theorem State.setLState_pResp (l : LState) : (s.setLState l).pResp = s.pResp :=
  rfl
@[simp] theorem State.setLState_cResp (l : LState) : (s.setLState l).cResp = s.cResp :=
  rfl
@[simp] theorem State.setLState_out (l : LState) : (s.setLState l).out = s.out :=
  rfl

/-! ### State.setSched -/

@[simp] theorem State.setSched_cap (rest : List Choice) : (s.setSched rest).cap = s.cap :=
  rfl
@[simp] theorem State.setSched_rate (rest : List Choice) : (s.setSched rest).rate = s.rate :=
  rfl
@[simp] theorem State.setSched_mem (rest : List Choice) : (s.setSched rest).mem = s.mem :=
  rfl
@[simp] theorem State.setSched_memGen (rest : List Choice) : (s.setSched rest).memGen = s.memGen :=
  rfl
@[simp] theorem State.setSched_wptr (rest : List Choice) : (s.setSched rest).wptr = s.wptr :=
  rfl
@[simp] theorem State.setSched_rptr (rest : List Choice) : (s.setSched rest).rptr = s.rptr :=
  rfl
@[simp] theorem State.setSched_wview (rest : List Choice) : (s.setSched rest).wview = s.wview :=
  rfl
@[simp] theorem State.setSched_rview (rest : List Choice) : (s.setSched rest).rview = s.rview :=
  rfl
@[simp] theorem State.setSched_volume (rest : List Choice) : (s.setSched rest).volume = s.volume :=
  rfl
@[simp] theorem State.setSched_dropped (rest : List Choice) : (s.setSched rest).dropped = s.dropped :=
  rfl
@[simp] theorem State.setSched_status (rest : List Choice) : (s.setSched rest).status = s.status :=
  rfl
@[simp] theorem State.setSched_pSeq (rest : List Choice) : (s.setSched rest).pSeq = s.pSeq :=
  rfl
@[simp] theorem State.setSched_cSeq (rest : List Choice) : (s.setSched rest).cSeq = s.cSeq :=
  rfl
@[simp] theorem State.setSched_hIn (rest : List Choice) : (s.setSched rest).hIn = s.hIn :=
  rfl
@[simp] theorem State.setSched_pIn (rest : List Choice) : (s.setSched rest).pIn = s.pIn :=
  rfl
@[simp] theorem State.setSched_cIn (rest : List Choice) : (s.setSched rest).cIn = s.cIn :=
  rfl
@[simp] theorem State.setSched_nanDraws (rest : List Choice) : (s.setSched rest).nanDraws = s.nanDraws :=
  rfl
@[simp] theorem State.setSched_hCmds (rest : List Choice) : (s.setSched rest).hCmds = s.hCmds :=
  rfl
@[simp] theorem State.setSched_pCmds (rest : List Choice) : (s.setSched rest).pCmds = s.pCmds :=
  rfl
@[simp] theorem State.setSched_cCmds (rest : List Choice) : (s.setSched rest).cCmds = s.cCmds :=
  rfl
@[simp] theorem State.setSched_hIssued (rest : List Choice) : (s.setSched rest).hIssued = s.hIssued :=
  rfl
@[simp] theorem State.setSched_pIssued (rest : List Choice) : (s.setSched rest).pIssued = s.pIssued :=
  rfl
@[simp] theorem State.setSched_cIssued (rest : List Choice) : (s.setSched rest).cIssued = s.cIssued :=
  rfl
@[simp] theorem State.setSched_sched (rest : List Choice) : (s.setSched rest).sched = rest :=
  rfl
@[simp] theorem State.setSched_hResp (rest : List Choice) : (s.setSched rest).hResp = s.hResp :=
  rfl
@[simp] theorem State.setSched_pResp (rest : List Choice) : (s.setSched rest).pResp = s.pResp :=
  rfl
@[simp] theorem State.setSched_cResp (rest : List Choice) : (s.setSched rest).cResp = s.cResp :=
  rfl
@[simp] theorem State.setSched_out (rest : List Choice) : (s.setSched rest).out = s.out :=
  rfl

/-! ### State.setStatus -/

@[simp] theorem State.setStatus_cap (st : Status) : (s.setStatus st).cap = s.cap :=
  rfl
@[simp] theorem State.setStatus_rate (st : Status) : (s.setStatus st).rate = s.rate :=
  rfl
@[simp] theorem State.setStatus_mem (st : Status) : (s.setStatus st).mem = s.mem :=
  rfl
@[simp] theorem State.setStatus_memGen (st : Status) : (s.setStatus st).memGen = s.memGen :=
  rfl
@[simp] theorem State.setStatus_wptr (st : Status) : (s.setStatus st).wptr = s.wptr :=
  rfl
@[simp] theorem State.setStatus_rptr (st : Status) : (s.setStatus st).rptr = s.rptr :=
  rfl
@[simp] theorem State.setStatus_wview (st : Status) : (s.setStatus st).wview = s.wview :=
  rfl
@[simp] theorem State.setStatus_rview (st : Status) : (s.setStatus st).rview = s.rview :=
  rfl
@[simp] theorem State.setStatus_volume (st : Status) : (s.setStatus st).volume = s.volume :=
  rfl
@[simp] theorem State.setStatus_dropped (st : Status) : (s.setStatus st).dropped = s.dropped :=
  rfl
@[simp] theorem State.setStatus_status (st : Status) : (s.setStatus st).status = st :=
  rfl
@[simp] theorem State.setStatus_pSeq (st : Status) : (s.setStatus st).pSeq = s.pSeq :=
  rfl
@[simp] theorem State.setStatus_cSeq (st : Status) : (s.setStatus st).cSeq = s.cSeq :=
  rfl
@[simp] theorem State.setStatus_hIn (st : Status) : (s.setStatus st).hIn = s.hIn :=
  rfl
@[simp] theorem State.setStatus_pIn (st : Status) : (s.setStatus st).pIn = s.pIn :=
  rfl
@[simp] theorem State.setStatus_cIn (st : Status) : (s.setStatus st).cIn = s.cIn :=
  rfl
@[simp] theorem State.setStatus_nanDraws (st : Status) : (s.setStatus st).nanDraws = s.nanDraws :=
  rfl
@[simp] theorem State.setStatus_hCmds (st : Status) : (s.setStatus st).hCmds = s.hCmds :=
  rfl
@[simp] theorem State.setStatus_pCmds (st : Status) : (s.setStatus st).pCmds = s.pCmds :=
  rfl
@[simp] theorem State.setStatus_cCmds (st : Status) : (s.setStatus st).cCmds = s.cCmds :=
  rfl
@[simp] theorem State.setStatus_hIssued (st : Status) : (s.setStatus st).hIssued = s.hIssued :=
  rfl
@[simp] theorem State.setStatus_pIssued (st : Status) : (s.setStatus st).pIssued = s.pIssued :=
  rfl
@[simp] theorem State.setStatus_cIssued (st : Status) : (s.setStatus st).cIssued = s.cIssued :=
  rfl
@[simp] theorem State.setStatus_sched (st : Status) : (s.setStatus st).sched = s.sched :=
  rfl
@[simp] theorem State.setStatus_hResp (st : Status) : (s.setStatus st).hResp = s.hResp :=
  rfl
@[simp] theorem State.setStatus_pResp (st : Status) : (s.setStatus st).pResp = s.pResp :=
  rfl
@[simp] theorem State.setStatus_cResp (st : Status) : (s.setStatus st).cResp = s.cResp :=
  rfl
@[simp] theorem State.setStatus_out (st : Status) : (s.setStatus st).out = s.out :=
  rfl

/-! ### State.setVolume -/

@[simp] theorem State.setVolume_cap (v : Word) : (s.setVolume v).cap = s.cap :=
  rfl
@[simp] theorem State.setVolume_rate (v : Word) : (s.setVolume v).rate = s.rate :=
  rfl
@[simp] theorem State.setVolume_mem (v : Word) : (s.setVolume v).mem = s.mem :=
  rfl
@[simp] theorem State.setVolume_memGen (v : Word) : (s.setVolume v).memGen = s.memGen :=
  rfl
@[simp] theorem State.setVolume_wptr (v : Word) : (s.setVolume v).wptr = s.wptr :=
  rfl
@[simp] theorem State.setVolume_rptr (v : Word) : (s.setVolume v).rptr = s.rptr :=
  rfl
@[simp] theorem State.setVolume_wview (v : Word) : (s.setVolume v).wview = s.wview :=
  rfl
@[simp] theorem State.setVolume_rview (v : Word) : (s.setVolume v).rview = s.rview :=
  rfl
@[simp] theorem State.setVolume_volume (v : Word) : (s.setVolume v).volume = v :=
  rfl
@[simp] theorem State.setVolume_dropped (v : Word) : (s.setVolume v).dropped = s.dropped :=
  rfl
@[simp] theorem State.setVolume_status (v : Word) : (s.setVolume v).status = s.status :=
  rfl
@[simp] theorem State.setVolume_pSeq (v : Word) : (s.setVolume v).pSeq = s.pSeq :=
  rfl
@[simp] theorem State.setVolume_cSeq (v : Word) : (s.setVolume v).cSeq = s.cSeq :=
  rfl
@[simp] theorem State.setVolume_hIn (v : Word) : (s.setVolume v).hIn = s.hIn :=
  rfl
@[simp] theorem State.setVolume_pIn (v : Word) : (s.setVolume v).pIn = s.pIn :=
  rfl
@[simp] theorem State.setVolume_cIn (v : Word) : (s.setVolume v).cIn = s.cIn :=
  rfl
@[simp] theorem State.setVolume_nanDraws (v : Word) : (s.setVolume v).nanDraws = s.nanDraws :=
  rfl
@[simp] theorem State.setVolume_hCmds (v : Word) : (s.setVolume v).hCmds = s.hCmds :=
  rfl
@[simp] theorem State.setVolume_pCmds (v : Word) : (s.setVolume v).pCmds = s.pCmds :=
  rfl
@[simp] theorem State.setVolume_cCmds (v : Word) : (s.setVolume v).cCmds = s.cCmds :=
  rfl
@[simp] theorem State.setVolume_hIssued (v : Word) : (s.setVolume v).hIssued = s.hIssued :=
  rfl
@[simp] theorem State.setVolume_pIssued (v : Word) : (s.setVolume v).pIssued = s.pIssued :=
  rfl
@[simp] theorem State.setVolume_cIssued (v : Word) : (s.setVolume v).cIssued = s.cIssued :=
  rfl
@[simp] theorem State.setVolume_sched (v : Word) : (s.setVolume v).sched = s.sched :=
  rfl
@[simp] theorem State.setVolume_hResp (v : Word) : (s.setVolume v).hResp = s.hResp :=
  rfl
@[simp] theorem State.setVolume_pResp (v : Word) : (s.setVolume v).pResp = s.pResp :=
  rfl
@[simp] theorem State.setVolume_cResp (v : Word) : (s.setVolume v).cResp = s.cResp :=
  rfl
@[simp] theorem State.setVolume_out (v : Word) : (s.setVolume v).out = s.out :=
  rfl

/-! ### State.setDropped -/

@[simp] theorem State.setDropped_cap (v : Word) : (s.setDropped v).cap = s.cap :=
  rfl
@[simp] theorem State.setDropped_rate (v : Word) : (s.setDropped v).rate = s.rate :=
  rfl
@[simp] theorem State.setDropped_mem (v : Word) : (s.setDropped v).mem = s.mem :=
  rfl
@[simp] theorem State.setDropped_memGen (v : Word) : (s.setDropped v).memGen = s.memGen :=
  rfl
@[simp] theorem State.setDropped_wptr (v : Word) : (s.setDropped v).wptr = s.wptr :=
  rfl
@[simp] theorem State.setDropped_rptr (v : Word) : (s.setDropped v).rptr = s.rptr :=
  rfl
@[simp] theorem State.setDropped_wview (v : Word) : (s.setDropped v).wview = s.wview :=
  rfl
@[simp] theorem State.setDropped_rview (v : Word) : (s.setDropped v).rview = s.rview :=
  rfl
@[simp] theorem State.setDropped_volume (v : Word) : (s.setDropped v).volume = s.volume :=
  rfl
@[simp] theorem State.setDropped_dropped (v : Word) : (s.setDropped v).dropped = v :=
  rfl
@[simp] theorem State.setDropped_status (v : Word) : (s.setDropped v).status = s.status :=
  rfl
@[simp] theorem State.setDropped_pSeq (v : Word) : (s.setDropped v).pSeq = s.pSeq :=
  rfl
@[simp] theorem State.setDropped_cSeq (v : Word) : (s.setDropped v).cSeq = s.cSeq :=
  rfl
@[simp] theorem State.setDropped_hIn (v : Word) : (s.setDropped v).hIn = s.hIn :=
  rfl
@[simp] theorem State.setDropped_pIn (v : Word) : (s.setDropped v).pIn = s.pIn :=
  rfl
@[simp] theorem State.setDropped_cIn (v : Word) : (s.setDropped v).cIn = s.cIn :=
  rfl
@[simp] theorem State.setDropped_nanDraws (v : Word) : (s.setDropped v).nanDraws = s.nanDraws :=
  rfl
@[simp] theorem State.setDropped_hCmds (v : Word) : (s.setDropped v).hCmds = s.hCmds :=
  rfl
@[simp] theorem State.setDropped_pCmds (v : Word) : (s.setDropped v).pCmds = s.pCmds :=
  rfl
@[simp] theorem State.setDropped_cCmds (v : Word) : (s.setDropped v).cCmds = s.cCmds :=
  rfl
@[simp] theorem State.setDropped_hIssued (v : Word) : (s.setDropped v).hIssued = s.hIssued :=
  rfl
@[simp] theorem State.setDropped_pIssued (v : Word) : (s.setDropped v).pIssued = s.pIssued :=
  rfl
@[simp] theorem State.setDropped_cIssued (v : Word) : (s.setDropped v).cIssued = s.cIssued :=
  rfl
@[simp] theorem State.setDropped_sched (v : Word) : (s.setDropped v).sched = s.sched :=
  rfl
@[simp] theorem State.setDropped_hResp (v : Word) : (s.setDropped v).hResp = s.hResp :=
  rfl
@[simp] theorem State.setDropped_pResp (v : Word) : (s.setDropped v).pResp = s.pResp :=
  rfl
@[simp] theorem State.setDropped_cResp (v : Word) : (s.setDropped v).cResp = s.cResp :=
  rfl
@[simp] theorem State.setDropped_out (v : Word) : (s.setDropped v).out = s.out :=
  rfl

/-! ### State.setPlay -/

@[simp] theorem State.setPlay_cap (q : Option PlaySeq) : (s.setPlay q).cap = s.cap :=
  rfl
@[simp] theorem State.setPlay_rate (q : Option PlaySeq) : (s.setPlay q).rate = s.rate :=
  rfl
@[simp] theorem State.setPlay_mem (q : Option PlaySeq) : (s.setPlay q).mem = s.mem :=
  rfl
@[simp] theorem State.setPlay_memGen (q : Option PlaySeq) : (s.setPlay q).memGen = s.memGen :=
  rfl
@[simp] theorem State.setPlay_wptr (q : Option PlaySeq) : (s.setPlay q).wptr = s.wptr :=
  rfl
@[simp] theorem State.setPlay_rptr (q : Option PlaySeq) : (s.setPlay q).rptr = s.rptr :=
  rfl
@[simp] theorem State.setPlay_wview (q : Option PlaySeq) : (s.setPlay q).wview = s.wview :=
  rfl
@[simp] theorem State.setPlay_rview (q : Option PlaySeq) : (s.setPlay q).rview = s.rview :=
  rfl
@[simp] theorem State.setPlay_volume (q : Option PlaySeq) : (s.setPlay q).volume = s.volume :=
  rfl
@[simp] theorem State.setPlay_dropped (q : Option PlaySeq) : (s.setPlay q).dropped = s.dropped :=
  rfl
@[simp] theorem State.setPlay_status (q : Option PlaySeq) : (s.setPlay q).status = s.status :=
  rfl
@[simp] theorem State.setPlay_pSeq (q : Option PlaySeq) : (s.setPlay q).pSeq = q :=
  rfl
@[simp] theorem State.setPlay_cSeq (q : Option PlaySeq) : (s.setPlay q).cSeq = s.cSeq :=
  rfl
@[simp] theorem State.setPlay_hIn (q : Option PlaySeq) : (s.setPlay q).hIn = s.hIn :=
  rfl
@[simp] theorem State.setPlay_pIn (q : Option PlaySeq) : (s.setPlay q).pIn = s.pIn :=
  rfl
@[simp] theorem State.setPlay_cIn (q : Option PlaySeq) : (s.setPlay q).cIn = s.cIn :=
  rfl
@[simp] theorem State.setPlay_nanDraws (q : Option PlaySeq) : (s.setPlay q).nanDraws = s.nanDraws :=
  rfl
@[simp] theorem State.setPlay_hCmds (q : Option PlaySeq) : (s.setPlay q).hCmds = s.hCmds :=
  rfl
@[simp] theorem State.setPlay_pCmds (q : Option PlaySeq) : (s.setPlay q).pCmds = s.pCmds :=
  rfl
@[simp] theorem State.setPlay_cCmds (q : Option PlaySeq) : (s.setPlay q).cCmds = s.cCmds :=
  rfl
@[simp] theorem State.setPlay_hIssued (q : Option PlaySeq) : (s.setPlay q).hIssued = s.hIssued :=
  rfl
@[simp] theorem State.setPlay_pIssued (q : Option PlaySeq) : (s.setPlay q).pIssued = s.pIssued :=
  rfl
@[simp] theorem State.setPlay_cIssued (q : Option PlaySeq) : (s.setPlay q).cIssued = s.cIssued :=
  rfl
@[simp] theorem State.setPlay_sched (q : Option PlaySeq) : (s.setPlay q).sched = s.sched :=
  rfl
@[simp] theorem State.setPlay_hResp (q : Option PlaySeq) : (s.setPlay q).hResp = s.hResp :=
  rfl
@[simp] theorem State.setPlay_pResp (q : Option PlaySeq) : (s.setPlay q).pResp = s.pResp :=
  rfl
@[simp] theorem State.setPlay_cResp (q : Option PlaySeq) : (s.setPlay q).cResp = s.cResp :=
  rfl
@[simp] theorem State.setPlay_out (q : Option PlaySeq) : (s.setPlay q).out = s.out :=
  rfl

/-! ### State.setRender -/

@[simp] theorem State.setRender_cap (q : Option RenderSeq) : (s.setRender q).cap = s.cap :=
  rfl
@[simp] theorem State.setRender_rate (q : Option RenderSeq) : (s.setRender q).rate = s.rate :=
  rfl
@[simp] theorem State.setRender_mem (q : Option RenderSeq) : (s.setRender q).mem = s.mem :=
  rfl
@[simp] theorem State.setRender_memGen (q : Option RenderSeq) : (s.setRender q).memGen = s.memGen :=
  rfl
@[simp] theorem State.setRender_wptr (q : Option RenderSeq) : (s.setRender q).wptr = s.wptr :=
  rfl
@[simp] theorem State.setRender_rptr (q : Option RenderSeq) : (s.setRender q).rptr = s.rptr :=
  rfl
@[simp] theorem State.setRender_wview (q : Option RenderSeq) : (s.setRender q).wview = s.wview :=
  rfl
@[simp] theorem State.setRender_rview (q : Option RenderSeq) : (s.setRender q).rview = s.rview :=
  rfl
@[simp] theorem State.setRender_volume (q : Option RenderSeq) : (s.setRender q).volume = s.volume :=
  rfl
@[simp] theorem State.setRender_dropped (q : Option RenderSeq) : (s.setRender q).dropped = s.dropped :=
  rfl
@[simp] theorem State.setRender_status (q : Option RenderSeq) : (s.setRender q).status = s.status :=
  rfl
@[simp] theorem State.setRender_pSeq (q : Option RenderSeq) : (s.setRender q).pSeq = s.pSeq :=
  rfl
@[simp] theorem State.setRender_cSeq (q : Option RenderSeq) : (s.setRender q).cSeq = q :=
  rfl
@[simp] theorem State.setRender_hIn (q : Option RenderSeq) : (s.setRender q).hIn = s.hIn :=
  rfl
@[simp] theorem State.setRender_pIn (q : Option RenderSeq) : (s.setRender q).pIn = s.pIn :=
  rfl
@[simp] theorem State.setRender_cIn (q : Option RenderSeq) : (s.setRender q).cIn = s.cIn :=
  rfl
@[simp] theorem State.setRender_nanDraws (q : Option RenderSeq) : (s.setRender q).nanDraws = s.nanDraws :=
  rfl
@[simp] theorem State.setRender_hCmds (q : Option RenderSeq) : (s.setRender q).hCmds = s.hCmds :=
  rfl
@[simp] theorem State.setRender_pCmds (q : Option RenderSeq) : (s.setRender q).pCmds = s.pCmds :=
  rfl
@[simp] theorem State.setRender_cCmds (q : Option RenderSeq) : (s.setRender q).cCmds = s.cCmds :=
  rfl
@[simp] theorem State.setRender_hIssued (q : Option RenderSeq) : (s.setRender q).hIssued = s.hIssued :=
  rfl
@[simp] theorem State.setRender_pIssued (q : Option RenderSeq) : (s.setRender q).pIssued = s.pIssued :=
  rfl
@[simp] theorem State.setRender_cIssued (q : Option RenderSeq) : (s.setRender q).cIssued = s.cIssued :=
  rfl
@[simp] theorem State.setRender_sched (q : Option RenderSeq) : (s.setRender q).sched = s.sched :=
  rfl
@[simp] theorem State.setRender_hResp (q : Option RenderSeq) : (s.setRender q).hResp = s.hResp :=
  rfl
@[simp] theorem State.setRender_pResp (q : Option RenderSeq) : (s.setRender q).pResp = s.pResp :=
  rfl
@[simp] theorem State.setRender_cResp (q : Option RenderSeq) : (s.setRender q).cResp = s.cResp :=
  rfl
@[simp] theorem State.setRender_out (q : Option RenderSeq) : (s.setRender q).out = s.out :=
  rfl

/-! ### State.countConversions -/

@[simp] theorem State.countConversions_cap (n : Nat) : (s.countConversions n).cap = s.cap :=
  rfl
@[simp] theorem State.countConversions_rate (n : Nat) : (s.countConversions n).rate = s.rate :=
  rfl
@[simp] theorem State.countConversions_mem (n : Nat) : (s.countConversions n).mem = s.mem :=
  rfl
@[simp] theorem State.countConversions_memGen (n : Nat) : (s.countConversions n).memGen = s.memGen :=
  rfl
@[simp] theorem State.countConversions_wptr (n : Nat) : (s.countConversions n).wptr = s.wptr :=
  rfl
@[simp] theorem State.countConversions_rptr (n : Nat) : (s.countConversions n).rptr = s.rptr :=
  rfl
@[simp] theorem State.countConversions_wview (n : Nat) : (s.countConversions n).wview = s.wview :=
  rfl
@[simp] theorem State.countConversions_rview (n : Nat) : (s.countConversions n).rview = s.rview :=
  rfl
@[simp] theorem State.countConversions_volume (n : Nat) : (s.countConversions n).volume = s.volume :=
  rfl
@[simp] theorem State.countConversions_dropped (n : Nat) : (s.countConversions n).dropped = s.dropped :=
  rfl
@[simp] theorem State.countConversions_status (n : Nat) : (s.countConversions n).status = s.status :=
  rfl
@[simp] theorem State.countConversions_pSeq (n : Nat) : (s.countConversions n).pSeq = s.pSeq :=
  rfl
@[simp] theorem State.countConversions_cSeq (n : Nat) : (s.countConversions n).cSeq = s.cSeq :=
  rfl
@[simp] theorem State.countConversions_hIn (n : Nat) : (s.countConversions n).hIn = s.hIn :=
  rfl
@[simp] theorem State.countConversions_pIn (n : Nat) : (s.countConversions n).pIn = s.pIn :=
  rfl
@[simp] theorem State.countConversions_cIn (n : Nat) : (s.countConversions n).cIn = s.cIn :=
  rfl
@[simp] theorem State.countConversions_nanDraws (n : Nat) : (s.countConversions n).nanDraws = s.nanDraws + n :=
  rfl
@[simp] theorem State.countConversions_hCmds (n : Nat) : (s.countConversions n).hCmds = s.hCmds :=
  rfl
@[simp] theorem State.countConversions_pCmds (n : Nat) : (s.countConversions n).pCmds = s.pCmds :=
  rfl
@[simp] theorem State.countConversions_cCmds (n : Nat) : (s.countConversions n).cCmds = s.cCmds :=
  rfl
@[simp] theorem State.countConversions_hIssued (n : Nat) : (s.countConversions n).hIssued = s.hIssued :=
  rfl
@[simp] theorem State.countConversions_pIssued (n : Nat) : (s.countConversions n).pIssued = s.pIssued :=
  rfl
@[simp] theorem State.countConversions_cIssued (n : Nat) : (s.countConversions n).cIssued = s.cIssued :=
  rfl
@[simp] theorem State.countConversions_sched (n : Nat) : (s.countConversions n).sched = s.sched :=
  rfl
@[simp] theorem State.countConversions_hResp (n : Nat) : (s.countConversions n).hResp = s.hResp :=
  rfl
@[simp] theorem State.countConversions_pResp (n : Nat) : (s.countConversions n).pResp = s.pResp :=
  rfl
@[simp] theorem State.countConversions_cResp (n : Nat) : (s.countConversions n).cResp = s.cResp :=
  rfl
@[simp] theorem State.countConversions_out (n : Nat) : (s.countConversions n).out = s.out :=
  rfl

/-! ### State.emptyBuffer -/

@[simp] theorem State.emptyBuffer_cap : s.emptyBuffer.cap = s.cap :=
  rfl
@[simp] theorem State.emptyBuffer_rate : s.emptyBuffer.rate = s.rate :=
  rfl
@[simp] theorem State.emptyBuffer_mem : s.emptyBuffer.mem = [] :=
  rfl
@[simp] theorem State.emptyBuffer_memGen : s.emptyBuffer.memGen = s.memGen + 1 :=
  rfl
@[simp] theorem State.emptyBuffer_wptr : s.emptyBuffer.wptr = 0 :=
  rfl
@[simp] theorem State.emptyBuffer_rptr : s.emptyBuffer.rptr = 0 :=
  rfl
@[simp] theorem State.emptyBuffer_wview : s.emptyBuffer.wview = 0 :=
  rfl
@[simp] theorem State.emptyBuffer_rview : s.emptyBuffer.rview = 0 :=
  rfl
@[simp] theorem State.emptyBuffer_volume : s.emptyBuffer.volume = s.volume :=
  rfl
@[simp] theorem State.emptyBuffer_dropped : s.emptyBuffer.dropped = s.dropped :=
  rfl
@[simp] theorem State.emptyBuffer_status : s.emptyBuffer.status = s.status :=
  rfl
@[simp] theorem State.emptyBuffer_pSeq : s.emptyBuffer.pSeq = s.pSeq :=
  rfl
@[simp] theorem State.emptyBuffer_cSeq : s.emptyBuffer.cSeq = s.cSeq :=
  rfl
@[simp] theorem State.emptyBuffer_hIn : s.emptyBuffer.hIn = s.hIn :=
  rfl
@[simp] theorem State.emptyBuffer_pIn : s.emptyBuffer.pIn = s.pIn :=
  rfl
@[simp] theorem State.emptyBuffer_cIn : s.emptyBuffer.cIn = s.cIn :=
  rfl
@[simp] theorem State.emptyBuffer_nanDraws : s.emptyBuffer.nanDraws = s.nanDraws :=
  rfl
@[simp] theorem State.emptyBuffer_hCmds : s.emptyBuffer.hCmds = s.hCmds :=
  rfl
@[simp] theorem State.emptyBuffer_pCmds : s.emptyBuffer.pCmds = s.pCmds :=
  rfl
@[simp] theorem State.emptyBuffer_cCmds : s.emptyBuffer.cCmds = s.cCmds :=
  rfl
@[simp] theorem State.emptyBuffer_hIssued : s.emptyBuffer.hIssued = s.hIssued :=
  rfl
@[simp] theorem State.emptyBuffer_pIssued : s.emptyBuffer.pIssued = s.pIssued :=
  rfl
@[simp] theorem State.emptyBuffer_cIssued : s.emptyBuffer.cIssued = s.cIssued :=
  rfl
@[simp] theorem State.emptyBuffer_sched : s.emptyBuffer.sched = s.sched :=
  rfl
@[simp] theorem State.emptyBuffer_hResp : s.emptyBuffer.hResp = s.hResp :=
  rfl
@[simp] theorem State.emptyBuffer_pResp : s.emptyBuffer.pResp = s.pResp :=
  rfl
@[simp] theorem State.emptyBuffer_cResp : s.emptyBuffer.cResp = s.cResp :=
  rfl
@[simp] theorem State.emptyBuffer_out : s.emptyBuffer.out = s.out :=
  rfl

/-! ### State.syncW -/

@[simp] theorem State.syncW_cap (d : Nat) : (s.syncW d).cap = s.cap :=
  by unfold State.syncW; split <;> rfl
@[simp] theorem State.syncW_rate (d : Nat) : (s.syncW d).rate = s.rate :=
  by unfold State.syncW; split <;> rfl
@[simp] theorem State.syncW_mem (d : Nat) : (s.syncW d).mem = s.mem :=
  by unfold State.syncW; split <;> rfl
@[simp] theorem State.syncW_memGen (d : Nat) : (s.syncW d).memGen = s.memGen :=
  by unfold State.syncW; split <;> rfl
@[simp] theorem State.syncW_wptr (d : Nat) : (s.syncW d).wptr = s.wptr :=
  by unfold State.syncW; split <;> rfl
@[simp] theorem State.syncW_rptr (d : Nat) : (s.syncW d).rptr = s.rptr :=
  by unfold State.syncW; split <;> rfl
@[simp] theorem State.syncW_rview (d : Nat) : (s.syncW d).rview = s.rview :=
  by unfold State.syncW; split <;> rfl
@[simp] theorem State.syncW_volume (d : Nat) : (s.syncW d).volume = s.volume :=
  by unfold State.syncW; split <;> rfl
@[simp] theorem State.syncW_dropped (d : Nat) : (s.syncW d).dropped = s.dropped :=
  by unfold State.syncW; split <;> rfl
@[simp] theorem State.syncW_status (d : Nat) : (s.syncW d).status = s.status :=
  by unfold State.syncW; split <;> rfl
@[simp] theorem State.syncW_pSeq (d : Nat) : (s.syncW d).pSeq = s.pSeq :=
  by unfold State.syncW; split <;> rfl
@[simp] theorem State.syncW_cSeq (d : Nat) : (s.syncW d).cSeq = s.cSeq :=
  by unfold State.syncW; split <;> rfl
@[simp] theorem State.syncW_hIn (d : Nat) : (s.syncW d).hIn = s.hIn :=
  by unfold State.syncW; split <;> rfl
@[simp] theorem State.syncW_pIn (d : Nat) : (s.syncW d).pIn = s.pIn :=
  by unfold State.syncW; split <;> rfl
@[simp] theorem State.syncW_cIn (d : Nat) : (s.syncW d).cIn = s.cIn :=
  by unfold State.syncW; split <;> rfl
@[simp] theorem State.syncW_nanDraws (d : Nat) : (s.syncW d).nanDraws = s.nanDraws :=
  by unfold State.syncW; split <;> rfl
@[simp] theorem State.syncW_hCmds (d : Nat) : (s.syncW d).hCmds = s.hCmds :=
  by unfold State.syncW; split <;> rfl
@[simp] theorem State.syncW_pCmds (d : Nat) : (s.syncW d).pCmds = s.pCmds :=
  by unfold State.syncW; split <;> rfl
@[simp] theorem State.syncW_cCmds (d : Nat) : (s.syncW d).cCmds = s.cCmds :=
  by unfold State.syncW; split <;> rfl
@[simp] theorem State.syncW_hIssued (d : Nat) : (s.syncW d).hIssued = s.hIssued :=
  by unfold State.syncW; split <;> rfl
@[simp] theorem State.syncW_pIssued (d : Nat) : (s.syncW d).pIssued = s.pIssued :=
  by unfold State.syncW; split <;> rfl
@[simp] theorem State.syncW_cIssued (d : Nat) : (s.syncW d).cIssued = s.cIssued :=
  by unfold State.syncW; split <;> rfl
@[simp] theorem State.syncW_sched (d : Nat) : (s.syncW d).sched = s.sched :=
  by unfold State.syncW; split <;> rfl
@[simp] theorem State.syncW_hResp (d : Nat) : (s.syncW d).hResp = s.hResp :=
  by unfold State.syncW; split <;> rfl
@[simp] theorem State.syncW_pResp (d : Nat) : (s.syncW d).pResp = s.pResp :=
  by unfold State.syncW; split <;> rfl
@[simp] theorem State.syncW_cResp (d : Nat) : (s.syncW d).cResp = s.cResp :=
  by unfold State.syncW; split <;> rfl
@[simp] theorem State.syncW_out (d : Nat) : (s.syncW d).out = s.out :=
  by unfold State.syncW; split <;> rfl

/-! ### State.syncR -/

@[simp] theorem State.syncR_cap (d : Nat) : (s.syncR d).cap = s.cap :=
  by unfold State.syncR; split <;> rfl
@[simp] theorem State.syncR_rate (d : Nat) : (s.syncR d).rate = s.rate :=
  by unfold State.syncR; split <;> rfl
@[simp] theorem State.syncR_mem (d : Nat) : (s.syncR d).mem = s.mem :=
  by unfold State.syncR; split <;> rfl
@[simp] theorem State.syncR_memGen (d : Nat) : (s.syncR d).memGen = s.memGen :=
  by unfold State.syncR; split <;> rfl
@[simp] theorem State.syncR_wptr (d : Nat) : (s.syncR d).wptr = s.wptr :=
  by unfold State.syncR; split <;> rfl
@[simp] theorem State.syncR_rptr (d : Nat) : (s.syncR d).rptr = s.rptr :=
  by unfold State.syncR; split <;> rfl
@[simp] theorem State.syncR_wview (d : Nat) : (s.syncR d).wview = s.wview :=
  by unfold State.syncR; split <;> rfl
@[simp] theorem State.syncR_volume (d : Nat) : (s.syncR d).volume = s.volume :=
  by unfold State.syncR; split <;> rfl
@[simp] theorem State.syncR_dropped (d : Nat) : (s.syncR d).dropped = s.dropped :=
  by unfold State.syncR; split <;> rfl
@[simp] theorem State.syncR_status (d : Nat) : (s.syncR d).status = s.status :=
  by unfold State.syncR; split <;> rfl
@[simp] theorem State.syncR_pSeq (d : Nat) : (s.syncR d).pSeq = s.pSeq :=
  by unfold State.syncR; split <;> rfl
@[simp] theorem State.syncR_cSeq (d : Nat) : (s.syncR d).cSeq = s.cSeq :=
  by unfold State.syncR; split <;> rfl
@[simp] theorem State.syncR_hIn (d : Nat) : (s.syncR d).hIn = s.hIn :=
  by unfold State.syncR; split <;> rfl
@[simp] theorem State.syncR_pIn (d : Nat) : (s.syncR d).pIn = s.pIn :=
  by unfold State.syncR; split <;> rfl
@[simp] theorem State.syncR_cIn (d : Nat) : (s.syncR d).cIn = s.cIn :=
  by unfold State.syncR; split <;> rfl
@[simp] theorem State.syncR_nanDraws (d : Nat) : (s.syncR d).nanDraws = s.nanDraws :=
  by unfold State.syncR; split <;> rfl
@[simp] theorem State.syncR_hCmds (d : Nat) : (s.syncR d).hCmds = s.hCmds :=
  by unfold State.syncR; split <;> rfl
@[simp] theorem State.syncR_pCmds (d : Nat) : (s.syncR d).pCmds = s.pCmds :=
  by unfold State.syncR; split <;> rfl
@[simp] theorem State.syncR_cCmds (d : Nat) : (s.syncR d).cCmds = s.cCmds :=
  by unfold State.syncR; split <;> rfl
@[simp] theorem State.syncR_hIssued (d : Nat) : (s.syncR d).hIssued = s.hIssued :=
  by unfold State.syncR; split <;> rfl
@[simp] theorem State.syncR_pIssued (d : Nat) : (s.syncR d).pIssued = s.pIssued :=
  by unfold State.syncR; split <;> rfl
@[simp] theorem State.syncR_cIssued (d : Nat) : (s.syncR d).cIssued = s.cIssued :=
  by unfold State.syncR; split <;> rfl
@[simp] theorem State.syncR_sched (d : Nat) : (s.syncR d).sched = s.sched :=
  by unfold State.syncR; split <;> rfl
@[simp] theorem State.syncR_hResp (d : Nat) : (s.syncR d).hResp = s.hResp :=
  by unfold State.syncR; split <;> rfl
@[simp] theorem State.syncR_pResp (d : Nat) : (s.syncR d).pResp = s.pResp :=
  by unfold State.syncR; split <;> rfl
@[simp] theorem State.syncR_cResp (d : Nat) : (s.syncR d).cResp = s.cResp :=
  by unfold State.syncR; split <;> rfl
@[simp] theorem State.syncR_out (d : Nat) : (s.syncR d).out = s.out :=
  by unfold State.syncR; split <;> rfl

/-! ### State.issueView -/

@[simp] theorem State.issueView_cap (port : Port) (seen : Bool) : (s.issueView port seen).cap = s.cap :=
  by cases port <;> first | rfl | (unfold State.issueView; dsimp only; split <;> rfl)
@[simp] theorem State.issueView_rate (port : Port) (seen : Bool) : (s.issueView port seen).rate = s.rate :=
  by cases port <;> first | rfl | (unfold State.issueView; dsimp only; split <;> rfl)
@[simp] theorem State.issueView_mem (port : Port) (seen : Bool) : (s.issueView port seen).mem = s.mem :=
  by cases port <;> first | rfl | (unfold State.issueView; dsimp only; split <;> rfl)
@[simp] theorem State.issueView_memGen (port : Port) (seen : Bool) : (s.issueView port seen).memGen = s.memGen :=
  by cases port <;> first | rfl | (unfold State.issueView; dsimp only; split <;> rfl)
@[simp] theorem State.issueView_wptr (port : Port) (seen : Bool) : (s.issueView port seen).wptr = s.wptr :=
  by cases port <;> first | rfl | (unfold State.issueView; dsimp only; split <;> rfl)
@[simp] theorem State.issueView_rptr (port : Port) (seen : Bool) : (s.issueView port seen).rptr = s.rptr :=
  by cases port <;> first | rfl | (unfold State.issueView; dsimp only; split <;> rfl)
@[simp] theorem State.issueView_volume (port : Port) (seen : Bool) : (s.issueView port seen).volume = s.volume :=
  by cases port <;> first | rfl | (unfold State.issueView; dsimp only; split <;> rfl)
@[simp] theorem State.issueView_dropped (port : Port) (seen : Bool) : (s.issueView port seen).dropped = s.dropped :=
  by cases port <;> first | rfl | (unfold State.issueView; dsimp only; split <;> rfl)
@[simp] theorem State.issueView_status (port : Port) (seen : Bool) : (s.issueView port seen).status = s.status :=
  by cases port <;> first | rfl | (unfold State.issueView; dsimp only; split <;> rfl)
@[simp] theorem State.issueView_pSeq (port : Port) (seen : Bool) : (s.issueView port seen).pSeq = s.pSeq :=
  by cases port <;> first | rfl | (unfold State.issueView; dsimp only; split <;> rfl)
@[simp] theorem State.issueView_cSeq (port : Port) (seen : Bool) : (s.issueView port seen).cSeq = s.cSeq :=
  by cases port <;> first | rfl | (unfold State.issueView; dsimp only; split <;> rfl)
@[simp] theorem State.issueView_hIn (port : Port) (seen : Bool) : (s.issueView port seen).hIn = s.hIn :=
  by cases port <;> first | rfl | (unfold State.issueView; dsimp only; split <;> rfl)
@[simp] theorem State.issueView_pIn (port : Port) (seen : Bool) : (s.issueView port seen).pIn = s.pIn :=
  by cases port <;> first | rfl | (unfold State.issueView; dsimp only; split <;> rfl)
@[simp] theorem State.issueView_cIn (port : Port) (seen : Bool) : (s.issueView port seen).cIn = s.cIn :=
  by cases port <;> first | rfl | (unfold State.issueView; dsimp only; split <;> rfl)
@[simp] theorem State.issueView_nanDraws (port : Port) (seen : Bool) : (s.issueView port seen).nanDraws = s.nanDraws :=
  by cases port <;> first | rfl | (unfold State.issueView; dsimp only; split <;> rfl)
@[simp] theorem State.issueView_hCmds (port : Port) (seen : Bool) : (s.issueView port seen).hCmds = s.hCmds :=
  by cases port <;> first | rfl | (unfold State.issueView; dsimp only; split <;> rfl)
@[simp] theorem State.issueView_pCmds (port : Port) (seen : Bool) : (s.issueView port seen).pCmds = s.pCmds :=
  by cases port <;> first | rfl | (unfold State.issueView; dsimp only; split <;> rfl)
@[simp] theorem State.issueView_cCmds (port : Port) (seen : Bool) : (s.issueView port seen).cCmds = s.cCmds :=
  by cases port <;> first | rfl | (unfold State.issueView; dsimp only; split <;> rfl)
@[simp] theorem State.issueView_hIssued (port : Port) (seen : Bool) : (s.issueView port seen).hIssued = s.hIssued :=
  by cases port <;> first | rfl | (unfold State.issueView; dsimp only; split <;> rfl)
@[simp] theorem State.issueView_pIssued (port : Port) (seen : Bool) : (s.issueView port seen).pIssued = s.pIssued :=
  by cases port <;> first | rfl | (unfold State.issueView; dsimp only; split <;> rfl)
@[simp] theorem State.issueView_cIssued (port : Port) (seen : Bool) : (s.issueView port seen).cIssued = s.cIssued :=
  by cases port <;> first | rfl | (unfold State.issueView; dsimp only; split <;> rfl)
@[simp] theorem State.issueView_sched (port : Port) (seen : Bool) : (s.issueView port seen).sched = s.sched :=
  by cases port <;> first | rfl | (unfold State.issueView; dsimp only; split <;> rfl)
@[simp] theorem State.issueView_hResp (port : Port) (seen : Bool) : (s.issueView port seen).hResp = s.hResp :=
  by cases port <;> first | rfl | (unfold State.issueView; dsimp only; split <;> rfl)
@[simp] theorem State.issueView_pResp (port : Port) (seen : Bool) : (s.issueView port seen).pResp = s.pResp :=
  by cases port <;> first | rfl | (unfold State.issueView; dsimp only; split <;> rfl)
@[simp] theorem State.issueView_cResp (port : Port) (seen : Bool) : (s.issueView port seen).cResp = s.cResp :=
  by cases port <;> first | rfl | (unfold State.issueView; dsimp only; split <;> rfl)
@[simp] theorem State.issueView_out (port : Port) (seen : Bool) : (s.issueView port seen).out = s.out :=
  by cases port <;> first | rfl | (unfold State.issueView; dsimp only; split <;> rfl)

/-! ### State.deliver -/

@[simp] theorem State.deliver_cap (port : Port) (payload : List Word) : (s.deliver port payload).cap = s.cap :=
  by cases port <;> rfl
@[simp] theorem State.deliver_rate (port : Port) (payload : List Word) : (s.deliver port payload).rate = s.rate :=
  by cases port <;> rfl
@[simp] theorem State.deliver_mem (port : Port) (payload : List Word) : (s.deliver port payload).mem = s.mem :=
  by cases port <;> rfl
@[simp] theorem State.deliver_memGen (port : Port) (payload : List Word) : (s.deliver port payload).memGen = s.memGen :=
  by cases port <;> rfl
@[simp] theorem State.deliver_wptr (port : Port) (payload : List Word) : (s.deliver port payload).wptr = s.wptr :=
  by cases port <;> rfl
@[simp] theorem State.deliver_rptr (port : Port) (payload : List Word) : (s.deliver port payload).rptr = s.rptr :=
  by cases port <;> rfl
@[simp] theorem State.deliver_wview (port : Port) (payload : List Word) : (s.deliver port payload).wview = s.wview :=
  by cases port <;> rfl
@[simp] theorem State.deliver_rview (port : Port) (payload : List Word) : (s.deliver port payload).rview = s.rview :=
  by cases port <;> rfl
@[simp] theorem State.deliver_volume (port : Port) (payload : List Word) : (s.deliver port payload).volume = s.volume :=
  by cases port <;> rfl
@[simp] theorem State.deliver_dropped (port : Port) (payload : List Word) : (s.deliver port payload).dropped = s.dropped :=
  by cases port <;> rfl
@[simp] theorem State.deliver_status (port : Port) (payload : List Word) : (s.deliver port payload).status = s.status :=
  by cases port <;> rfl
@[simp] theorem State.deliver_pSeq (port : Port) (payload : List Word) : (s.deliver port payload).pSeq = s.pSeq :=
  by cases port <;> rfl
@[simp] theorem State.deliver_cSeq (port : Port) (payload : List Word) : (s.deliver port payload).cSeq = s.cSeq :=
  by cases port <;> rfl
@[simp] theorem State.deliver_nanDraws (port : Port) (payload : List Word) : (s.deliver port payload).nanDraws = s.nanDraws :=
  by cases port <;> rfl
@[simp] theorem State.deliver_hCmds (port : Port) (payload : List Word) : (s.deliver port payload).hCmds = s.hCmds :=
  by cases port <;> rfl
@[simp] theorem State.deliver_pCmds (port : Port) (payload : List Word) : (s.deliver port payload).pCmds = s.pCmds :=
  by cases port <;> rfl
@[simp] theorem State.deliver_cCmds (port : Port) (payload : List Word) : (s.deliver port payload).cCmds = s.cCmds :=
  by cases port <;> rfl
@[simp] theorem State.deliver_hIssued (port : Port) (payload : List Word) : (s.deliver port payload).hIssued = s.hIssued :=
  by cases port <;> rfl
@[simp] theorem State.deliver_pIssued (port : Port) (payload : List Word) : (s.deliver port payload).pIssued = s.pIssued :=
  by cases port <;> rfl
@[simp] theorem State.deliver_cIssued (port : Port) (payload : List Word) : (s.deliver port payload).cIssued = s.cIssued :=
  by cases port <;> rfl
@[simp] theorem State.deliver_sched (port : Port) (payload : List Word) : (s.deliver port payload).sched = s.sched :=
  by cases port <;> rfl
@[simp] theorem State.deliver_hResp (port : Port) (payload : List Word) : (s.deliver port payload).hResp = s.hResp :=
  by cases port <;> rfl
@[simp] theorem State.deliver_pResp (port : Port) (payload : List Word) : (s.deliver port payload).pResp = s.pResp :=
  by cases port <;> rfl
@[simp] theorem State.deliver_cResp (port : Port) (payload : List Word) : (s.deliver port payload).cResp = s.cResp :=
  by cases port <;> rfl
@[simp] theorem State.deliver_out (port : Port) (payload : List Word) : (s.deliver port payload).out = s.out :=
  by cases port <;> rfl

/-! ### State.setCmds -/

@[simp] theorem State.setCmds_cap (port : Port) (q : List Command) : (s.setCmds port q).cap = s.cap :=
  by cases port <;> rfl
@[simp] theorem State.setCmds_rate (port : Port) (q : List Command) : (s.setCmds port q).rate = s.rate :=
  by cases port <;> rfl
@[simp] theorem State.setCmds_mem (port : Port) (q : List Command) : (s.setCmds port q).mem = s.mem :=
  by cases port <;> rfl
@[simp] theorem State.setCmds_memGen (port : Port) (q : List Command) : (s.setCmds port q).memGen = s.memGen :=
  by cases port <;> rfl
@[simp] theorem State.setCmds_wptr (port : Port) (q : List Command) : (s.setCmds port q).wptr = s.wptr :=
  by cases port <;> rfl
@[simp] theorem State.setCmds_rptr (port : Port) (q : List Command) : (s.setCmds port q).rptr = s.rptr :=
  by cases port <;> rfl
@[simp] theorem State.setCmds_wview (port : Port) (q : List Command) : (s.setCmds port q).wview = s.wview :=
  by cases port <;> rfl
@[simp] theorem State.setCmds_rview (port : Port) (q : List Command) : (s.setCmds port q).rview = s.rview :=
  by cases port <;> rfl
@[simp] theorem State.setCmds_volume (port : Port) (q : List Command) : (s.setCmds port q).volume = s.volume :=
  by cases port <;> rfl
@[simp] theorem State.setCmds_dropped (port : Port) (q : List Command) : (s.setCmds port q).dropped = s.dropped :=
  by cases port <;> rfl
@[simp] theorem State.setCmds_status (port : Port) (q : List Command) : (s.setCmds port q).status = s.status :=
  by cases port <;> rfl
@[simp] theorem State.setCmds_pSeq (port : Port) (q : List Command) : (s.setCmds port q).pSeq = s.pSeq :=
  by cases port <;> rfl
@[simp] theorem State.setCmds_cSeq (port : Port) (q : List Command) : (s.setCmds port q).cSeq = s.cSeq :=
  by cases port <;> rfl
@[simp] theorem State.setCmds_hIn (port : Port) (q : List Command) : (s.setCmds port q).hIn = s.hIn :=
  by cases port <;> rfl
@[simp] theorem State.setCmds_pIn (port : Port) (q : List Command) : (s.setCmds port q).pIn = s.pIn :=
  by cases port <;> rfl
@[simp] theorem State.setCmds_cIn (port : Port) (q : List Command) : (s.setCmds port q).cIn = s.cIn :=
  by cases port <;> rfl
@[simp] theorem State.setCmds_nanDraws (port : Port) (q : List Command) : (s.setCmds port q).nanDraws = s.nanDraws :=
  by cases port <;> rfl
@[simp] theorem State.setCmds_hIssued (port : Port) (q : List Command) : (s.setCmds port q).hIssued = s.hIssued :=
  by cases port <;> rfl
@[simp] theorem State.setCmds_pIssued (port : Port) (q : List Command) : (s.setCmds port q).pIssued = s.pIssued :=
  by cases port <;> rfl
@[simp] theorem State.setCmds_cIssued (port : Port) (q : List Command) : (s.setCmds port q).cIssued = s.cIssued :=
  by cases port <;> rfl
@[simp] theorem State.setCmds_sched (port : Port) (q : List Command) : (s.setCmds port q).sched = s.sched :=
  by cases port <;> rfl
@[simp] theorem State.setCmds_hResp (port : Port) (q : List Command) : (s.setCmds port q).hResp = s.hResp :=
  by cases port <;> rfl
@[simp] theorem State.setCmds_pResp (port : Port) (q : List Command) : (s.setCmds port q).pResp = s.pResp :=
  by cases port <;> rfl
@[simp] theorem State.setCmds_cResp (port : Port) (q : List Command) : (s.setCmds port q).cResp = s.cResp :=
  by cases port <;> rfl
@[simp] theorem State.setCmds_out (port : Port) (q : List Command) : (s.setCmds port q).out = s.out :=
  by cases port <;> rfl

/-! ### State.countIssued -/

@[simp] theorem State.countIssued_cap (port : Port) : (s.countIssued port).cap = s.cap :=
  by cases port <;> rfl
@[simp] theorem State.countIssued_rate (port : Port) : (s.countIssued port).rate = s.rate :=
  by cases port <;> rfl
@[simp] theorem State.countIssued_mem (port : Port) : (s.countIssued port).mem = s.mem :=
  by cases port <;> rfl
@[simp] theorem State.countIssued_memGen (port : Port) : (s.countIssued port).memGen = s.memGen :=
  by cases port <;> rfl
@[simp] theorem State.countIssued_wptr (port : Port) : (s.countIssued port).wptr = s.wptr :=
  by cases port <;> rfl
@[simp] theorem State.countIssued_rptr (port : Port) : (s.countIssued port).rptr = s.rptr :=
  by cases port <;> rfl
@[simp] theorem State.countIssued_wview (port : Port) : (s.countIssued port).wview = s.wview :=
  by cases port <;> rfl
@[simp] theorem State.countIssued_rview (port : Port) : (s.countIssued port).rview = s.rview :=
  by cases port <;> rfl
@[simp] theorem State.countIssued_volume (port : Port) : (s.countIssued port).volume = s.volume :=
  by cases port <;> rfl
@[simp] theorem State.countIssued_dropped (port : Port) : (s.countIssued port).dropped = s.dropped :=
  by cases port <;> rfl
@[simp] theorem State.countIssued_status (port : Port) : (s.countIssued port).status = s.status :=
  by cases port <;> rfl
@[simp] theorem State.countIssued_pSeq (port : Port) : (s.countIssued port).pSeq = s.pSeq :=
  by cases port <;> rfl
@[simp] theorem State.countIssued_cSeq (port : Port) : (s.countIssued port).cSeq = s.cSeq :=
  by cases port <;> rfl
@[simp] theorem State.countIssued_hIn (port : Port) : (s.countIssued port).hIn = s.hIn :=
  by cases port <;> rfl
@[simp] theorem State.countIssued_pIn (port : Port) : (s.countIssued port).pIn = s.pIn :=
  by cases port <;> rfl
@[simp] theorem State.countIssued_cIn (port : Port) : (s.countIssued port).cIn = s.cIn :=
  by cases port <;> rfl
@[simp] theorem State.countIssued_nanDraws (port : Port) : (s.countIssued port).nanDraws = s.nanDraws :=
  by cases port <;> rfl
@[simp] theorem State.countIssued_hCmds (port : Port) : (s.countIssued port).hCmds = s.hCmds :=
  by cases port <;> rfl
@[simp] theorem State.countIssued_pCmds (port : Port) : (s.countIssued port).pCmds = s.pCmds :=
  by cases port <;> rfl
@[simp] theorem State.countIssued_cCmds (port : Port) : (s.countIssued port).cCmds = s.cCmds :=
  by cases port <;> rfl
@[simp] theorem State.countIssued_sched (port : Port) : (s.countIssued port).sched = s.sched :=
  by cases port <;> rfl
@[simp] theorem State.countIssued_hResp (port : Port) : (s.countIssued port).hResp = s.hResp :=
  by cases port <;> rfl
@[simp] theorem State.countIssued_pResp (port : Port) : (s.countIssued port).pResp = s.pResp :=
  by cases port <;> rfl
@[simp] theorem State.countIssued_cResp (port : Port) : (s.countIssued port).cResp = s.cResp :=
  by cases port <;> rfl
@[simp] theorem State.countIssued_out (port : Port) : (s.countIssued port).out = s.out :=
  by cases port <;> rfl

/-! ### State.resetEvent -/

@[simp] theorem State.resetEvent_cap : s.resetEvent.cap = s.cap :=
  rfl
@[simp] theorem State.resetEvent_rate : s.resetEvent.rate = s.rate :=
  rfl
@[simp] theorem State.resetEvent_mem : s.resetEvent.mem = State.reset.mem :=
  rfl
@[simp] theorem State.resetEvent_memGen : s.resetEvent.memGen = s.memGen + 1 :=
  rfl
@[simp] theorem State.resetEvent_wptr : s.resetEvent.wptr = State.reset.wptr :=
  rfl
@[simp] theorem State.resetEvent_rptr : s.resetEvent.rptr = State.reset.rptr :=
  rfl
@[simp] theorem State.resetEvent_wview : s.resetEvent.wview = State.reset.wview :=
  rfl
@[simp] theorem State.resetEvent_rview : s.resetEvent.rview = State.reset.rview :=
  rfl
@[simp] theorem State.resetEvent_volume : s.resetEvent.volume = State.reset.volume :=
  rfl
@[simp] theorem State.resetEvent_dropped : s.resetEvent.dropped = State.reset.dropped :=
  rfl
@[simp] theorem State.resetEvent_status : s.resetEvent.status = State.reset.status :=
  rfl
@[simp] theorem State.resetEvent_pSeq : s.resetEvent.pSeq = State.reset.pSeq :=
  rfl
@[simp] theorem State.resetEvent_cSeq : s.resetEvent.cSeq = State.reset.cSeq :=
  rfl
@[simp] theorem State.resetEvent_hIn : s.resetEvent.hIn = State.reset.hIn :=
  rfl
@[simp] theorem State.resetEvent_pIn : s.resetEvent.pIn = State.reset.pIn :=
  rfl
@[simp] theorem State.resetEvent_cIn : s.resetEvent.cIn = State.reset.cIn :=
  rfl
@[simp] theorem State.resetEvent_nanDraws : s.resetEvent.nanDraws = s.nanDraws :=
  rfl
@[simp] theorem State.resetEvent_hCmds : s.resetEvent.hCmds = s.hCmds :=
  rfl
@[simp] theorem State.resetEvent_pCmds : s.resetEvent.pCmds = s.pCmds :=
  rfl
@[simp] theorem State.resetEvent_cCmds : s.resetEvent.cCmds = s.cCmds :=
  rfl
@[simp] theorem State.resetEvent_hIssued : s.resetEvent.hIssued = s.hIssued :=
  rfl
@[simp] theorem State.resetEvent_pIssued : s.resetEvent.pIssued = s.pIssued :=
  rfl
@[simp] theorem State.resetEvent_cIssued : s.resetEvent.cIssued = s.cIssued :=
  rfl
@[simp] theorem State.resetEvent_sched : s.resetEvent.sched = s.sched :=
  rfl
@[simp] theorem State.resetEvent_hResp : s.resetEvent.hResp = s.hResp :=
  rfl
@[simp] theorem State.resetEvent_pResp : s.resetEvent.pResp = s.pResp :=
  rfl
@[simp] theorem State.resetEvent_cResp : s.resetEvent.cResp = s.cResp :=
  rfl
@[simp] theorem State.resetEvent_out : s.resetEvent.out = s.out :=
  rfl

/-! ### What a response writes on its own port and leaves on the others -/

@[simp] theorem State.respond_host_hIn (code : Code) (vs : List Word) :
    (s.respond .host code vs).hIn = [] := rfl
@[simp] theorem State.respond_host_hResp (code : Code) (vs : List Word) :
    (s.respond .host code vs).hResp = s.hResp ++ [⟨code, vs⟩] := rfl
@[simp] theorem State.raiseError_host_hIn (e : ErrClass) : (s.raiseError e .host).hIn = [] := rfl
@[simp] theorem State.raiseError_host_hResp (e : ErrClass) :
    (s.raiseError e .host).hResp = s.hResp ++ [⟨errCode e, [0#32]⟩] := rfl
@[simp] theorem State.deliver_host_hIn (payload : List Word) : (s.deliver .host payload).hIn = payload := rfl
@[simp] theorem State.countIssued_host_hIssued : (s.countIssued .host).hIssued = s.hIssued + 1 := rfl
@[simp] theorem State.setCmds_host_hCmds (q : List Command) : (s.setCmds .host q).hCmds = q := rfl
@[simp] theorem State.respond_host_pIn (code : Code) (vs : List Word) :
    (s.respond .host code vs).pIn = s.pIn := rfl
@[simp] theorem State.respond_host_pResp (code : Code) (vs : List Word) :
    (s.respond .host code vs).pResp = s.pResp := rfl
@[simp] theorem State.raiseError_host_pIn (e : ErrClass) : (s.raiseError e .host).pIn = s.pIn := rfl
@[simp] theorem State.raiseError_host_pResp (e : ErrClass) :
    (s.raiseError e .host).pResp = s.pResp := rfl
@[simp] theorem State.deliver_host_pIn (payload : List Word) : (s.deliver .host payload).pIn = s.pIn := rfl
@[simp] theorem State.countIssued_host_pIssued : (s.countIssued .host).pIssued = s.pIssued := rfl
@[simp] theorem State.setCmds_host_pCmds (q : List Command) : (s.setCmds .host q).pCmds = s.pCmds := rfl
@[simp] theorem State.respond_host_cIn (code : Code) (vs : List Word) :
    (s.respond .host code vs).cIn = s.cIn := rfl
@[simp] theorem State.respond_host_cResp (code : Code) (vs : List Word) :
    (s.respond .host code vs).cResp = s.cResp := rfl
@[simp] theorem State.raiseError_host_cIn (e : ErrClass) : (s.raiseError e .host).cIn = s.cIn := rfl
@[simp] theorem State.raiseError_host_cResp (e : ErrClass) :
    (s.raiseError e .host).cResp = s.cResp := rfl
@[simp] theorem State.deliver_host_cIn (payload : List Word) : (s.deliver .host payload).cIn = s.cIn := rfl
@[simp] theorem State.countIssued_host_cIssued : (s.countIssued .host).cIssued = s.cIssued := rfl
@[simp] theorem State.setCmds_host_cCmds (q : List Command) : (s.setCmds .host q).cCmds = s.cCmds := rfl
@[simp] theorem State.respond_producer_hIn (code : Code) (vs : List Word) :
    (s.respond .producer code vs).hIn = s.hIn := rfl
@[simp] theorem State.respond_producer_hResp (code : Code) (vs : List Word) :
    (s.respond .producer code vs).hResp = s.hResp := rfl
@[simp] theorem State.raiseError_producer_hIn (e : ErrClass) : (s.raiseError e .producer).hIn = s.hIn := rfl
@[simp] theorem State.raiseError_producer_hResp (e : ErrClass) :
    (s.raiseError e .producer).hResp = s.hResp := rfl
@[simp] theorem State.deliver_producer_hIn (payload : List Word) : (s.deliver .producer payload).hIn = s.hIn := rfl
@[simp] theorem State.countIssued_producer_hIssued : (s.countIssued .producer).hIssued = s.hIssued := rfl
@[simp] theorem State.setCmds_producer_hCmds (q : List Command) : (s.setCmds .producer q).hCmds = s.hCmds := rfl
@[simp] theorem State.respond_producer_pIn (code : Code) (vs : List Word) :
    (s.respond .producer code vs).pIn = [] := rfl
@[simp] theorem State.respond_producer_pResp (code : Code) (vs : List Word) :
    (s.respond .producer code vs).pResp = s.pResp ++ [⟨code, vs⟩] := rfl
@[simp] theorem State.raiseError_producer_pIn (e : ErrClass) : (s.raiseError e .producer).pIn = [] := rfl
@[simp] theorem State.raiseError_producer_pResp (e : ErrClass) :
    (s.raiseError e .producer).pResp = s.pResp ++ [⟨errCode e, [0#32]⟩] := rfl
@[simp] theorem State.deliver_producer_pIn (payload : List Word) : (s.deliver .producer payload).pIn = payload := rfl
@[simp] theorem State.countIssued_producer_pIssued : (s.countIssued .producer).pIssued = s.pIssued + 1 := rfl
@[simp] theorem State.setCmds_producer_pCmds (q : List Command) : (s.setCmds .producer q).pCmds = q := rfl
@[simp] theorem State.respond_producer_cIn (code : Code) (vs : List Word) :
    (s.respond .producer code vs).cIn = s.cIn := rfl
@[simp] theorem State.respond_producer_cResp (code : Code) (vs : List Word) :
    (s.respond .producer code vs).cResp = s.cResp := rfl
@[simp] theorem State.raiseError_producer_cIn (e : ErrClass) : (s.raiseError e .producer).cIn = s.cIn := rfl
@[simp] theorem State.raiseError_producer_cResp (e : ErrClass) :
    (s.raiseError e .producer).cResp = s.cResp := rfl
@[simp] theorem State.deliver_producer_cIn (payload : List Word) : (s.deliver .producer payload).cIn = s.cIn := rfl
@[simp] theorem State.countIssued_producer_cIssued : (s.countIssued .producer).cIssued = s.cIssued := rfl
@[simp] theorem State.setCmds_producer_cCmds (q : List Command) : (s.setCmds .producer q).cCmds = s.cCmds := rfl
@[simp] theorem State.respond_consumer_hIn (code : Code) (vs : List Word) :
    (s.respond .consumer code vs).hIn = s.hIn := rfl
@[simp] theorem State.respond_consumer_hResp (code : Code) (vs : List Word) :
    (s.respond .consumer code vs).hResp = s.hResp := rfl
@[simp] theorem State.raiseError_consumer_hIn (e : ErrClass) : (s.raiseError e .consumer).hIn = s.hIn := rfl
@[simp] theorem State.raiseError_consumer_hResp (e : ErrClass) :
    (s.raiseError e .consumer).hResp = s.hResp := rfl
@[simp] theorem State.deliver_consumer_hIn (payload : List Word) : (s.deliver .consumer payload).hIn = s.hIn := rfl
@[simp] theorem State.countIssued_consumer_hIssued : (s.countIssued .consumer).hIssued = s.hIssued := rfl
@[simp] theorem State.setCmds_consumer_hCmds (q : List Command) : (s.setCmds .consumer q).hCmds = s.hCmds := rfl
@[simp] theorem State.respond_consumer_pIn (code : Code) (vs : List Word) :
    (s.respond .consumer code vs).pIn = s.pIn := rfl
@[simp] theorem State.respond_consumer_pResp (code : Code) (vs : List Word) :
    (s.respond .consumer code vs).pResp = s.pResp := rfl
@[simp] theorem State.raiseError_consumer_pIn (e : ErrClass) : (s.raiseError e .consumer).pIn = s.pIn := rfl
@[simp] theorem State.raiseError_consumer_pResp (e : ErrClass) :
    (s.raiseError e .consumer).pResp = s.pResp := rfl
@[simp] theorem State.deliver_consumer_pIn (payload : List Word) : (s.deliver .consumer payload).pIn = s.pIn := rfl
@[simp] theorem State.countIssued_consumer_pIssued : (s.countIssued .consumer).pIssued = s.pIssued := rfl
@[simp] theorem State.setCmds_consumer_pCmds (q : List Command) : (s.setCmds .consumer q).pCmds = s.pCmds := rfl
@[simp] theorem State.respond_consumer_cIn (code : Code) (vs : List Word) :
    (s.respond .consumer code vs).cIn = [] := rfl
@[simp] theorem State.respond_consumer_cResp (code : Code) (vs : List Word) :
    (s.respond .consumer code vs).cResp = s.cResp ++ [⟨code, vs⟩] := rfl
@[simp] theorem State.raiseError_consumer_cIn (e : ErrClass) : (s.raiseError e .consumer).cIn = [] := rfl
@[simp] theorem State.raiseError_consumer_cResp (e : ErrClass) :
    (s.raiseError e .consumer).cResp = s.cResp ++ [⟨errCode e, [0#32]⟩] := rfl
@[simp] theorem State.deliver_consumer_cIn (payload : List Word) : (s.deliver .consumer payload).cIn = payload := rfl
@[simp] theorem State.countIssued_consumer_cIssued : (s.countIssued .consumer).cIssued = s.cIssued + 1 := rfl
@[simp] theorem State.setCmds_consumer_cCmds (q : List Command) : (s.setCmds .consumer q).cCmds = q := rfl

/-! ### What the view moves write -/

theorem State.syncW_wview (d : Nat) :
    (s.syncW d).wview = if linkEnabled d (cursorDist s.cap s.wview s.wptr) then cursorAdv s.cap s.wview d else s.wview := by
  unfold State.syncW; split <;> rfl

theorem State.syncR_rview (d : Nat) :
    (s.syncR d).rview = if linkEnabled d (cursorDist s.cap s.rview s.rptr) then cursorAdv s.cap s.rview d else s.rview := by
  unfold State.syncR; split <;> rfl

theorem State.issueView_wview (port : Port) (seen : Bool) :
    (s.issueView port seen).wview = if port = .consumer ∧ seen = true ∧ s.pSeq = none then s.wptr else s.wview := by
  cases port <;> cases seen <;> cases h : s.pSeq <;> simp [State.issueView, State.pBusy, State.cBusy, h] <;> split <;> rfl

theorem State.issueView_rview (port : Port) (seen : Bool) :
    (s.issueView port seen).rview = if port = .producer ∧ seen = true ∧ s.cSeq = none then s.rptr else s.rview := by
  cases port <;> cases seen <;> cases h : s.cSeq <;> simp [State.issueView, State.pBusy, State.cBusy, h] <;> split <;> rfl

end Sys2Proof.Machine
end

