-- ==== Sys2Proof/Laws/Ops.lean ====
section
/-! SUPPORT. What each shared operation can do, said once: the checks, the error procedure, the issue of a command, the
step of each agent. Later proofs cite these instead of unfolding the operations. -/

namespace Sys2Proof.Machine

/-- The error procedure is exactly what `AfterError` spells out (60_exceptions.md R192). -/
theorem raiseError_after (s : State) (e : ErrClass) (port : Port) : AfterError s e port (s.raiseError e port) := by
  cases port <;> simp [AfterError, State.raiseError, State.respond, State.setStatus]

/-- The one state `AfterError` allows. -/
theorem afterError_iff {s t : State} {e : ErrClass} {port : Port} : AfterError s e port t ↔ t = s.raiseError e port :=
  ⟨fun h => (show t = _ from h).trans (show s.raiseError e port = _ from raiseError_after s e port).symm,
   fun h => h ▸ raiseError_after s e port⟩

/-- A command with the wrong payload length is illegal. -/
theorem checked_payload {i : Instr} {s : State} (body : State → State)
    (h : (s.dataIn i.port).length ≠ payloadBeats i) : checked i s body = .next (s.raiseError .illegal i.port) := by
  simp [checked, h]

/-- A command in a state that forbids it raises E_STATE. -/
theorem checked_state {i : Instr} {s : State} (body : State → State)
    (hp : (s.dataIn i.port).length = payloadBeats i) (h : legal i s = false) :
    checked i s body = .next (s.raiseError .state i.port) := by
  simp [checked, hp, h]

/-- A command that passes the common checks runs its body. -/
theorem checked_ok {i : Instr} {s : State} (body : State → State)
    (hp : (s.dataIn i.port).length = payloadBeats i) (h : legal i s = true) : checked i s body = .next (body s) := by
  simp [checked, hp, h]

/-- All that `checked` can do: one of three next states. -/
theorem checked_cases {i : Instr} {s t : State} {body : State → State} (h : checked i s body = .next t) :
    ((s.dataIn i.port).length ≠ payloadBeats i ∧ t = s.raiseError .illegal i.port) ∨
    ((s.dataIn i.port).length = payloadBeats i ∧ legal i s = false ∧ t = s.raiseError .state i.port) ∨
    ((s.dataIn i.port).length = payloadBeats i ∧ legal i s = true ∧ t = body s) := by
  unfold checked at h
  split at h
  · next hp => exact .inl ⟨hp, (Host.Outcome.next.inj h).symm⟩
  · next hp =>
    have hp' : (s.dataIn i.port).length = payloadBeats i := Decidable.not_not.mp hp
    split at h
    · next hl => exact .inr (.inr ⟨hp', hl, (Host.Outcome.next.inj h).symm⟩)
    · next hl => exact .inr (.inl ⟨hp', by simpa using hl, (Host.Outcome.next.inj h).symm⟩)

/-- An idle port accepts its issuer's next command, with the state spelled out. -/
theorem acceptCommand_cons {port : Port} {s : State} {cmd : Command} {rest : List Command}
    (h : s.cmds port = cmd :: rest) :
    acceptCommand port s
      = some (cmd.word, (((s.setCmds port rest).countIssued port).issueView port cmd.seen).deliver port cmd.payload) := by
  simp [acceptCommand, h]

theorem acceptCommand_nil {port : Port} {s : State} (h : s.cmds port = []) : acceptCommand port s = none := by
  simp [acceptCommand, h]

/-- All that issuing on a port can do: wait, refuse an illegal word, or run the command's first step. -/
theorem issueStep_cases {port : Port} {s : State} {o : Host.Outcome State Fault Refusal}
    (h : issueStep port s = o) :
    (s.cmds port = [] ∧ o = .next s) ∨
    ∃ cmd rest t, s.cmds port = cmd :: rest ∧
      t = (((s.setCmds port rest).countIssued port).issueView port cmd.seen).deliver port cmd.payload ∧
      ((∃ e, decode port cmd.word = .error e ∧ o = .next (t.raiseError .illegal port)) ∨
       (∃ i, decode port cmd.word = .ok i ∧ o = exec i t)) := by
  subst h
  cases hq : s.cmds port with
  | nil => exact .inl ⟨rfl, by simp [issueStep, acceptCommand_nil hq]⟩
  | cons cmd rest =>
    refine .inr ⟨cmd, rest, _, rfl, rfl, ?_⟩
    simp only [issueStep, acceptCommand_cons hq, runWord]
    cases hd : decode port cmd.word with
    | error e => exact .inl ⟨e, rfl, rfl⟩
    | ok i => exact .inr ⟨i, rfl, rfl⟩

/-- All that a step can do: wait on an empty schedule, or let the chosen agent step. -/
theorem step_cases {s : State} {o : Host.Outcome State Fault Refusal} (h : step s = o) :
    (s.sched = [] ∧ o = .next s) ∨ ∃ c rest, s.sched = c :: rest ∧ o = agentStep c (s.setSched rest) := by
  subst h
  cases hq : s.sched with
  | nil => exact .inl ⟨rfl, by simp [step, hq]⟩
  | cons c rest => exact .inr ⟨c, rest, rfl, by simp [step, hq]⟩

/-- Which draws a link step takes (20_memory.md R55). -/
@[simp] theorem linkEnabled_iff {d distance : Nat} : linkEnabled d distance = true ↔ 1 ≤ d ∧ d ≤ distance := by
  simp [linkEnabled]

/-- A step of an infinite run is a step of the machine from a state that differs only in what the issuers added and in
the choice. -/
theorem IsRun.agentStep_next {run : Nat → State} {choice : Nat → Choice} (h : IsRun run choice) (n : Nat) :
    ∃ s', IssuersAdd (run n) s' ∧ agentStep (choice n) (s'.setSched []) = .next (run (n + 1)) := by
  obtain ⟨s', ha, hs⟩ := h n
  exact ⟨s', ha, by simpa [step, State.setSched] using hs⟩

theorem agentStep_producer_busy {s : State} {q : PlaySeq} (h : s.pSeq = some q) :
    agentStep .agentP s = playStep q s := by
  simp [agentStep, h]

theorem agentStep_producer_idle {s : State} (h : s.pSeq = none) :
    agentStep .agentP s = issueStep .producer s := by
  simp [agentStep, h]

theorem agentStep_consumer_busy {s : State} {q : RenderSeq} (h : s.cSeq = some q) :
    agentStep .agentC s = .next (renderStep q s) := by
  simp [agentStep, h]

theorem agentStep_consumer_idle {s : State} (h : s.cSeq = none) :
    agentStep .agentC s = issueStep .consumer s := by
  simp [agentStep, h]

/-- The accepted bytes are whole frames, at most what is offered and at most what is free in view. -/
theorem acceptedBytes_spec (s : State) (bytes : Nat) :
    s.acceptedBytes bytes % 4 = 0 ∧ s.acceptedBytes bytes ≤ bytes ∧ s.acceptedBytes bytes ≤ s.freeP := by
  unfold State.acceptedBytes
  omega

/-- On whole frames nothing is cut: the accepted bytes are the `k` of the pseudocode. -/
theorem acceptedBytes_of_whole {s : State} {bytes : Nat} (hb : bytes % 4 = 0) (hf : s.freeP % 4 = 0) :
    s.acceptedBytes bytes = min bytes s.freeP := by
  unfold State.acceptedBytes
  omega

/-- All that a P.PLAY write step can do: hold, stop for want of a beat, finish, or write some and go on. -/
theorem playStep_cases (q : PlaySeq) (s : State) :
    (s.acceptedBytes q.rem = 0 ∧ playStep q s = .next s) ∨
    (q.pay.length < s.acceptedBytes q.rem / 4 ∧ playStep q s = .fault .noBeat) ∨
    (s.acceptedBytes q.rem / 4 ≤ q.pay.length ∧ 0 < s.acceptedBytes q.rem ∧ q.rem = s.acceptedBytes q.rem ∧
      playStep q s = .next
        (((s.writeFrames (q.pay.take (s.acceptedBytes q.rem / 4)) (s.acceptedBytes q.rem)).setPlay none).respond
          .producer .ok [valueWord (4 * q.count)])) ∨
    (s.acceptedBytes q.rem / 4 ≤ q.pay.length ∧ 0 < s.acceptedBytes q.rem ∧ s.acceptedBytes q.rem < q.rem ∧
      playStep q s = .next
        ((s.writeFrames (q.pay.take (s.acceptedBytes q.rem / 4)) (s.acceptedBytes q.rem)).setPlay
          (some { q with
            rem := q.rem - s.acceptedBytes q.rem
            pay := q.pay.drop (s.acceptedBytes q.rem / 4) }))) := by
  have hle := (acceptedBytes_spec s q.rem).2.1
  simp only [playStep]
  split
  · next h => exact .inl ⟨h, rfl⟩
  · split
    · next hb => exact .inr (.inl ⟨hb, rfl⟩)
    · split
      · exact .inr (.inr (.inl ⟨by omega, by omega, by omega, rfl⟩))
      · exact .inr (.inr (.inr ⟨by omega, by omega, by omega, rfl⟩))

/-- All that a chunk step can do: take frames, or go to the fill phase. -/
theorem renderChunk_cases (q : RenderSeq) (s : State) :
    (0 < q.left ∧ 4 ≤ s.readableSpans.len1 ∧
      renderChunk q s =
        (((s.emit ((List.range (chunkFrames s q)).map (chunkBeat s q.vol s.readableSpans.off1))).publishR
          (cursorAdv s.cap s.rptr (4 * chunkFrames s q))).countConversions (2 * chunkFrames s q)).setRender
          (some { q with
            left := q.left - chunkFrames s q
            o := q.o + chunkFrames s q
            k := q.k + chunkFrames s q })) ∨
    ((q.left = 0 ∨ s.readableSpans.len1 < 4) ∧ renderChunk q s = s.setRender (some { q with phase := .fill })) := by
  simp only [renderChunk]
  split
  · next h => exact .inl ⟨h.1, h.2, rfl⟩
  · next h => exact .inr ⟨by omega, rfl⟩

/-! ## Every command through its effect -/

/-- What a command does once it has passed the common checks. -/
def effectOf (i : Instr) : State → State :=
  match i with
  | .hInit => effectHInit
  | .hActivate => effectHActivate
  | .hDeactivate => effectHDeactivate
  | .hStart rate => effectHStart rate
  | .hStop => effectHStop
  | .hDeinit => effectHDeinit
  | .hSetVolume => effectHSetVolume
  | .hReadReg idx => effectHReadReg idx
  | .hConvert smp => effectHConvert smp
  | .pWrite n => effectPWrite n
  | .pPlay count => effectPPlay count
  | .pFreeSpace => effectPFreeSpace
  | .pWspan => effectPWspan
  | .cReadAvailable => effectCReadAvailable
  | .cPeek => effectCPeek
  | .cAdvance n => effectCAdvance n
  | .cLoadf off => effectCLoadf off
  | .cRender nframes => effectCRender nframes

/-- Every command is the common checks before its effect. -/
theorem exec_eq_checked (i : Instr) (s : State) : exec i s = checked i s (effectOf i) := by
  cases i <;> rfl

/-- All that a command can do: raise E_ILLEGAL for its payload, E_STATE for the lifecycle, or have its effect; it
never stops. -/
theorem exec_cases {i : Instr} {s : State} {o : Host.Outcome State Fault Refusal} (h : exec i s = o) :
    ((s.dataIn i.port).length ≠ payloadBeats i ∧ o = .next (s.raiseError .illegal i.port)) ∨
    ((s.dataIn i.port).length = payloadBeats i ∧ legal i s = false ∧ o = .next (s.raiseError .state i.port)) ∨
    ((s.dataIn i.port).length = payloadBeats i ∧ legal i s = true ∧ o = .next (effectOf i s)) := by
  subst h
  rw [exec_eq_checked]
  by_cases hp : (s.dataIn i.port).length = payloadBeats i
  · cases hl : legal i s with
    | true => exact .inr (.inr ⟨hp, rfl, checked_ok _ hp hl⟩)
    | false => exact .inr (.inl ⟨hp, rfl, checked_state _ hp hl⟩)
  · exact .inl ⟨hp, checked_payload _ hp⟩

end Sys2Proof.Machine
end

