-- ==== Sys2Proof/Laws/PerInstr.lean ====
section
/-! SUPPORT. Facts about every command as syntax, one lemma per constructor. -/

namespace Sys2Proof.Laws.EncodedFields

/-- The PORT and FUNC fields of a command's word are those of its row, PORT is not the reserved value and FUNC is not the
reserved 0 (30_encoding.md R70 to R72). -/
def Statement (i : Instr) : Prop :=
  portOfBits (portField (encode i)) = some i.port ∧ funcField (encode i) = i.func ∧ i.func ≠ 0#4 ∧
    operandField (encode i) = i.operand

/-- The three fields of a word put together from them. -/
theorem fields_of_append (pb : BitVec 2) (f : BitVec 4) (op : BitVec 26) :
    portField (pb ++ (f ++ op)) = pb ∧ funcField (pb ++ (f ++ op)) = f ∧ operandField (pb ++ (f ++ op)) = op := by
  refine ⟨?_, ?_, ?_⟩
  · show (pb ++ (f ++ op)).extractLsb' 30 2 = pb
    ext j hj
    rw [BitVec.getElem_extractLsb', BitVec.getLsbD_append, if_neg (by omega), ← BitVec.getLsbD_eq_getElem]
    congr 1
    omega
  · show (pb ++ (f ++ op)).extractLsb' 26 4 = f
    ext j hj
    rw [BitVec.getElem_extractLsb', BitVec.getLsbD_append, if_pos (by omega), BitVec.getLsbD_append,
      if_neg (by omega), ← BitVec.getLsbD_eq_getElem]
    congr 1
    omega
  · show (pb ++ (f ++ op)).extractLsb' 0 26 = op
    ext j hj
    rw [BitVec.getElem_extractLsb', BitVec.getLsbD_append, if_pos (by omega), BitVec.getLsbD_append,
      if_pos (by omega), ← BitVec.getLsbD_eq_getElem]
    congr 1
    omega

/-- Every command, from its port's value alone. -/
theorem statement_of_port (i : Instr) (hp : portOfBits (portBits i.port) = some i.port) (hf : i.func ≠ 0#4) :
    Statement i := by
  obtain ⟨h1, h2, h3⟩ := fields_of_append (portBits i.port) i.func i.operand
  exact ⟨by rw [encode, h1, hp], by rw [encode, h2], hf, by rw [encode, h3]⟩

theorem hInit : Statement .hInit := statement_of_port _ rfl (by decide)
theorem hActivate : Statement .hActivate := statement_of_port _ rfl (by decide)
theorem hDeactivate : Statement .hDeactivate := statement_of_port _ rfl (by decide)
theorem hStart (rate : BitVec 26) : Statement (.hStart rate) := statement_of_port _ rfl (by simp [Instr.func])
theorem hStop : Statement .hStop := statement_of_port _ rfl (by decide)
theorem hDeinit : Statement .hDeinit := statement_of_port _ rfl (by decide)
theorem hSetVolume : Statement .hSetVolume := statement_of_port _ rfl (by decide)
theorem hReadReg (idx : BitVec 3) : Statement (.hReadReg idx) := statement_of_port _ rfl (by simp [Instr.func])
theorem hConvert (s : BitVec 16) : Statement (.hConvert s) := statement_of_port _ rfl (by simp [Instr.func])
theorem pWrite (n : BitVec 26) : Statement (.pWrite n) := statement_of_port _ rfl (by simp [Instr.func])
theorem pPlay (count : BitVec 26) : Statement (.pPlay count) := statement_of_port _ rfl (by simp [Instr.func])
theorem pFreeSpace : Statement .pFreeSpace := statement_of_port _ rfl (by decide)
theorem pWspan : Statement .pWspan := statement_of_port _ rfl (by decide)
theorem cReadAvailable : Statement .cReadAvailable := statement_of_port _ rfl (by decide)
theorem cPeek : Statement .cPeek := statement_of_port _ rfl (by decide)
theorem cAdvance (n : BitVec 26) : Statement (.cAdvance n) := statement_of_port _ rfl (by simp [Instr.func])
theorem cLoadf (off : BitVec 26) : Statement (.cLoadf off) := statement_of_port _ rfl (by simp [Instr.func])
theorem cRender (nframes : BitVec 26) : Statement (.cRender nframes) := statement_of_port _ rfl (by simp [Instr.func])

end Sys2Proof.Laws.EncodedFields
end

