-- ==== Sys2Proof/Machine/Issuer.lean ====
section
/-! DEFINITION. What the issuers write: the assembler's lines (30_encoding.md R80) and the pseudo-commands (R81). Both
stand outside the block: they say which command words and payloads an issuer's text means. -/

namespace Sys2Proof.Machine

/-! ## Pseudo-commands -/

/-- The issuer-side macros (30_encoding.md R81). -/
inductive Pseudo where
  | boot (rate : BitVec 26)
  | shutdown
  | status
  | drain
  deriving DecidableEq, Repr

/-- The real commands a pseudo-command stands for, in order, each issued after the response to the one before
(30_encoding.md R81). `v` is the value C.READ_AVAILABLE returned, which only C.DRAIN uses. -/
def expandPseudo (m : Pseudo) (v : Word) : List Instr :=
  match m with
  | .boot rate => [.hInit, .hActivate, .hStart rate]
  | .shutdown => [.hStop, .hDeactivate, .hDeinit]
  | .status => [.hReadReg 0#3]
  | .drain => [.cReadAvailable, .cAdvance (v.setWidth 26)]

/-! ## The assembler -/

/-- What is wrong with a line. -/
inductive AsmError where
  | unknownMnemonic
  | badOperand
  | badPayload
  deriving DecidableEq, Repr

/-- What a line of a command assembles to: the port, the word and the payload beats (30_encoding.md R77, R80). -/
structure AsmCommand where
  port : Port
  word : Word
  payload : List Word
  deriving DecidableEq, Repr

/-- How a mnemonic's operand is written (30_encoding.md R73, R80). -/
inductive AsmForm where
  | none (i : Instr)
  | n26 (f : BitVec 26 → Instr)
  | idx3 (f : BitVec 3 → Instr)
  | s16 (f : BitVec 16 → Instr)

/-- The mnemonics and their operand forms (30_encoding.md R72). -/
def asmTable : List (String × AsmForm) :=
  [("H.INIT", .none .hInit), ("H.ACTIVATE", .none .hActivate), ("H.DEACTIVATE", .none .hDeactivate),
   ("H.START", .n26 .hStart), ("H.STOP", .none .hStop), ("H.DEINIT", .none .hDeinit),
   ("H.SET_VOLUME", .none .hSetVolume), ("H.READ_REG", .idx3 .hReadReg), ("H.CONVERT", .s16 .hConvert)] ++
  [("P.WRITE", .n26 .pWrite), ("P.PLAY", .n26 .pPlay), ("P.FREE_SPACE", .none .pFreeSpace),
   ("P.WSPAN", .none .pWspan)] ++
  [("C.READ_AVAILABLE", .none .cReadAvailable), ("C.PEEK", .none .cPeek), ("C.ADVANCE", .n26 .cAdvance),
   ("C.LOADF", .n26 .cLoadf), ("C.RENDER", .n26 .cRender)]

/-- The register names H.READ_REG accepts (30_encoding.md R80, 10_state.md R39). -/
def asmRegisters : List String := ["STATUS", "WPTR", "RPTR", "CAPACITY", "VOLUME", "DROPPED", "RATE"]

/-- The opening brace of a payload. -/
def braceOpen : Char := Char.ofNat 123

/-- The closing brace of a payload. -/
def braceClose : Char := Char.ofNat 125

/-- The tokens of a line up to its comment: words between blanks, each brace by itself (30_encoding.md R80). `cur` is the
word being read, reversed. -/
def asmTokens (line cur : List Char) : List (List Char) :=
  let flush (rest : List (List Char)) : List (List Char) := if cur = [] then rest else cur.reverse :: rest
  match line with
  | [] => flush []
  | ch :: rest =>
    if ch = ';' then flush []
    else if ch = ' ' ∨ ch = '\t' then flush (asmTokens rest [])
    else if ch = braceOpen ∨ ch = braceClose then flush ([ch] :: asmTokens rest [])
    else asmTokens rest (ch :: cur)

/-- A digit's value in a base of at most 16. -/
def digitValue (base : Nat) (ch : Char) : Option Nat :=
  let v :=
    if '0' ≤ ch ∧ ch ≤ '9' then ch.toNat - '0'.toNat
    else if 'a' ≤ ch ∧ ch ≤ 'f' then ch.toNat - 'a'.toNat + 10
    else if 'A' ≤ ch ∧ ch ≤ 'F' then ch.toNat - 'A'.toNat + 10
    else 16
  if v < base then some v else none

/-- The value of a run of digits read after the value `acc`. -/
def digitsValue (base acc : Nat) (ds : List Char) : Option Nat :=
  match ds with
  | [] => some acc
  | d :: rest =>
    match digitValue base d with
    | none => none
    | some v => digitsValue base (acc * base + v) rest

/-- A nonempty run of digits. -/
def asmDigits (base : Nat) (ds : List Char) : Option Nat :=
  if ds = [] then none else digitsValue base 0 ds

/-- An unsigned operand: decimal, or hexadecimal with 0x (30_encoding.md R80). -/
def asmNat (t : List Char) : Option Nat :=
  match t with
  | '0' :: 'x' :: ds => asmDigits 16 ds
  | ds => asmDigits 10 ds

/-- An H.CONVERT operand: a signed decimal int16, or 0x and its 16-bit pattern (30_encoding.md R80). -/
def asmSample (t : List Char) : Option (BitVec 16) :=
  match t with
  | '0' :: 'x' :: ds => (asmDigits 16 ds).bind fun v => if v < 2 ^ 16 then some (BitVec.ofNat 16 v) else none
  | '-' :: ds => (asmDigits 10 ds).bind fun v => if v ≤ 2 ^ 15 then some (BitVec.ofNat 16 (2 ^ 16 - v)) else none
  | ds => (asmDigits 10 ds).bind fun v => if v < 2 ^ 15 then some (BitVec.ofNat 16 v) else none

/-- An H.READ_REG operand: an index 0 to 6 or a register's name (30_encoding.md R80). -/
def asmRegister (t : List Char) : Option (BitVec 3) :=
  match asmRegisters.findIdx? (fun name => name.toList = t) with
  | some idx => some (BitVec.ofNat 3 idx)
  | none => (asmNat t).bind fun v => if v ≤ 6 then some (BitVec.ofNat 3 v) else none

/-- A hexadecimal payload beat (30_encoding.md R80). -/
def asmBeat (t : List Char) : Option Word :=
  match t with
  | '0' :: 'x' :: ds => (asmDigits 16 ds).bind fun v => if v < 2 ^ 32 then some (BitVec.ofNat 32 v) else none
  | _ => none

/-- The binary32 pattern of `num / 10^places`, where it is exact (30_encoding.md R80): the value is counted in units of
2^-149, and the pattern must give that count back. -/
def exactF32 (neg : Bool) (num places : Nat) : Option Word :=
  let units := num * 2 ^ 149 / 10 ^ places
  let w := packF32 neg (roundMagnitude units 149)
  if num * 2 ^ 149 % 10 ^ places = 0 ∧ f32Exp w < 255 ∧ f32Mant w * 2 ^ f32Scale w = units then some w else none

/-- An unsigned decimal float: digits, or digits, a point and digits. -/
def asmUnsignedFloat (neg : Bool) (t : List Char) : Option Word :=
  let whole := t.takeWhile (fun ch => ch ≠ '.')
  match t.drop whole.length with
  | [] => (asmDigits 10 whole).bind fun v => exactF32 neg v 0
  | _ :: frac =>
    match asmDigits 10 whole, asmDigits 10 frac with
    | some _, some _ => (asmDigits 10 (whole ++ frac)).bind fun v => exactF32 neg v frac.length
    | _, _ => none

/-- A decimal float of H.SET_VOLUME (30_encoding.md R80). -/
def asmFloat (t : List Char) : Option Word :=
  match t with
  | '-' :: ds => asmUnsignedFloat true ds
  | ds => asmUnsignedFloat false ds

/-- The beats of a payload, read by `beat`; the last token must be the closing brace. -/
def asmBeats (beat : List Char → Option Word) (toks : List (List Char)) : Option (List Word) :=
  match toks with
  | [] => none
  | t :: rest =>
    if t = [braceClose] then (if rest = [] then some [] else none)
    else (beat t).bind fun b => (asmBeats beat rest).map (b :: ·)

/-- The payload part of a line: nothing, or beats in braces. -/
def asmPayload (beat : List Char → Option Word) (toks : List (List Char)) : Except AsmError (List Word) :=
  match toks with
  | [] => .ok []
  | t :: rest =>
    if t = [braceOpen] then
      match asmBeats beat rest with
      | some bs => .ok bs
      | none => .error .badPayload
    else .error .badPayload

/-- Finish a line whose command is known. -/
def asmFinish (i : Instr) (payload : Except AsmError (List Word)) : Except AsmError (Option AsmCommand) :=
  match payload with
  | .ok bs => .ok (some { port := i.port, word := encode i, payload := bs })
  | .error e => .error e

/-- The payload tokens of H.SET_VOLUME: beats may be decimal floats, in braces or bare after the mnemonic (log 21). -/
def asmVolumePayload (toks : List (List Char)) : Except AsmError (List Word) :=
  match toks with
  | [t] =>
    match asmFloat t with
    | some b => .ok [b]
    | none => .error .badPayload
  | _ => asmPayload (fun t => (asmBeat t).or (asmFloat t)) toks

/-- An operand token read by its form. -/
def asmOperand (form : AsmForm) (t : List Char) : Option Instr :=
  match form with
  | .none _ => none
  | .n26 f => (asmNat t).bind fun v => if v < 2 ^ 26 then some (f (BitVec.ofNat 26 v)) else none
  | .idx3 f => (asmRegister t).map f
  | .s16 f => (asmSample t).map f

/-- Assemble one line (30_encoding.md R80); a blank or comment line gives no command. -/
def assembleLine (line : List Char) : Except AsmError (Option AsmCommand) :=
  match asmTokens line [] with
  | [] => .ok none
  | name :: toks =>
    match asmTable.find? (fun row => row.1.toList = name) with
    | none => .error .unknownMnemonic
    | some (_, .none i) =>
      asmFinish i (if i = .hSetVolume then asmVolumePayload toks else asmPayload asmBeat toks)
    | some (_, form) =>
      match toks with
      | [] => .error .badOperand
      | t :: rest =>
        match asmOperand form t with
        | none => .error .badOperand
        | some i => asmFinish i (asmPayload asmBeat rest)

/-- A line that names a pseudo-command (30_encoding.md R81). -/
def assemblePseudo (line : List Char) : Option Pseudo :=
  match asmTokens line [] with
  | [name] =>
    if name = "H.SHUTDOWN".toList then some .shutdown
    else if name = "H.STATUS".toList then some .status
    else if name = "C.DRAIN".toList then some .drain
    else none
  | [name, t] =>
    if name = "H.BOOT".toList then
      (asmNat t).bind fun v => if v < 2 ^ 26 then some (.boot (BitVec.ofNat 26 v)) else none
    else none
  | _ => none

end Sys2Proof.Machine
end

