-- ==== Sys2Proof/Tests/Slice0.lean ====
section
/-! SUPPORT. Tests against the vectors of 95_test_vectors.md (each names its section or program) and the words of
30_encoding.md, then one witness per obligation that has hypotheses. -/

namespace Sys2Proof.Tests

open Sys2Proof Sys2Proof.Machine

/-! ## Helpers -/

/-- A step answers a next state of which the test holds. -/
def answers (o : Host.Outcome State Fault Refusal) (p : State → Bool) : Bool :=
  match o with
  | .next t => p t
  | .fault _ => false
  | .refused _ => false

/-- The buffer of 95 section 2.2: CAP 16, cursors W and R with current views, LSTATE as given. -/
def ring (l : LState) (w r : Nat) : State :=
  { State.reset with
    wptr := w, wview := w, rptr := r, rview := r, status := { Status.reset with lstate := l } }

/-- `MEM[i] = i` for i below 16 (95 section 2.2). -/
def countedMem : List Host.Cell := (List.range 16).map fun i => (i, BitVec.ofNat 8 i)

/-- The bytes of the frames (1,2), (3,4), (5,6), (7,8) (95 section 2.4). -/
def frameMem : List Host.Cell :=
  (List.range 16).map fun i => (i, BitVec.ofNat 8 (if i % 2 = 0 then i / 2 + 1 else 0))

/-- An ACTIVE buffer that holds `countedMem`. -/
def counted (w r : Nat) : State := { ring .active w r with mem := countedMem }

/-- An ACTIVE buffer that holds `frameMem`, with agent C to step. -/
def frames (w r : Nat) : State := { ring .active w r with mem := frameMem, sched := [.agentC] }

/-- The render of 95 section 2.4 after its start step. -/
def rendering (n left : Nat) : RenderSeq :=
  { phase := .chunk, n := n, left := left, o := n - left, k := n - left, vol := 0x3F800000#32 }

/-- A P.PLAY of three frames after its start step (95 section 2.5). -/
def playing : PlaySeq := { rem := 12, pay := [0x00020001#32, 0x00040003#32, 0x00060005#32], count := 3 }

/-! ## Well-formedness, decoding and encoding -/

theorem test_wellFormed_refuses_index_7 : (Instr.hReadReg 7#3).wellFormed = false := by decide

theorem test_wellFormed_accepts_index_6 : (Instr.hReadReg 6#3).wellFormed = true := by decide

/-- PORT 00, FUNC 0001 to 0111 (30_encoding.md R70 to R73). -/
theorem test_decode_h_low :
    decode .host 0b00000100000000000000000000000000#32 = .ok .hInit ∧
    decode .host 0b00001000000000000000000000000000#32 = .ok .hActivate ∧
    decode .host 0b00001100000000000000000000000000#32 = .ok .hDeactivate ∧
    decode .host 0b00010000000000001010110001000100#32 = .ok (.hStart 44100#26) ∧
    decode .host 0b00010100000000000000000000000000#32 = .ok .hStop ∧
    decode .host 0b00011000000000000000000000000000#32 = .ok .hDeinit ∧
    decode .host 0b00011100000000000000000000000000#32 = .ok .hSetVolume := by decide

/-- PORT 00, FUNC 1000 and 1001, with the IDX3 and S16 forms. -/
theorem test_decode_h_high :
    decode .host 0b00100000000000000000000000000110#32 = .ok (.hReadReg 6#3) ∧
    decode .host 0b00100100000000001000000000000000#32 = .ok (.hConvert 0x8000#16) ∧
    decode .host 0b00100100000000001111111111111111#32 = .ok (.hConvert 0xFFFF#16) := by decide

/-- PORT 01. -/
theorem test_decode_p :
    decode .producer 0b01000100000000000000000000001100#32 = .ok (.pWrite 12#26) ∧
    decode .producer 0b01000111111111111111111111111100#32 = .ok (.pWrite 0x3FFFFFC#26) ∧
    decode .producer 0b01001000000000000000000000000110#32 = .ok (.pPlay 6#26) ∧
    decode .producer 0b01001100000000000000000000000000#32 = .ok .pFreeSpace ∧
    decode .producer 0b01010000000000000000000000000000#32 = .ok .pWspan := by decide

/-- PORT 10. -/
theorem test_decode_c :
    decode .consumer 0b10000100000000000000000000000000#32 = .ok .cReadAvailable ∧
    decode .consumer 0b10001000000000000000000000000000#32 = .ok .cPeek ∧
    decode .consumer 0b10001100000000000000000000010000#32 = .ok (.cAdvance 16#26) ∧
    decode .consumer 0b10010000000000000000000000001000#32 = .ok (.cLoadf 8#26) ∧
    decode .consumer 0b10010100000000000000000000000100#32 = .ok (.cRender 4#26) := by decide

/-- The illegal words of 95 section 2.1. -/
theorem test_decode_illegal :
    decode .host 0x00000000#32 = .error .funcReserved ∧ decode .producer 0x40000000#32 = .error .funcReserved ∧
    decode .consumer 0x80000000#32 = .error .funcReserved ∧ decode .host 0xC4000000#32 = .error .portReserved ∧
    decode .host 0x04000001#32 = .error .operandBits ∧ decode .host 0x28000000#32 = .error .funcReserved ∧
    decode .producer 0x54000000#32 = .error .funcReserved ∧ decode .consumer 0x98000000#32 = .error .funcReserved ∧
    decode .host 0x20000007#32 = .error .regIndex ∧ decode .host 0x20000008#32 = .error .operandBits ∧
    decode .host 0x24010000#32 = .error .operandBits ∧ decode .producer 0x84000000#32 = .error .wrongPort := by decide

/-- The words of 30_encoding.md R80 and 95 section 3. -/
theorem test_encode :
    encode (.hStart 48000#26) = 0x1000BB80#32 ∧ encode (.hConvert 0x8001#16) = 0x24008001#32 ∧
    encode (.hReadReg 5#3) = 0x20000005#32 ∧ encode (.pPlay 6#26) = 0x48000006#32 ∧
    encode (.pWrite 20#26) = 0x44000014#32 ∧ encode (.cAdvance 8#26) = 0x8C000008#32 := by decide

theorem test_decodeTableWord :
    decodeTableWord 32 0x90000008 = some (.cLoadf 8#26) ∧ decodeTableWord 32 0xC4000000 = none := by decide

/-! ## The assembler and the pseudo-commands -/

/-- The first example of 30_encoding.md R80, with a comment. -/
theorem test_assemble_write :
    assembleLine ("P.WRITE 12 ".toList ++ [braceOpen] ++ "0x00020001 0x00040003 0x00060005".toList ++ [braceClose] ++
      " ; P1".toList) =
      .ok (some { port := .producer, word := 0x4400000C#32, payload := [0x00020001#32, 0x00040003#32, 0x00060005#32] }) := by
  decide +kernel

/-- 30_encoding.md R80: a signed decimal, a register name, an exact decimal float, an inexact one. -/
theorem test_assemble_operands :
    assembleLine "H.CONVERT -32768".toList = .ok (some { port := .host, word := 0x24008000#32, payload := [] }) ∧
    assembleLine "H.READ_REG DROPPED".toList = .ok (some { port := .host, word := 0x20000005#32, payload := [] }) ∧
    assembleLine "H.SET_VOLUME 0.5".toList =
      .ok (some { port := .host, word := 0x1C000000#32, payload := [0x3F000000#32] }) ∧
    assembleLine "H.SET_VOLUME 0.1".toList = .error .badPayload := by
  decide +kernel

/-- 30_encoding.md R81. -/
theorem test_pseudo :
    assemblePseudo "H.BOOT 44100".toList = some (.boot 44100#26) ∧
    expandPseudo (.boot 44100#26) 0#32 = [.hInit, .hActivate, .hStart 44100#26] ∧
    expandPseudo .shutdown 0#32 = [.hStop, .hDeactivate, .hDeinit] ∧
    expandPseudo .drain 12#32 = [.cReadAvailable, .cAdvance 12#26] := by
  decide +kernel

/-! ## Memory and cursors -/

/-- Little-endian, wrapping at CAP (20_memory.md R50, 00_scope.md R12). -/
theorem test_memory_wraps :
    memWrite 16 [] 14 4 0x44332211#32 = [(0, 0x33#8), (1, 0x44#8), (14, 0x11#8), (15, 0x22#8)] ∧
    memRead { State.reset with mem := memWrite 16 [] 14 4 0x44332211#32 } 14 4 = 0x44332211 := by decide

theorem test_memWf_refuses_disorder :
    memWf [(1, 0#8), (1, 0#8)] = false ∧ memWf [(2, 0#8), (1, 0#8)] = false ∧ memWf countedMem = true := by decide

/-- The wrapped distances of 95 section 2.2. -/
theorem test_cursors : cursorDist 16 20 4 = 16 ∧ cursorDist 16 8 24 = 16 ∧ cursorAdv 16 28 8 = 4 := by decide

/-! ## Conversion (95 sections 1 and 2.3) -/

theorem test_conv_unit_volume :
    conv 0x8000#16 0x3F800000#32 0#23 = 0xBF800000#32 ∧ conv 0xFFFF#16 0x3F800000#32 0#23 = 0xB8000000#32 ∧
    conv 0#16 0x3F800000#32 0#23 = 0#32 ∧ conv 0x7FFF#16 0x3F800000#32 0#23 = 0x3F7FFE00#32 ∧
    conv 0x4000#16 0x3F800000#32 0#23 = 0x3F000000#32 := by decide

theorem test_conv_signs_and_specials :
    conv 0#16 0xBF800000#32 0#23 = 0x80000000#32 ∧ conv 0xFFFF#16 0x80000000#32 0#23 = 0#32 ∧
    conv 1#16 0xFF800000#32 0#23 = 0xFF800000#32 ∧ conv 0x8001#16 0x7F800000#32 0#23 = 0xFF800000#32 ∧
    conv 0#16 0x7F800000#32 0x400005#23 = 0xFFC00005#32 ∧ conv 1#16 0x7FC00001#32 0#23 = 0x7FC00000#32 := by decide

/-- Ties to even and subnormals. -/
theorem test_conv_rounding_small :
    conv 0x4000#16 1#32 0#23 = 0#32 ∧ conv 0x4000#16 3#32 0#23 = 2#32 ∧ conv 0x4000#16 5#32 0#23 = 2#32 ∧
    conv 0xC000#16 1#32 0#23 = 0x80000000#32 ∧ conv 0x6000#16 1#32 0#23 = 1#32 ∧ conv 0x2000#16 1#32 0#23 = 0#32 ∧
    conv 1#16 0x00800000#32 0#23 = 0x100#32 := by decide

theorem test_conv_rounding_large :
    conv 0x7FFF#16 0x3F800001#32 0#23 = 0x3F7FFE02#32 ∧ conv 0x7FFF#16 0x3F7FFFFF#32 0#23 = 0x3F7FFDFF#32 ∧
    conv 3#16 0x3EAAAAAB#32 0#23 = 0x38000000#32 ∧ conv 3#16 0x3DCCCCCD#32 0#23 = 0x3719999A#32 ∧
    conv 0x1234#16 0x7F7FFFFF#32 0#23 = 0x7E119FFF#32 := by decide

/-! ## Port H (95 sections 2.6 and 2.7, programs P3, P4, P6, P7) -/

/-- H.INIT keeps VOLUME and the error bits and clears DROPPED and OVERRUN. -/
theorem test_hInit :
    answers (exec .hInit { State.reset with
        volume := 0x3F000000#32, dropped := 4#32, status := { Status.reset with eFrame := true, overrun := true } })
      (fun t => t.volume == 0x3F000000#32 && t.dropped == 0#32 && t.statusWord == 0x00000401#32 &&
        t.hResp == [⟨.ok, [0#32]⟩]) = true := by decide

theorem test_hInit_not_ready :
    answers (exec .hInit (ring .ready 0 0))
      (fun t => t.statusWord == 0x00000201#32 && t.hResp == [⟨.eState, [0#32]⟩]) = true := by decide

theorem test_hActivate :
    answers (exec .hActivate (ring .ready 8 0)) (fun t => t.statusWord == 2#32 && t.wptr == 8) = true := by decide

theorem test_hDeactivate :
    answers (exec .hDeactivate { frames 16 0 with cSeq := some (rendering 4 4) })
      (fun t => t.statusWord == 0x41#32 && t.cSeq == some (rendering 4 4)) = true := by decide

theorem test_hStart :
    answers (exec (.hStart 44100#26) (ring .active 0 0)) (fun t => t.statusWord == 0xA#32) = true := by decide

/-- P6, and 95 section 2.5: a holding P.PLAY is abandoned. -/
theorem test_hStart_rate :
    answers (exec (.hStart 48000#26) { ring .active 0 0 with pSeq := some playing })
      (fun t => t.statusWord == 0x1004#32 && t.pSeq == none && t.pResp == [] &&
        t.hResp == [⟨.eRate, [0#32]⟩]) = true := by decide

theorem test_hStop :
    answers (exec .hStop (ring .ready 8 0)) (fun t => t == { ring .ready 8 0 with hResp := [⟨.ok, [0#32]⟩] })
      = true := by decide

/-- P7: CLOSED, STARTED cleared, W and R 0. -/
theorem test_hDeinit :
    answers (exec .hDeinit { ring .ready 8 8 with status := { Status.reset with lstate := .ready, started := true } })
      (fun t => t.statusWord == 3#32 && t.wptr == 0 && t.rptr == 0) = true := by decide

theorem test_hDeinit_busy :
    answers (exec .hDeinit { ring .ready 8 0 with pSeq := some playing })
      (fun t => t.statusWord == 0x221#32 && t.wptr == 8) = true := by decide

theorem test_hSetVolume :
    answers (exec .hSetVolume { State.reset with hIn := [0xBF800000#32] })
      (fun t => t.volume == 0xBF800000#32 && t.hIn == [] && t.hResp == [⟨.ok, [0#32]⟩]) = true := by decide

theorem test_hSetVolume_no_beat :
    answers (exec .hSetVolume State.reset) (fun t => t.statusWord == 0x100#32 && t.volume == 0x3F800000#32)
      = true := by decide

/-- P3: ACTIVE, OVERRUN, E_FRAME and E_RANGE. -/
theorem test_hReadReg_status :
    answers (exec (.hReadReg 0#3) { ring .active 24 8 with
        status := { Status.reset with lstate := .active, overrun := true, eFrame := true, eRange := true } })
      (fun t => t.hResp == [⟨.ok, [0xC12#32]⟩]) = true := by decide

theorem test_hReadReg_rate :
    answers (exec (.hReadReg 6#3) (ring .fatal 0 0)) (fun t => t.hResp == [⟨.ok, [44100#32]⟩]) = true := by decide

theorem test_hConvert :
    answers (exec (.hConvert 0x4000#16) { State.reset with volume := 0x3F000000#32 })
      (fun t => t.hResp == [⟨.ok, [0x3E800000#32]⟩]) = true := by decide

theorem test_hConvert_fatal :
    answers (exec (.hConvert 1#16) (ring .fatal 0 0)) (fun t => t.hResp == [⟨.eState, [0#32]⟩]) = true := by decide

/-! ## Port P (95 sections 2.2, 2.5 and 2.7) -/

/-- W=28 R=20: beats 1 and 2 at offsets 12 and 0, beat 3 dropped. -/
theorem test_pWrite_short :
    answers (exec (.pWrite 12#26) { ring .active 28 20 with pIn := [0xAAAA0001#32, 0xAAAA0002#32, 0xAAAA0003#32] })
      (fun t => t.pResp == [⟨.short, [8#32]⟩] && t.wptr == 4 && t.dropped == 4#32 && t.statusWord == 0x12#32 &&
        t.mem == [(0, 0x02#8), (1, 0x00#8), (2, 0xAA#8), (3, 0xAA#8),
          (12, 0x01#8), (13, 0x00#8), (14, 0xAA#8), (15, 0xAA#8)]) = true := by decide

/-- 90_conflicts.md C7: a prefix write is cut to whole frames. With RVIEW = 5 the view leaves five bytes free; one frame
is written. -/
theorem test_pWrite_cut_to_frames :
    answers (exec (.pWrite 8#26) { ring .active 16 8 with rview := 5, pIn := [1#32, 2#32] })
      (fun t => t.pResp == [⟨.short, [4#32]⟩] && t.wptr == 20 && t.dropped == 4#32) = true := by decide

/-- E2: a partial frame. -/
theorem test_pWrite_frame :
    answers (exec (.pWrite 6#26) { ring .active 0 0 with pIn := [0x00020001#32, 0x00000003#32] })
      (fun t => t.pResp == [⟨.eFrame, [0#32]⟩] && t.wptr == 0 && t.mem == [] && t.statusWord == 0x402#32)
      = true := by decide

theorem test_pPlay_zero :
    answers (exec (.pPlay 0#26) (ring .ready 0 0)) (fun t => t.pSeq == none && t.pResp == [⟨.ok, [0#32]⟩])
      = true := by decide

/-- READY, W=R=0: the write step of P.PLAY 3. -/
theorem test_pPlay_write_step :
    answers (step { ring .ready 0 0 with pSeq := some playing, sched := [.agentP] })
      (fun t => t.wptr == 12 && t.pSeq == none && t.pResp == [⟨.ok, [12#32]⟩] &&
        memRead t 8 4 == 0x00060005) = true := by decide

/-- 42_feeder.md R154: with one byte free in view no frame fits, and the play holds. -/
theorem test_pPlay_holds_below_a_frame :
    answers (step { ring .ready 16 4 with rview := 1, pSeq := some playing, sched := [.agentP] })
      (fun t => t.wptr == 16 && t.pSeq == some playing) = true := by decide

theorem test_pFreeSpace_wrapped :
    answers (exec .pFreeSpace (ring .active 4 20)) (fun t => t.pResp == [⟨.ok, [0#32]⟩]) = true := by decide

theorem test_pWspan_wraps :
    answers (exec .pWspan (ring .active 12 8)) (fun t => t.pResp == [⟨.ok, [12#32, 4#32, 0#32, 8#32]⟩])
      = true := by decide

theorem test_pWspan_full :
    answers (exec .pWspan (ring .active 24 8)) (fun t => t.pResp == [⟨.ok, [8#32, 0#32, 0#32, 0#32]⟩])
      = true := by decide

/-! ## Port C (95 sections 2.2, 2.4 and 2.7) -/

theorem test_cReadAvailable_wrapped :
    answers (exec .cReadAvailable (ring .active 4 20)) (fun t => t.cResp == [⟨.ok, [16#32]⟩]) = true := by decide

theorem test_cPeek_two_ranges :
    answers (exec .cPeek (ring .active 20 8)) (fun t => t.cResp == [⟨.ok, [8#32, 8#32, 0#32, 4#32]⟩])
      = true := by decide

theorem test_cAdvance_wraps :
    answers (exec (.cAdvance 8#26) (ring .active 4 28)) (fun t => t.rptr == 4 && t.cResp == [⟨.ok, [0#32]⟩])
      = true := by decide

/-- E_FRAME goes before E_RANGE. -/
theorem test_cAdvance_frame_first :
    answers (exec (.cAdvance 6#26) (ring .active 4 0)) (fun t => t.rptr == 0 && t.statusWord == 0x402#32)
      = true := by decide

theorem test_cLoadf_wrapped :
    answers (exec (.cLoadf 4#26) (counted 24 8)) (fun t => t.cResp == [⟨.ok, [0x07060504#32]⟩]) = true := by decide

theorem test_cLoadf_range :
    answers (exec (.cLoadf 4#26) (counted 20 8)) (fun t => t.cResp == [⟨.eRange, [0#32]⟩]) = true := by decide

/-- E3: an empty buffer gives silence in one step. -/
theorem test_cRender_empty :
    answers (exec (.cRender 3#26) (ring .active 0 0))
      (fun t => t.out == [⟨0#32, 0#32⟩, ⟨0#32, 0#32⟩, ⟨0#32, 0#32⟩] && t.cResp == [⟨.ok, [0#32]⟩] && t.cSeq == none)
      = true := by decide

/-- W=28 R=12, C.RENDER 4: the first chunk is the one frame before the end of MEM. -/
theorem test_render_chunk_before_wrap :
    answers (step { frames 28 12 with cSeq := some (rendering 4 4) })
      (fun t => t.out == [⟨0x39600000#32, 0x39800000#32⟩] && t.rptr == 16 && t.cSeq == some (rendering 4 3))
      = true := by decide

/-! ## Steps of the link, of reset and of an issue -/

/-- P5, step 10: L.SYNC_R with d = 8. -/
theorem test_syncR :
    answers (step { ring .active 16 8 with rview := 0, sched := [.syncR 8] }) (fun t => t.rview == 8) = true := by decide

/-- 20_memory.md R55: a draw of one byte is enabled, one beyond the distance is not. -/
theorem test_syncW_any_amount :
    answers (step { ring .active 8 0 with wview := 0, sched := [.syncW 1] }) (fun t => t.wview == 1) = true ∧
    answers (step { ring .active 8 0 with wview := 0, sched := [.syncW 9] }) (fun t => t.wview == 0) = true := by decide

/-- 70_reset_and_hazards.md R221 (a): a P.PLAY that reset abandons is never answered, so the run has not ended well. -/
theorem test_abandoned_play_is_unanswered :
    answers (Host.Core.run Sys2Proof.core 3 { State.reset with
        sched := [.agentH, .agentP, .reset], hCmds := [⟨0x04000000#32, [], true⟩]
        pCmds := [⟨0x48000001#32, [1#32], true⟩] })
      (fun t => t.pSeq == none && t.pCmds == [] && t.pIssued == 1 && t.pResp == [] && t.hResp.length == t.hIssued)
      = true := by decide

/-- 20_memory.md R57: a concurrent C issue moves no view (P5, step 6). -/
theorem test_concurrent_issue :
    answers (step { ring .active 16 0 with
        wview := 4, sched := [.agentC], cCmds := [⟨0x84000000#32, [], true⟩], pSeq := some playing })
      (fun t => t.cResp == [⟨.ok, [4#32]⟩] && t.wview == 4) = true := by decide

/-- 70_reset_and_hazards.md R210. -/
theorem test_reset_event :
    answers (step { counted 24 8 with volume := 0#32, pSeq := some playing, sched := [.reset] })
      (fun t => t.statusWord == 0#32 && t.wptr == 0 && t.volume == 0x3F800000#32 && t.pSeq == none && t.mem == [])
      = true := by decide

/-- A word placed for the next step is issued by it. -/
theorem test_withFetchWord :
    answers (step (State.reset.withFetchWord 32 0x04000000)) (fun t => t.statusWord == 1#32) = true ∧
    answers (step (State.reset.withFetchWord 32 0x1C000000)) (fun t => t.volume == 0#32) = true := by decide

/-! ## Witnesses: states and operands that meet the hypotheses of each obligation -/

/-- A payload that no command of zero or four beats takes. -/
def stray : State :=
  { State.reset with hIn := [0#32, 0#32], pIn := [0#32, 0#32], cIn := [0#32, 0#32] }

/-- An empty READY buffer. -/
def readyState : State := ring .ready 0 0

/-- An empty ACTIVE buffer. -/
def activeState : State := ring .active 0 0

/-- A full ACTIVE buffer of frames, with both sequencers running. -/
def busyState : State :=
  { frames 16 0 with pSeq := some playing, cSeq := some (rendering 4 4) }

/-- The cursor order of a concrete state, from its numbers. -/
theorem cursors_inOrder {s : State}
    (h : (Config.CapLegal s.cap ∧ Config.RateLegal s.rate) ∧
      ((s.wptr < 2 * s.cap ∧ s.wptr % 4 = 0) ∧ (s.rptr < 2 * s.cap ∧ s.rptr % 4 = 0) ∧ s.wview < 2 * s.cap ∧
        s.rview < 2 * s.cap) ∧
      cursorDist s.cap s.rview s.rptr + cursorDist s.cap s.rptr s.wview + cursorDist s.cap s.wview s.wptr
        = cursorDist s.cap s.rview s.wptr ∧
      cursorDist s.cap s.rview s.wptr ≤ s.cap) : CursorsInOrder s :=
  ⟨⟨h.1.1, h.1.2⟩, h.2.1.1, h.2.1.2.1, h.2.1.2.2.1, h.2.1.2.2.2, h.2.2.1, h.2.2.2⟩

theorem busy_cursors : CursorsOrdered busyState :=
  ⟨cursors_inOrder (by decide), by decide, by decide⟩

theorem busy_sequencers : SequencersFormed busyState := by
  refine ⟨?_, ?_, by decide⟩
  · intro q h
    cases h
    exact ⟨by decide, by decide, by decide, by decide, by decide⟩
  · intro q h
    cases h
    exact ⟨by decide, by decide, by decide, by decide⟩

theorem busy_draws : WholeDraws { busyState with sched := [.syncW 4, .agentC] } := by
  intro c h
  rcases List.mem_cons.mp h with rfl | h
  · rfl
  · rcases List.mem_cons.mp h with rfl | h
    · trivial
    · cases h

theorem busy_written : ReadableWritten busyState := by
  unfold ReadableWritten
  decide

theorem busy_memFormed : MemFormed busyState := ⟨by decide, by decide⟩

/-- Cursors that have wrapped: W=4 R=20, all of MEM readable, no sequencer. -/
theorem wrapped_cursors : CursorsOrdered (counted 4 20) :=
  ⟨cursors_inOrder (by decide), by decide, by decide⟩

theorem empty_cursors : CursorsOrdered activeState :=
  ⟨cursors_inOrder (by decide), by decide, by decide⟩

theorem wrapped_written : ReadableWritten (counted 4 20) := by
  unfold ReadableWritten
  decide

/-- W=16 R=8 with a producer's view that a draw of 5 has left off a frame. -/
def offFrame : State := { ring .active 16 8 with rview := 5 }

theorem offFrame_cursors : CursorsInOrder offFrame := cursors_inOrder (by decide)

theorem witness_ResetEventClears :
    ∃ (s : State) (rest : List Choice), s.sched = .reset :: rest := ⟨{ busyState with sched := [.reset] }, [], rfl⟩

theorem witness_DecodeOfEncode :
    (Instr.hReadReg 6#3).wellFormed = true ∧ (Instr.pWrite 0x3FFFFFF#26).wellFormed = true := by decide

theorem witness_LegalWordsAreTableRows :
    (0x20000006#32 ≠ 0x20000007#32 ∧
      ∃ row ∈ Sys2Proof.opcodeRows, row.1 = .host ∧ 0x20000006#32 &&& row.2.1 = row.2.2) ∧
    decode .host 0x20000006#32 = .ok (.hReadReg 6#3) ∧
    decode .producer 0x47FFFFFF#32 = .ok (.pWrite 0x3FFFFFF#26) := by decide

/-- An idle port with a command whose word decodes. -/
theorem witness_StepRunsDecodedCommand :
    ∃ s : State, s.sched = agentOf .host :: [] ∧ s.idle .host = true ∧ s.cmds .host = ⟨0x04000000#32, [], true⟩ :: [] ∧
      decode .host 0x04000000#32 = .ok .hInit :=
  ⟨{ State.reset with sched := [.agentH], hCmds := [⟨0x04000000#32, [], true⟩] }, by decide⟩

theorem witness_IllegalWordRaises :
    ∃ s : State, s.sched = agentOf .consumer :: [] ∧ s.idle .consumer = true ∧
      s.cmds .consumer = ⟨0x80000000#32, [], true⟩ :: [] ∧ decode .consumer 0x80000000#32 = .error .funcReserved :=
  ⟨{ State.reset with sched := [.agentC], cCmds := [⟨0x80000000#32, [], true⟩] }, by decide⟩

/-- A sequential and a concurrent issue on C. -/
theorem witness_IssueMovesView :
    (∃ t, acceptCommand .consumer { ring .active 8 0 with wview := 0, cCmds := [⟨0x84000000#32, [], true⟩] }
      = some (0x84000000#32, t)) ∧
    (∃ t, acceptCommand .consumer { ring .active 8 0 with wview := 0, cCmds := [⟨0x84000000#32, [], false⟩] }
      = some (0x84000000#32, t)) := ⟨⟨_, rfl⟩, ⟨_, rfl⟩⟩

theorem witness_PortsWaitOrRunOneCommand :
    State.reset.sched = [] ∧
    (({ State.reset with sched := [.agentP] } : State).idle .producer = true ∧
      ({ State.reset with sched := [.agentP] } : State).cmds .producer = []) ∧
    (∃ t, busyState.sched = agentOf .consumer :: [] ∧ busyState.idle .consumer = false ∧ step busyState = .next t) :=
  ⟨rfl, by decide, _, rfl, rfl, rfl⟩

/-- An issue that is answered at once, one that is not, and the last step of a running command. -/
theorem witness_CommandsAnsweredOnce :
    (∃ t, step { State.reset with sched := [.agentH], hCmds := [⟨0x04000000#32, [], true⟩] } = .next t ∧
      t.status.lstate ≠ .fatal ∧ t.hIssued = 1 ∧ t.hResp.length = 1) ∧
    (∃ t, step { readyState with sched := [.agentP], pCmds := [⟨0x48000001#32, [1#32], true⟩] } = .next t ∧
      t.status.lstate ≠ .fatal ∧ t.pIssued = 1 ∧ t.pResp.length = 0 ∧ t.pBusy = true) ∧
    (∃ t, step { readyState with sched := [.agentP], pSeq := some playing } = .next t ∧
      t.status.lstate ≠ .fatal ∧ t.pResp.length = 1 ∧ t.pBusy = false) :=
  ⟨⟨_, rfl, by decide, rfl, rfl⟩, ⟨_, rfl, by decide, rfl, rfl, rfl⟩, ⟨_, rfl, by decide, rfl, rfl⟩⟩

/-- The clauses of `CommonChecks` for the commands without payload. -/
theorem witness_CommonChecks :
    (stray.dataIn .host).length ≠ 0 ∧ (stray.dataIn .producer).length ≠ 0 ∧ (stray.dataIn .consumer).length ≠ 0 ∧
    (State.reset.dataIn .host).length = 0 ∧ (State.reset.dataIn .producer).length = 0 ∧
    (State.reset.dataIn .consumer).length = 0 := by decide

theorem witness_HInitRule :
    State.reset.hIn = [] ∧ State.reset.status.lstate = .uninit ∧ readyState.status.lstate ∉ [LState.uninit] := by decide

theorem witness_HActivateRule :
    readyState.hIn = [] ∧ readyState.status.lstate = .ready ∧ State.reset.status.lstate ∉ [LState.ready] := by decide

theorem witness_HDeactivateRule :
    activeState.hIn = [] ∧ activeState.status.lstate = .active ∧ readyState.status.lstate ∉ [LState.active] ∧
    (Instr.cRender 1#26).port = .consumer ∧ readyState.status.lstate = .ready ∧ readyState.cIn = [] := by decide

/-- The supported rate and another one. -/
theorem witness_HStartRule :
    activeState.hIn = [] ∧ activeState.status.lstate ∈ [LState.ready, LState.active] ∧
    (44100#26).toNat = activeState.rate ∧ (44101#26).toNat ≠ activeState.rate ∧
    State.reset.status.lstate ∉ [LState.ready, LState.active] := by decide

theorem witness_HStopRule :
    readyState.hIn = [] ∧ readyState.status.lstate ∈ [LState.ready, LState.active] ∧
    State.reset.status.lstate ∉ [LState.ready, LState.active] := by decide

/-- READY and idle, READY and busy, ACTIVE. -/
theorem witness_HDeinitRule :
    readyState.hIn = [] ∧ readyState.status.lstate = .ready ∧ readyState.pSeq = none ∧ readyState.cSeq = none ∧
    busyState.hIn = [] ∧ (busyState.pSeq ≠ none ∨ busyState.cSeq ≠ none) ∧
    activeState.status.lstate ∉ [LState.ready] := by decide

theorem witness_HSetVolumeRule :
    ({ State.reset with hIn := [0x7FC00001#32] } : State).hIn = [0x7FC00001#32] ∧
    State.reset.status.lstate ≠ .fatal ∧ (State.reset.dataIn .host).length ≠ 1 ∧
    (ring .fatal 0 0).status.lstate ∉ [LState.uninit, .ready, .active, .closed] := by decide

theorem witness_HReadRegRule :
    (ring .fatal 0 0).hIn = [] ∧
    (6#3, BitVec.ofNat 32 (ring .fatal 0 0).rate) ∈ [(0#3, (ring .fatal 0 0).statusWord), (6#3, 44100#32)] := by decide

theorem witness_HConvertRule :
    State.reset.hIn = [] ∧ State.reset.status.lstate ≠ .fatal ∧ f32IsNaN 0x7FC00000#32 = true ∧
    (ring .fatal 0 0).status.lstate ∉ [LState.uninit, .ready, .active, .closed] := by decide

/-- A partial frame, a write that fits exactly, one byte count beyond it, one on a full buffer, and one whose view is off
a frame, with five bytes free in view. -/
theorem witness_PWriteRule :
    (6#26).toNat % 4 ≠ 0 ∧ stray.pIn.length = ((6#26).toNat + 3) / 4 ∧
    ({ activeState with pIn := List.replicate 4 1#32 } : State).pIn.length = ((16#26).toNat + 3) / 4 ∧
    CursorsOrdered activeState ∧ activeState.status.lstate ∈ [LState.ready, LState.active] ∧ (16#26).toNat % 4 = 0 ∧
    16 = 4 * (min (16#26).toNat (activeState.cap - cursorDist activeState.cap activeState.rview activeState.wptr) / 4) ∧
    16 = 4 * (min (20#26).toNat (activeState.cap - cursorDist activeState.cap activeState.rview activeState.wptr) / 4) ∧
    0 = 4 * (min (4#26).toNat (16 - cursorDist 16 (ring .active 16 0).rview (ring .active 16 0).wptr) / 4) ∧
    4 = 4 * (min (8#26).toNat (offFrame.cap - cursorDist offFrame.cap offFrame.rview offFrame.wptr) / 4) :=
  ⟨by decide, by decide, by decide, empty_cursors, by decide, by decide, by decide, by decide, by decide, by decide⟩

/-- A count of 0 and a count of 1. -/
theorem witness_PPlayStartRule :
    readyState.pIn.length = (0#26).toNat ∧ readyState.status.lstate ∈ [LState.ready, LState.active] ∧
    ({ readyState with pIn := [1#32] } : State).pIn.length = (1#26).toNat ∧ readyState.pIn.length ≠ (1#26).toNat ∧
    State.reset.status.lstate ∉ [LState.ready, LState.active] := by decide

/-- Eight bytes in the buffer of which the other side's view has seen four, on each side. -/
def laggingState : State := { ring .active 12 4 with wview := 8, rview := 0 }

theorem lagging_cursors : CursorsOrdered laggingState :=
  ⟨cursors_inOrder (by decide), by decide, by decide⟩

/-- An empty and a full buffer, both with current views, and one whose view lags. -/
theorem witness_PFreeSpaceRule :
    readyState.pIn = [] ∧ readyState.status.lstate ∈ [LState.ready, LState.active] ∧
    CursorsInOrder activeState ∧ activeState.rview = activeState.rptr ∧ activeState.readable = 0 ∧
    CursorsInOrder (counted 4 20) ∧ (counted 4 20).readable = (counted 4 20).cap ∧
    CursorsInOrder laggingState ∧ laggingState.rview ≠ laggingState.rptr :=
  ⟨rfl, by decide, empty_cursors.toCursorsInOrder, rfl, by decide, wrapped_cursors.toCursorsInOrder, by decide,
    lagging_cursors.toCursorsInOrder, by decide⟩

theorem witness_PWspanRule :
    ∃ f o l, (ring .active 12 8).pIn = [] ∧ (ring .active 12 8).status.lstate ∈ [LState.ready, LState.active] ∧
      f = (ring .active 12 8).cap - cursorDist (ring .active 12 8).cap (ring .active 12 8).rview (ring .active 12 8).wptr ∧
      o = (ring .active 12 8).wptr % (ring .active 12 8).cap ∧ l = min f ((ring .active 12 8).cap - o) :=
  ⟨12, 12, 4, by decide⟩

theorem witness_CReadAvailableRule :
    activeState.cIn = [] ∧ activeState.status.lstate = .active ∧ readyState.status.lstate ∉ [LState.active] ∧
    CursorsOrdered activeState ∧ activeState.readable = 0 ∧
    CursorsOrdered (counted 4 20) ∧ (counted 4 20).wview = (counted 4 20).wptr ∧
    (counted 4 20).readable = (counted 4 20).cap ∧
    CursorsOrdered laggingState ∧ laggingState.wview ≠ laggingState.wptr :=
  ⟨rfl, rfl, by decide, empty_cursors, by decide, wrapped_cursors, rfl, by decide, lagging_cursors, by decide⟩

theorem witness_CPeekRule :
    CursorsOrdered (ring .active 24 8) ∧ ∃ a o l, (ring .active 24 8).cIn = [] ∧ (ring .active 24 8).status.lstate = .active ∧
      a = cursorDist (ring .active 24 8).cap (ring .active 24 8).rptr (ring .active 24 8).wview ∧
      o = (ring .active 24 8).rptr % (ring .active 24 8).cap ∧ l = min a ((ring .active 24 8).cap - o) :=
  ⟨⟨cursors_inOrder (by decide), by decide, by decide⟩, 16, 8, 8, by decide⟩

/-- A partial frame, one frame too far, and the bound itself. -/
theorem witness_CAdvanceRule :
    (ring .active 12 0).cIn = [] ∧ (ring .active 12 0).status.lstate = .active ∧
    (14#26).toNat % 4 ≠ 0 ∧ (16#26).toNat % 4 = 0 ∧ cursorDist 16 (ring .active 12 0).rptr (ring .active 12 0).wview < (16#26).toNat ∧
    (12#26).toNat % 4 = 0 ∧ (12#26).toNat ≤ cursorDist 16 (ring .active 12 0).rptr (ring .active 12 0).wview := by decide

/-- A partial frame, the first offset beyond MEM, the first frame beyond the readable region, the last one in it. -/
theorem witness_CLoadfRule :
    (counted 20 8).cIn = [] ∧ (counted 20 8).status.lstate = .active ∧
    (18#26).toNat % 4 ≠ 0 ∧ ((10 : Nat) : Int) = ((18#26).toNat - (8 % 16 : Nat)) % 16 ∧
    (16#26).toNat % 4 = 0 ∧ (counted 20 8).cap ≤ (16#26).toNat ∧ ((8 : Nat) : Int) = ((16#26).toNat - (8 % 16 : Nat)) % 16 ∧
    (4#26).toNat % 4 = 0 ∧ (4#26).toNat < (counted 20 8).cap ∧ ((12 : Nat) : Int) = ((4#26).toNat - (8 % 16 : Nat)) % 16 ∧
    cursorDist 16 (counted 20 8).rptr (counted 20 8).wview < 12 + 4 ∧
    (0#26).toNat < (counted 20 8).cap ∧ ((8 : Nat) : Int) = ((0#26).toNat - (8 % 16 : Nat)) % 16 ∧
    8 + 4 ≤ cursorDist 16 (counted 20 8).rptr (counted 20 8).wview := by decide

/-- An empty and a full buffer. -/
theorem witness_CRenderStartRule :
    activeState.cIn = [] ∧ activeState.status.lstate = .active ∧
    cursorDist activeState.cap activeState.rptr activeState.wview = 0 ∧
    (frames 16 0).cIn = [] ∧ (frames 16 0).status.lstate = .active ∧
    cursorDist (frames 16 0).cap (frames 16 0).rptr (frames 16 0).wview ≠ 0 := by decide

/-- A view on a whole frame and one off it. -/
theorem witness_PlayWriteStepRule :
    (∃ s : State, CursorsOrdered s ∧ s.sched = .agentP :: [] ∧ s.pSeq = some playing ∧ playing.rem = 4 * playing.pay.length ∧
      0 < playing.rem ∧ 4 ≤ s.cap - cursorDist s.cap s.rview s.wptr ∧
      4 = 4 * (min playing.rem (s.cap - cursorDist s.cap s.rview s.wptr) / 4)) ∧
    (4 ≤ offFrame.cap - cursorDist offFrame.cap offFrame.rview offFrame.wptr ∧
      4 = 4 * (min playing.rem (offFrame.cap - cursorDist offFrame.cap offFrame.rview offFrame.wptr) / 4)) :=
  ⟨⟨{ ring .active 28 16 with pSeq := some playing, sched := [.agentP] },
      ⟨cursors_inOrder (by decide), by decide, by decide⟩, by decide⟩, by decide⟩

theorem witness_PlayHolds :
    (∃ s : State, s.sched = .agentP :: [] ∧ s.pSeq = some playing ∧ s.cap - cursorDist s.cap s.rview s.wptr < 4) ∧
    (∃ t, busyState.sched = .agentC :: [] ∧ busyState.pSeq = some playing ∧ step busyState = .next t) :=
  ⟨⟨{ ring .active 16 4 with rview := 3, pSeq := some playing, sched := [.agentP] }, by decide⟩, ⟨_, rfl, rfl, rfl⟩⟩

/-- Both clauses: frames to take, none needed, none readable. -/
theorem witness_RenderChunkStepRule :
    busyState.sched = .agentC :: [] ∧ busyState.cSeq = some (rendering 4 4) ∧ (rendering 4 4).phase = .chunk ∧
    0 = busyState.rptr % busyState.cap ∧
    16 = min (cursorDist busyState.cap busyState.rptr busyState.wview) (busyState.cap - 0) ∧
    4 = min (rendering 4 4).left (16 / 4) ∧ 0 < (rendering 4 4).left ∧ (rendering 4 0).left = 0 ∧
    0 = min (cursorDist 16 activeState.rptr activeState.wview) (activeState.cap - 0) := by decide

theorem witness_RenderFillStepRule :
    ∃ (s : State) (q : RenderSeq), s.sched = .agentC :: [] ∧ s.cSeq = some q ∧ q.phase = .fill :=
  ⟨{ busyState with cSeq := some { rendering 4 2 with phase := .fill } }, { rendering 4 2 with phase := .fill }, by decide⟩

/-- The least and the greatest enabled draw, and the first that is not, on each side. -/
theorem witness_LinkStepsMoveViews :
    ({ ring .active 8 0 with wview := 0, sched := [.syncW 8] } : State).sched = .syncW 8 :: [] ∧
    (1 ≤ 1 ∧ 1 ≤ cursorDist 16 0 (ring .active 8 0).wptr) ∧ (1 ≤ 8 ∧ 8 ≤ cursorDist 16 0 (ring .active 8 0).wptr) ∧
    ¬ (9 ≤ cursorDist 16 0 (ring .active 8 0).wptr) ∧
    ({ ring .active 8 4 with rview := 0, sched := [.syncR 4] } : State).sched = .syncR 4 :: [] ∧
    (1 ≤ 4 ∧ 4 ≤ cursorDist 16 0 (ring .active 8 4).rptr) ∧ ¬ (5 ≤ cursorDist 16 0 (ring .active 8 4).rptr) := by decide

/-- Each transition of the lifecycle. -/
theorem witness_LifecycleTransitions :
    (∃ t, step { State.reset with sched := [.agentH], hCmds := [⟨0x04000000#32, [], true⟩] } = .next t ∧
      t.status.lstate = .ready) ∧
    (∃ t, step { readyState with sched := [.agentH], hCmds := [⟨0x08000000#32, [], true⟩] } = .next t ∧
      t.status.lstate = .active) ∧
    (∃ t, step { activeState with sched := [.agentH], hCmds := [⟨0x0C000000#32, [], true⟩] } = .next t ∧
      t.status.lstate = .ready) ∧
    (∃ t, step { readyState with sched := [.agentH], hCmds := [⟨0x18000000#32, [], true⟩] } = .next t ∧
      t.status.lstate = .closed) ∧
    (∃ t, step { readyState with sched := [.agentH], hCmds := [⟨0x1000BB80#32, [], true⟩] } = .next t ∧
      t.status.lstate = .fatal) ∧
    (∃ t, step { activeState with sched := [.reset] } = .next t ∧ t.status.lstate = .uninit) :=
  ⟨⟨_, rfl, rfl⟩, ⟨_, rfl, rfl⟩, ⟨_, rfl, rfl⟩, ⟨_, rfl, rfl⟩, ⟨_, rfl, rfl⟩, ⟨_, rfl, rfl⟩⟩

/-- A state outside the table's, a busy H.DEINIT, a legal command; a running render and play. -/
theorem witness_LegalityTable :
    (readyState.dataIn Instr.cPeek.port).length = payloadBeats .cPeek ∧
    readyState.status.lstate ∉ Sys2Proof.legalStates .cPeek ∧
    activeState.status.lstate ∈ Sys2Proof.legalStates .cPeek ∧
    (busyState.dataIn Instr.hDeinit.port).length = payloadBeats .hDeinit ∧
    (busyState.pSeq ≠ none ∨ busyState.cSeq ≠ none) ∧
    answers (playStep playing { readyState with pSeq := some playing }) (fun t => t.wptr == 12) = true := by decide

/-- A wrong payload, another command with the right one, and H.READ_REG. -/
theorem witness_FatalIsFinal :
    (ring .fatal 0 0).status.lstate = .fatal ∧
    (∃ t, exec .cPeek { ring .fatal 0 0 with cIn := [0#32] } = .next t ∧ [0#32].length ≠ payloadBeats .cPeek) ∧
    (∃ t, exec .cPeek (ring .fatal 0 0) = .next t ∧ (ring .fatal 0 0).cIn.length = payloadBeats .cPeek) ∧
    (∃ t, exec (.hReadReg 0#3) (ring .fatal 0 0) = .next t) :=
  ⟨rfl, ⟨_, rfl, by decide⟩, ⟨_, rfl, rfl⟩, ⟨_, rfl⟩⟩

/-- Every error bit set, and a step. -/
theorem witness_ErrorBitsSticky :
    ∃ (s t : State), s.sched = .agentH :: [] ∧ Choice.agentH ≠ .reset ∧ step s = .next t ∧
      s.status.eIllegal = true ∧ s.status.eState = true ∧ s.status.eFrame = true ∧ s.status.eRange = true ∧
      s.status.eRate = true :=
  ⟨{ State.reset with
      sched := [.agentH], hCmds := [⟨0x04000000#32, [], true⟩]
      status := ⟨.uninit, false, false, true, true, true, true, true⟩ }, _, rfl, by decide, rfl, rfl, rfl, rfl, rfl, rfl⟩

theorem witness_AgentsChangeOnlyTheirOwn :
    (∃ t, step { busyState with sched := [.agentP] } = .next t) ∧ (∃ t, step busyState = .next t) ∧
    (∃ t, step { readyState with sched := [.agentH], hCmds := [⟨0x18000000#32, [], true⟩] } = .next t) ∧
    (∃ t, step { laggingState with sched := [.syncW 4] } = .next t) ∧
    (∃ t, step { laggingState with sched := [.syncR 4] } = .next t) :=
  ⟨⟨_, rfl⟩, ⟨_, rfl⟩, ⟨_, rfl⟩, ⟨_, rfl⟩, ⟨_, rfl⟩⟩

/-- A write step beside unread frames: W=12 R=0 with three frames unread. -/
theorem witness_ProducerNeverOverwritesUnread :
    ∃ s t : State, CursorsInOrder s ∧ s.sched = .agentP :: [] ∧ step s = .next t ∧ 0 < s.readable :=
  ⟨{ frames 12 0 with pSeq := some playing, sched := [.agentP] }, _, cursors_inOrder (by decide), rfl, rfl, by decide⟩

/-- A C.LOADF and a chunk step, which read MEM. -/
theorem witness_ConsumerReadsOnlyWritten :
    (∃ s t : State, CursorsInOrder s ∧ ReadableWritten s ∧ s.sched = .agentC :: [] ∧ step s = .next t ∧
      t.cResp = [⟨.ok, [0x03020100#32]⟩]) ∧
    (∃ t, CursorsInOrder busyState ∧ ReadableWritten busyState ∧ busyState.sched = .agentC :: [] ∧
      step busyState = .next t ∧ t.out.length = 4) :=
  ⟨⟨{ counted 4 20 with sched := [.agentC], cCmds := [⟨0x90000000#32, [], true⟩] }, _, cursors_inOrder (by decide),
      wrapped_written, rfl, rfl, by decide⟩,
    ⟨_, busy_cursors.toCursorsInOrder, busy_written, rfl, rfl, by decide⟩⟩

theorem witness_QueriesNeverOverReport :
    CursorsInOrder offFrame ∧ CursorsOrdered (counted 4 20) ∧
    (counted 4 20).wview = (counted 4 20).wptr ∧ (counted 4 20).rview = (counted 4 20).rptr :=
  ⟨offFrame_cursors, wrapped_cursors, rfl, rfl⟩

theorem witness_WriteThenLoadReturnsBeat :
    ∃ (s : State) (beat : Word), CursorsInOrder s ∧ s.status.lstate = .active ∧ s.pIn = [beat] ∧ s.cIn = [] ∧ 4 ≤ s.freeP :=
  ⟨{ activeState with pIn := [0x00020001#32] }, 0x00020001#32,
    cursors_inOrder (by decide), rfl, rfl, rfl,
    by decide⟩

/-- Four frames, all that fit. -/
theorem witness_PlayWithRoomCompletes :
    ∃ s : State, CursorsInOrder s ∧ s.status.lstate ∈ [LState.ready, LState.active] ∧ s.pSeq = none ∧
      [1#32, 2#32, 3#32, 4#32].length = (4#26).toNat ∧ 0 < (4#26).toNat ∧
      s.pCmds = [⟨encode (.pPlay 4#26), [1#32, 2#32, 3#32, 4#32], true⟩] ∧ s.sched = [.agentP, .agentP] ∧
      4 * (4#26).toNat ≤ s.cap - cursorDist s.cap s.rview s.wptr :=
  ⟨{ activeState with
      sched := [.agentP, .agentP], pCmds := [⟨encode (.pPlay 4#26), [1#32, 2#32, 3#32, 4#32], true⟩] },
    cursors_inOrder (by decide), by decide⟩

theorem witness_RenderConservesFrames :
    (∃ t q', step busyState = .next t ∧ busyState.cSeq = some (rendering 4 4) ∧ t.cSeq = some q') ∧
    (∃ t, (frames 16 0).cIn = [] ∧ (frames 16 0).status.lstate = .active ∧ (frames 16 0).cSeq = none ∧
      exec (.cRender 4#26) (frames 16 0) = .next t) ∧
    (∃ t, busyState.sched = .agentC :: [] ∧ busyState.cSeq = some (rendering 4 4) ∧ step busyState = .next t) ∧
    (∃ t, step { busyState with sched := [.agentH], hCmds := [⟨0x1000BB80#32, [], true⟩] } = .next t ∧
      t.cSeq = none ∧ t.status.lstate = .fatal) :=
  ⟨⟨_, _, rfl, rfl, rfl⟩, ⟨_, rfl, rfl, rfl, rfl⟩, ⟨_, rfl, rfl, rfl⟩, ⟨_, rfl, rfl, rfl⟩⟩

theorem witness_RenderStepBound :
    (∃ t, (frames 16 0).cIn = [] ∧ (frames 16 0).status.lstate = .active ∧ (frames 16 0).cSeq = none ∧
      exec (.cRender 0#26) (frames 16 0) = .next t ∧ t.renderStepsLeft = 2) ∧
    busyState.sched = .agentC :: [] ∧ busyState.cSeq = some (rendering 4 4) ∧
    (∃ t, step { busyState with sched := [.syncW 4] } = .next t) :=
  ⟨⟨_, rfl, rfl, rfl, rfl, rfl⟩, rfl, rfl, ⟨_, rfl⟩⟩

theorem witness_EarlyExitEqualsChunkAndFill :
    activeState.cIn = [] ∧ activeState.status.lstate = .active ∧ activeState.cSeq = none ∧
    cursorDist activeState.cap activeState.rptr activeState.wview = 0 := by decide

/-- W=28 R=12: the readable region wraps, and five steps are needed (95 section 2.4). -/
theorem witness_SequentialRenderDelivers :
    ∃ s : State, CursorsInOrder s ∧ s.status.lstate = .active ∧ s.pSeq = none ∧ s.cSeq = none ∧
      s.cCmds = [⟨encode (.cRender 6#26), [], true⟩] ∧ s.sched = List.replicate 5 .agentC ∧ s.readable = 4 * 4 ∧
      4 = min 4 (6#26).toNat :=
  ⟨{ frames 28 12 with sched := List.replicate 5 .agentC, cCmds := [⟨encode (.cRender 6#26), [], true⟩] },
    cursors_inOrder (by decide), by decide⟩

theorem witness_SampleScalingExact : (-32768 : Int) ≤ -32768 ∧ (-32768 : Int) ≤ 32767 ∧ (32767 : Int) ≤ 32767 := by decide

/-- The four cases of a NaN product. -/
theorem witness_ProductNaNIsAnyQuietNaN :
    f32IsNaN 0x7F800001#32 = true ∧ (f32IsZero 0x80000000#32 = true ∧ f32IsInf 0x7F800000#32 = true) ∧
    (0xFFC00001#32).extractLsb' 22 9 = 0x1FF#9 := by decide

/-- The largest finite volume and a sample; that a tie occurs is `test_conv_rounding_small`. -/
theorem witness_ConvRoundsToNearestEven :
    f32Finite 0x7F7FFFFF#32 ∧ f32Finite 1#32 ∧ ∃ x : ℚ, x = ((0x4000#16).toInt : ℚ) / 32768 * f32Value 1#32 :=
  ⟨show f32Exp _ < 255 by decide, show f32Exp _ < 255 by decide, _, rfl⟩

theorem witness_ConvInfiniteVolume : f32IsInf 0xFF800000#32 = true ∧ (1#16 : BitVec 16) ≠ 0#16 := by decide

theorem witness_StepKeepsMemoryForm :
    ParamsLegal busyState ∧ MemFormed busyState ∧ ∃ t, step busyState = .next t :=
  ⟨busy_cursors.params, busy_memFormed, _, rfl⟩

/-- A view that a draw of one byte has moved is in order as well. -/
theorem witness_StepKeepsCursorOrder :
    CursorsInOrder { laggingState with wview := 5 } ∧
    ∃ t, step { laggingState with wview := 5, sched := [.syncR 1] } = .next t :=
  ⟨cursors_inOrder (by decide), _, rfl⟩

theorem witness_StepKeepsWholeFrames :
    CursorsOrdered { busyState with sched := [.syncW 4, .agentC] } ∧
    WholeDraws { busyState with sched := [.syncW 4, .agentC] } ∧
    ∃ t, step { busyState with sched := [.syncW 4, .agentC] } = .next t :=
  ⟨⟨cursors_inOrder (by decide), by decide, by decide⟩, busy_draws, _, rfl⟩

theorem witness_StepKeepsSequencers : SequencersFormed busyState := busy_sequencers

theorem witness_StepKeepsReadableWritten :
    CursorsInOrder busyState ∧ ReadableWritten busyState ∧ ∃ t, step busyState = .next t :=
  ⟨busy_cursors.toCursorsInOrder, busy_written, _, rfl⟩

theorem witness_RunNeverStops : Inv busyState ∧ SequencersFormed busyState :=
  ⟨⟨busy_cursors.toCursorsInOrder, busy_memFormed, busy_written, busy_sequencers⟩, busy_sequencers⟩

/-! ### Fair runs -/

/-- A run that takes one step and then rests, for agent H, which has nothing to issue, is chosen for ever. -/
def restingRun (s t : State) (n : Nat) : State := if n = 0 then s else t

def restingChoice (c : Choice) (n : Nat) : Choice := if n = 0 then c else .agentH

/-- A state in which no fair step is enabled. -/
structure Resting (s : State) : Prop where
  sched : s.sched = []
  noneH : s.hCmds = []
  noneP : s.pCmds = []
  noneC : s.cCmds = []
  idleP : s.pSeq = none
  idleC : s.cSeq = none
  seenW : cursorDist s.cap s.wview s.wptr = 0
  seenR : cursorDist s.cap s.rview s.rptr = 0

theorem resting_run {s t : State} {c : Choice} (hs : step { s with sched := [c] } = .next t) (ht : Resting t) :
    IsRun (restingRun s t) (restingChoice c) := by
  intro n
  refine ⟨restingRun s t n, ⟨[], [], [], by simp⟩, ?_⟩
  cases n with
  | zero => exact hs
  | succ n =>
    show step { t with sched := [.agentH] } = .next t
    have h := issueStep_cases (port := .host) (s := t) rfl
    rcases h with ⟨_, h⟩ | ⟨cmd, rest, _, h, _⟩
    · rw [step]
      show issueStep .host { t with sched := [] } = .next t
      rw [show ({ t with sched := [] } : State) = t by rw [← ht.sched], h]
    · exact absurd (ht.noneH.symm.trans h) (by simp)

theorem resting_fair {s t : State} {c : Choice} (ht : Resting t) : WeaklyFair (restingRun s t) (restingChoice c) := by
  intro f n h
  have he : f.Enabled t := h (n + 1) (Nat.le_succ n)
  exfalso
  cases f with
  | issue port =>
    cases port
    · exact he.2 ht.noneH
    · exact he.2 ht.noneP
    · exact he.2 ht.noneC
  | render => exact he ht.idleC
  | playWrite =>
    obtain ⟨q, hq, _⟩ := he
    exact absurd (ht.idleP.symm.trans hq) (by simp)
  | syncW => exact absurd he (by simp [FairStep.Enabled, ht.seenW])
  | syncR => exact absurd he (by simp [FairStep.Enabled, ht.seenR])

/-- Weakly fair runs that start with a command waiting on port P, a render, a P.PLAY with room, and a lagging view on each side;
in the last two the cursor stands still. -/
theorem witness_WeakFairnessGivesProgress :
    (∃ run choice, IsRun run choice ∧ WeaklyFair run choice ∧ (run 0).idle .producer = true ∧
      (run 0).cmds .producer ≠ []) ∧
    (∃ run choice, IsRun run choice ∧ WeaklyFair run choice ∧ (run 0).cSeq ≠ none) ∧
    (∃ run choice, IsRun run choice ∧ WeaklyFair run choice ∧ SequencersFormed (run 0) ∧ (run 0).pSeq ≠ none ∧
      ∀ m, 0 ≤ m → (run m).pSeq ≠ none → 4 ≤ (run m).freeP) ∧
    (∃ run choice, IsRun run choice ∧ WeaklyFair run choice ∧ CursorsInOrder (run 0) ∧ (run 0).wview ≠ (run 0).wptr ∧
      ∀ m, 0 ≤ m → (run m).wptr = (run 0).wptr) ∧
    (∃ run choice, IsRun run choice ∧ WeaklyFair run choice ∧ CursorsInOrder (run 0) ∧ (run 0).rview ≠ (run 0).rptr ∧
      ∀ m, 0 ≤ m → (run m).rptr = (run 0).rptr) := by
  refine ⟨?_, ?_, ?_, ?_, ?_⟩
  · exact ⟨_, _, resting_run (s := { State.reset with pCmds := [⟨0x4C000000#32, [], true⟩] }) (c := .agentP) rfl
      ⟨rfl, rfl, rfl, rfl, rfl, rfl, rfl, rfl⟩, resting_fair ⟨rfl, rfl, rfl, rfl, rfl, rfl, rfl, rfl⟩, by decide, by decide⟩
  · exact ⟨_, _, resting_run (s := { ring .active 8 8 with cSeq := some { rendering 4 2 with phase := .fill } }) (c := .agentC)
      rfl ⟨rfl, rfl, rfl, rfl, rfl, rfl, rfl, rfl⟩, resting_fair ⟨rfl, rfl, rfl, rfl, rfl, rfl, rfl, rfl⟩,
      by simp [restingRun]⟩
  · refine ⟨_, _, resting_run (s := { ring .ready 0 0 with wview := 12, pSeq := some playing }) (c := .agentP)
      rfl ⟨rfl, rfl, rfl, rfl, rfl, rfl, rfl, rfl⟩, resting_fair ⟨rfl, rfl, rfl, rfl, rfl, rfl, rfl, rfl⟩, ?_,
      by simp [restingRun], ?_⟩
    · refine ⟨fun q h => ?_, fun q h => ?_, fun h => ?_⟩
      · cases h
        exact ⟨by decide, by decide, by decide, by decide, by decide⟩
      · cases h
      · cases h
    · intro m _ h
      cases m with
      | zero => decide
      | succ m => exact absurd rfl h
  · refine ⟨_, _, resting_run (s := { laggingState with rview := 4 }) (c := .syncW 4)
      rfl ⟨rfl, rfl, rfl, rfl, rfl, rfl, rfl, rfl⟩, resting_fair ⟨rfl, rfl, rfl, rfl, rfl, rfl, rfl, rfl⟩,
      cursors_inOrder (by decide), by decide, fun m _ => ?_⟩
    cases m <;> rfl
  · refine ⟨_, _, resting_run (s := { laggingState with wview := 12 }) (c := .syncR 4)
      rfl ⟨rfl, rfl, rfl, rfl, rfl, rfl, rfl, rfl⟩, resting_fair ⟨rfl, rfl, rfl, rfl, rfl, rfl, rfl, rfl⟩,
      cursors_inOrder (by decide), by decide, fun m _ => ?_⟩
    cases m <;> rfl

end Sys2Proof.Tests
end

section
/-! SUPPORT. What a step of an idle port's agent is: it issues the next word of the port's issuer, in the state with the
schedule advanced (00_scope.md R4, 20_memory.md R57, 30_encoding.md R77, R82), and O6, which says this of a legal word. -/

namespace Sys2Proof.Machine

@[simp] theorem State.cmds_setSched (s : State) (rest : List Choice) (port : Port) :
    (s.setSched rest).cmds port = s.cmds port := by
  cases port <;> rfl

@[simp] theorem State.idle_setSched (s : State) (rest : List Choice) (port : Port) :
    (s.setSched rest).idle port = s.idle port := by
  cases port <;> rfl

theorem State.idle_producer_iff {s : State} : s.idle .producer = true ↔ s.pSeq = none := by
  simp [State.idle, State.pBusy]

theorem State.idle_consumer_iff {s : State} : s.idle .consumer = true ↔ s.cSeq = none := by
  simp [State.idle, State.cBusy]

/-- The agent of an idle port issues: no multi-step command of the port has a next step (30_encoding.md R82). -/
theorem agentStep_agentOf_idle {s : State} {port : Port} (h : s.idle port = true) :
    agentStep (agentOf port) s = issueStep port s := by
  cases port with
  | host => rfl
  | producer => exact agentStep_producer_idle (State.idle_producer_iff.mp h)
  | consumer => exact agentStep_consumer_idle (State.idle_consumer_iff.mp h)

theorem step_of_sched_cons {s : State} {c : Choice} {rest : List Choice} (h : s.sched = c :: rest) :
    step s = agentStep c (s.setSched rest) := by
  simp [step, h]

theorem step_agentOf_idle {s : State} {port : Port} {rest : List Choice} (hsched : s.sched = agentOf port :: rest)
    (hidle : s.idle port = true) : step s = issueStep port (s.setSched rest) := by
  rw [step_of_sched_cons hsched, agentStep_agentOf_idle (by simpa using hidle)]

theorem issueStep_cons {port : Port} {s : State} {cmd : Command} {q : List Command} (h : s.cmds port = cmd :: q) :
    issueStep port s = runWord port cmd.word
      ((((s.setCmds port q).countIssued port).issueView port cmd.seen).deliver port cmd.payload) := by
  simp [issueStep, acceptCommand_cons h]

theorem runWord_of_decode_ok {port : Port} {w : Word} {i : Instr} (h : decode port w = .ok i) (s : State) :
    runWord port w s = exec i s := by
  simp [runWord, h]

/-- Settles O6: the scheduled agent of an idle port issues, the issue accepts the head of the port's queue, and the
accepted word runs as the command it decodes to. -/
theorem stepRunsDecodedCommand : Obligations.StepRunsDecodedCommand := by
  intro s port rest cmd q i hsched hidle hcmds hdecode
  have hcmds' : (s.setSched rest).cmds port = cmd :: q := by simpa using hcmds
  rw [step_agentOf_idle hsched hidle, issueStep_cons hcmds', runWord_of_decode_ok hdecode]
  rfl

end Sys2Proof.Machine
end

section
/-! SUPPORT. What a step can do, said once for every invariant: the agent's port may accept its next command, and one move
follows (00_scope.md R4, 20_memory.md R57, R59). The moves list what the commands, the running sequencers, the link and
reset do to the state, with the guards the invariants need. -/

namespace Sys2Proof.Machine

/-! ## The port of a decoded command -/

theorem formNone_ok {i j : Instr} {op : BitVec 26} (h : formNone i op = .ok j) : j = i := by
  unfold formNone at h
  split at h <;> cases h
  rfl

theorem formIdx3_ok {f : BitVec 3 → Instr} {op : BitVec 26} {j : Instr} (h : formIdx3 f op = .ok j) :
    ∃ idx, j = f idx := by
  unfold formIdx3 at h
  split at h
  · split at h <;> cases h
    exact ⟨_, rfl⟩
  · cases h

theorem formS16_ok {f : BitVec 16 → Instr} {op : BitVec 26} {j : Instr} (h : formS16 f op = .ok j) :
    ∃ smp, j = f smp := by
  unfold formS16 at h
  split at h <;> cases h
  exact ⟨_, rfl⟩

theorem decodeH_port {func : BitVec 4} {op : BitVec 26} {i : Instr} (h : decodeH func op = .ok i) : i.port = .host := by
  unfold decodeH at h
  split at h
  case h_4 => cases h; rfl
  case h_8 => obtain ⟨_, rfl⟩ := formIdx3_ok h; rfl
  case h_9 => obtain ⟨_, rfl⟩ := formS16_ok h; rfl
  case h_10 => cases h
  all_goals rw [formNone_ok h]; rfl

theorem decodeP_port {func : BitVec 4} {op : BitVec 26} {i : Instr} (h : decodeP func op = .ok i) :
    i.port = .producer := by
  unfold decodeP at h
  split at h
  case h_5 => cases h
  case h_1 | h_2 => cases h; rfl
  all_goals rw [formNone_ok h]; rfl

theorem decodeC_port {func : BitVec 4} {op : BitVec 26} {i : Instr} (h : decodeC func op = .ok i) :
    i.port = .consumer := by
  unfold decodeC at h
  split at h
  case h_6 => cases h
  case h_3 | h_4 | h_5 => cases h; rfl
  all_goals rw [formNone_ok h]; rfl

/-- A port accepts only its own commands (30_encoding.md R71, R74(a)). -/
theorem decode_port {port : Port} {w : Word} {i : Instr} (h : decode port w = .ok i) : i.port = port := by
  unfold decode at h
  split at h
  · cases h
  · split at h
    · cases port with
      | host => exact decodeH_port h
      | producer => exact decodeP_port h
      | consumer => exact decodeC_port h
    · cases h

@[simp] theorem agentOf_eq_agentH {port : Port} : agentOf port = .agentH ↔ port = .host := by cases port <;> simp [agentOf]

@[simp] theorem agentOf_eq_agentP {port : Port} : agentOf port = .agentP ↔ port = .producer := by
  cases port <;> simp [agentOf]

@[simp] theorem agentOf_eq_agentC {port : Port} : agentOf port = .agentC ↔ port = .consumer := by
  cases port <;> simp [agentOf]

@[simp] theorem agentOf_ne_reset {port : Port} : agentOf port ≠ .reset := by cases port <;> simp [agentOf]

/-! ## Accepting a command -/

/-- The state in which the first step of an accepted command runs (20_memory.md R57). -/
def State.accept (s : State) (port : Port) (cmd : Command) (q : List Command) : State :=
  (((s.setCmds port q).countIssued port).issueView port cmd.seen).deliver port cmd.payload

/-- What comes before an agent's move: nothing, or its port accepts the next command. -/
inductive Issue (s : State) (c : Choice) : State → Prop
  | none : Issue s c s
  | accept (port : Port) (cmd : Command) (q : List Command) (hc : c = agentOf port) : Issue s c (s.accept port cmd q)

/-! ## The moves -/

/-- The lifecycle states in which there is a buffer (60_exceptions.md R193). -/
def HasBuffer (s : State) : Prop := s.status.lstate = .ready ∨ s.status.lstate = .active

/-- `k` bytes of beats that fit the producer's view of the free region. -/
structure Fits (s : State) (beats : List Word) (k : Nat) : Prop where
  whole : k = 4 * beats.length
  room : k ≤ s.freeP

/-- All that can happen to the state in an agent's step once its port has accepted a command or goes on with one. -/
inductive Move (s : State) : Choice → State → Prop
  | wait (c : Choice) : Move s c s
  | raise (c : Choice) (port : Port) (hc : c = agentOf port) (e : ErrClass) : Move s c (s.raiseError e port)
  | answer (c : Choice) (port : Port) (hc : c = agentOf port) (code : Code) (vs : List Word) :
      Move s c (s.respond port code vs)
  | init (hl : s.status.lstate = .uninit) : Move s .agentH (effectHInit s)
  | deinit (hl : s.status.lstate = .ready) (hp : s.pSeq = none) (hc : s.cSeq = none) :
      Move s .agentH (effectHDeinit s)
  | switch (l : LState) (hs : HasBuffer s) (hl : l = .ready ∨ l = .active) :
      Move s .agentH ((s.setLState l).respond .host .ok [0#32])
  | start : Move s .agentH ((s.setStatus { s.status with started := true }).respond .host .ok [0#32])
  | fatal : Move s .agentH (s.fatal.raiseError .rate .host)
  | setVolume (v : Word) : Move s .agentH ((s.setVolume v).respond .host .ok [0#32])
  | convert (vs : List Word) : Move s .agentH ((s.countConversions 1).respond .host .ok vs)
  | write (beats : List Word) (k : Nat) (vs : List Word) (hw : Fits s beats k) :
      Move s .agentP ((s.writeFrames beats k).respond .producer .ok vs)
  | writeShort (beats : List Word) (k d : Nat) (vs : List Word) (hw : Fits s beats k) :
      Move s .agentP ((((s.writeFrames beats k).setDropped (droppedAdd s.dropped d)).setStatus
        { s.status with overrun := true }).respond .producer .short vs)
  | startPlay (count : Nat) (hpos : 0 < count) (hop : count < 2 ^ 26) (hpay : s.pIn.length = count)
      (hs : HasBuffer s) :
      Move s .agentP ((s.deliver .producer []).setPlay (some { rem := 4 * count, pay := s.pIn, count := count }))
  | playMore (q : PlaySeq) (k : Nat) (hq : s.pSeq = some q) (hw : Fits s (q.pay.take (k / 4)) k)
      (hk : k < q.rem) :
      Move s .agentP ((s.writeFrames (q.pay.take (k / 4)) k).setPlay
        (some { q with rem := q.rem - k, pay := q.pay.drop (k / 4) }))
  | playEnd (beats : List Word) (k : Nat) (vs : List Word) (hw : Fits s beats k) :
      Move s .agentP (((s.writeFrames beats k).setPlay none).respond .producer .ok vs)
  | advance (k : Nat) (vs : List Word) (hk4 : k % 4 = 0) (hk : k ≤ s.availC) :
      Move s .agentC ((s.publishR (cursorAdv s.cap s.rptr k)).respond .consumer .ok vs)
  | emptyRender (beats : List OutBeat) (vs : List Word) :
      Move s .agentC ((s.emit beats).respond .consumer .ok vs)
  | startRender (n : Nat) (hop : n < 2 ^ 26) (hs : HasBuffer s) :
      Move s .agentC ((s.deliver .consumer []).setRender
        (some { phase := .chunk, n := n, left := n, o := 0, k := 0, vol := s.volume }))
  | chunk (q : RenderSeq) (f m : Nat) (beats : List OutBeat) (hq : s.cSeq = some q) (hf : f ≤ q.left)
      (hk : 4 * f ≤ s.availC) :
      Move s .agentC ((((s.emit beats).publishR (cursorAdv s.cap s.rptr (4 * f))).countConversions m).setRender
        (some { q with left := q.left - f, o := q.o + f, k := q.k + f }))
  | toFill (q : RenderSeq) (hq : s.cSeq = some q) :
      Move s .agentC (s.setRender (some { q with phase := .fill }))
  | fill (beats : List OutBeat) (vs : List Word) :
      Move s .agentC (((s.emit beats).setRender none).respond .consumer .ok vs)
  | syncW (d : Nat) : Move s (.syncW d) (s.syncW d)
  | syncR (d : Nat) : Move s (.syncR d) (s.syncR d)
  | reset : Move s .reset s.resetEvent

/-! ## Every command's effect is a move -/

/-- Where a command of port P is legal there is a buffer, and so for port C. -/
theorem hasBuffer_of_legal {i : Instr} {s : State} (hi : i.port ≠ .host) (hl : legal i s = true) : HasBuffer s := by
  cases i <;> simp_all [legal, Instr.port, HasBuffer]

/-- What a producer step accepts of its payload fits. -/
theorem fits_take {s : State} {bytes : Nat} {pay : List Word} (hpay : s.acceptedBytes bytes / 4 ≤ pay.length) :
    Fits s (pay.take (s.acceptedBytes bytes / 4)) (s.acceptedBytes bytes) := by
  obtain ⟨hwhole, -, hroom⟩ := acceptedBytes_spec s bytes
  exact ⟨by rw [List.length_take, Nat.min_eq_left hpay]; omega, hroom⟩

theorem effectHStart_move (rate : BitVec 26) (s : State) : Move s .agentH (effectHStart rate s) := by
  unfold effectHStart
  split
  · exact .fatal
  · exact .start

theorem effectHSetVolume_move (s : State) : Move s .agentH (effectHSetVolume s) := by
  unfold effectHSetVolume
  split
  · exact .raise _ .host rfl _
  · exact .setVolume _

theorem effectHReadReg_move (idx : BitVec 3) (s : State) : Move s .agentH (effectHReadReg idx s) := by
  unfold effectHReadReg
  split
  · exact .raise _ .host rfl _
  · exact .answer _ .host rfl _ _

theorem effectPWrite_move {n : BitVec 26} {s : State} (hp : s.pIn.length = (operandN26 n + 3) / 4) :
    Move s .agentP (effectPWrite n s) := by
  have hfits : Fits s (s.pIn.take (s.acceptedBytes (operandN26 n) / 4)) (s.acceptedBytes (operandN26 n)) := by
    have hle := (acceptedBytes_spec s (operandN26 n)).2.1
    exact fits_take (by omega)
  simp only [effectPWrite]
  split
  · exact .raise _ .producer rfl _
  · split
    · exact .writeShort _ _ _ _ hfits
    · exact .write _ _ _ hfits

theorem effectPPlay_move {count : BitVec 26} {s : State} (hp : s.pIn.length = operandN26 count) (hs : HasBuffer s) :
    Move s .agentP (effectPPlay count s) := by
  simp only [effectPPlay]
  split
  · exact .answer _ .producer rfl _ _
  · exact .startPlay _ (by omega) count.isLt hp hs

theorem effectCAdvance_move (n : BitVec 26) (s : State) : Move s .agentC (effectCAdvance n s) := by
  simp only [effectCAdvance]
  split
  · exact .raise _ .consumer rfl _
  · split
    · exact .raise _ .consumer rfl _
    · exact .advance _ _ (by omega) (by omega)

theorem effectCLoadf_move (off : BitVec 26) (s : State) : Move s .agentC (effectCLoadf off s) := by
  simp only [effectCLoadf]
  split
  · exact .raise _ .consumer rfl _
  · split
    · exact .raise _ .consumer rfl _
    · split
      · exact .raise _ .consumer rfl _
      · exact .answer _ .consumer rfl _ _

theorem effectCRender_move (n : BitVec 26) {s : State} (hs : HasBuffer s) : Move s .agentC (effectCRender n s) := by
  simp only [effectCRender]
  split
  · exact .emptyRender _ _
  · exact .startRender _ n.isLt hs

/-- A command that passes the common checks makes a move of its port's agent. -/
theorem effectOf_move {i : Instr} {s : State} (hp : (s.dataIn i.port).length = payloadBeats i)
    (hl : legal i s = true) : Move s (agentOf i.port) (effectOf i s) := by
  cases i with
  | hInit => exact .init (by simpa [legal] using hl)
  | hActivate => exact .switch .active (.inl (by simpa [legal] using hl)) (.inr rfl)
  | hDeactivate => exact .switch .ready (.inr (by simpa [legal] using hl)) (.inl rfl)
  | hStart rate => exact effectHStart_move rate s
  | hStop => exact .answer _ .host rfl _ _
  | hDeinit =>
    obtain ⟨⟨hready, hplay⟩, hrender⟩ :
        (s.status.lstate = .ready ∧ s.pSeq = none) ∧ s.cSeq = none := by
      simpa [legal, State.pBusy, State.cBusy] using hl
    exact .deinit hready hplay hrender
  | hSetVolume => exact effectHSetVolume_move s
  | hReadReg idx => exact effectHReadReg_move idx s
  | hConvert smp => exact .convert _
  | pWrite n => exact effectPWrite_move hp
  | pPlay count => exact effectPPlay_move hp (hasBuffer_of_legal (by simp [Instr.port]) hl)
  | pFreeSpace | pWspan => exact .answer _ .producer rfl _ _
  | cReadAvailable | cPeek => exact .answer _ .consumer rfl _ _
  | cAdvance n => exact effectCAdvance_move n s
  | cLoadf off => exact effectCLoadf_move off s
  | cRender n => exact effectCRender_move n (hasBuffer_of_legal (by simp [Instr.port]) hl)

/-! ## Every step is an issue and a move -/

theorem exec_move {i : Instr} {s t : State} (h : exec i s = .next t) : Move s (agentOf i.port) t := by
  rcases exec_cases h with ⟨-, ht⟩ | ⟨-, -, ht⟩ | ⟨hp, hl, ht⟩ <;> cases ht
  · exact .raise _ _ rfl _
  · exact .raise _ _ rfl _
  · exact effectOf_move hp hl

theorem issueStep_moves {port : Port} {s t : State} (h : issueStep port s = .next t) :
    ∃ u, Issue s (agentOf port) u ∧ Move u (agentOf port) t := by
  rcases issueStep_cases h with ⟨-, ht⟩ | ⟨cmd, q, u, -, rfl, ⟨e, -, ht⟩ | ⟨i, hd, ht⟩⟩
  · cases ht
    exact ⟨s, .none, .wait _⟩
  · cases ht
    exact ⟨_, .accept port cmd q rfl, .raise _ port rfl _⟩
  · have hmove := exec_move ht.symm
    rw [decode_port hd] at hmove
    exact ⟨_, .accept port cmd q rfl, hmove⟩

theorem playStep_move {q : PlaySeq} {s t : State} (hq : s.pSeq = some q) (h : playStep q s = .next t) :
    Move s .agentP t := by
  rcases playStep_cases q s with ⟨-, hr⟩ | ⟨-, hr⟩ | ⟨hpay, -, -, hr⟩ | ⟨hpay, -, hlt, hr⟩ <;> rw [hr] at h <;> cases h
  · exact .wait _
  · exact .playEnd _ _ _ (fits_take hpay)
  · exact .playMore q _ hq (fits_take hpay) hlt

theorem chunkFrames_le (s : State) (q : RenderSeq) : chunkFrames s q ≤ q.left ∧ 4 * chunkFrames s q ≤ s.availC := by
  have hlen : s.readableSpans.len1 ≤ s.availC := Nat.min_le_left ..
  unfold chunkFrames
  omega

theorem renderStep_move {q : RenderSeq} {s : State} (hq : s.cSeq = some q) : Move s .agentC (renderStep q s) := by
  unfold renderStep
  split
  · obtain ⟨hf, hk⟩ := chunkFrames_le s q
    rcases renderChunk_cases q s with ⟨-, -, hr⟩ | ⟨-, hr⟩ <;> rw [hr]
    · exact .chunk q _ _ _ hq hf hk
    · exact .toFill q hq
  · exact .fill _ _

/-- A step of an agent is an issue on its port, or none, and then a move. -/
theorem agentStep_moves {c : Choice} {s t : State} (h : agentStep c s = .next t) : ∃ u, Issue s c u ∧ Move u c t := by
  cases c with
  | agentH => exact issueStep_moves (port := .host) h
  | agentP =>
    cases hq : s.pSeq with
    | none => exact issueStep_moves (port := .producer) (agentStep_producer_idle hq ▸ h)
    | some q => exact ⟨s, .none, playStep_move hq (agentStep_producer_busy hq ▸ h)⟩
  | agentC =>
    cases hq : s.cSeq with
    | none => exact issueStep_moves (port := .consumer) (agentStep_consumer_idle hq ▸ h)
    | some q =>
      cases (agentStep_consumer_busy hq).symm.trans h
      exact ⟨s, .none, renderStep_move hq⟩
  | syncW d => cases h; exact ⟨s, .none, .syncW d⟩
  | syncR d => cases h; exact ⟨s, .none, .syncR d⟩
  | reset => cases h; exact ⟨s, .none, .reset⟩

/-- All that a step can do: wait on an empty schedule, or take the first choice, issue and move. -/
theorem step_moves {s t : State} (h : step s = .next t) :
    (s.sched = [] ∧ t = s) ∨
    ∃ c rest u, s.sched = c :: rest ∧ Issue (s.setSched rest) c u ∧ Move u c t := by
  rcases step_cases h with ⟨hs, ht⟩ | ⟨c, rest, hs, ht⟩
  · exact .inl ⟨hs, by cases ht; rfl⟩
  · obtain ⟨u, hissue, hmove⟩ := agentStep_moves ht.symm
    exact .inr ⟨c, rest, u, hs, hissue, hmove⟩

/-- The step of a known choice. -/
theorem step_moves_of_sched {s t : State} {c : Choice} {rest : List Choice} (hs : s.sched = c :: rest)
    (h : step s = .next t) : ∃ u, Issue (s.setSched rest) c u ∧ Move u c t :=
  agentStep_moves ((step_of_sched_cons hs).symm.trans h)

end Sys2Proof.Machine
end

section
/-! SUPPORT. What a step does to the ring buffer, said once: of the pieces MEM, cursors, views and parameters, a move does
one of eight operations, each open to one agent only (20_memory.md R53, R55). The invariants of the buffer are kept by
every step because every one of these operations keeps them. -/

namespace Sys2Proof.Machine

/-! ## The pieces of the ring buffer -/

/-- The state with every piece blanked that is not the ring buffer's: two states agree on the ring buffer when their
`ring` is the same. -/
def State.ring (s : State) : State :=
  { State.reset with
    cap := s.cap, rate := s.rate, mem := s.mem, memGen := s.memGen
    wptr := s.wptr, rptr := s.rptr, wview := s.wview, rview := s.rview }

/-- The consumer's view moved to the true write cursor (20_memory.md R57). -/
def State.seeW (s : State) : State := { s with wview := s.wptr }

/-- The producer's view moved to the true read cursor (20_memory.md R57). -/
def State.seeR (s : State) : State := { s with rview := s.rptr }

/-- What one agent can do to the ring buffer. -/
inductive RingOp (s : State) : Choice → State → Prop
  | keep (c : Choice) : RingOp s c s
  | empty (c : Choice) (hc : c = .agentH ∨ c = .reset) : RingOp s c s.emptyBuffer
  | write (beats : List Word) (k : Nat) (hw : Fits s beats k) : RingOp s .agentP (s.writeFrames beats k)
  | advance (k : Nat) (hk4 : k % 4 = 0) (hk : k ≤ s.availC) :
      RingOp s .agentC (s.publishR (cursorAdv s.cap s.rptr k))
  | seeW : RingOp s .agentC s.seeW
  | seeR : RingOp s .agentP s.seeR
  | syncW (d : Nat) : RingOp s (.syncW d) (s.syncW d)
  | syncR (d : Nat) : RingOp s (.syncR d) (s.syncR d)

/-- One operation on the ring buffer, whatever happens to the rest of the state. -/
def RingMove (s : State) (c : Choice) (t : State) : Prop := ∃ u, RingOp s c u ∧ t.ring = u.ring

theorem RingMove.of_ring_eq {c : Choice} {s t : State} (h : t.ring = s.ring) : RingMove s c t := ⟨s, .keep c, h⟩

@[simp] theorem State.ring_respond (s : State) (port : Port) (code : Code) (vs : List Word) :
    (s.respond port code vs).ring = s.ring := by
  cases port <;> rfl

@[simp] theorem State.ring_raiseError (s : State) (e : ErrClass) (port : Port) :
    (s.raiseError e port).ring = s.ring := by
  cases port <;> rfl

@[simp] theorem State.ring_setSched (s : State) (rest : List Choice) : (s.setSched rest).ring = s.ring := rfl

/-- Issuing moves at most the port's own view. -/
theorem Issue.ringMove {c : Choice} {s u : State} (h : Issue s c u) : RingMove s c u := by
  cases h with
  | none => exact .of_ring_eq rfl
  | accept port cmd q hc =>
    subst hc
    cases port with
    | host => exact .of_ring_eq rfl
    | producer =>
      simp only [State.accept, State.issueView]
      split
      · exact ⟨_, .seeR, rfl⟩
      · exact .of_ring_eq rfl
    | consumer =>
      simp only [State.accept, State.issueView]
      split
      · exact ⟨_, .seeW, rfl⟩
      · exact .of_ring_eq rfl

theorem Move.ringMove {c : Choice} {s t : State} (h : Move s c t) : RingMove s c t := by
  cases h with
  | raise | answer => exact .of_ring_eq (by simp)
  | init | deinit => exact ⟨_, .empty _ (.inl rfl), rfl⟩
  | reset => exact ⟨_, .empty _ (.inr rfl), rfl⟩
  | write beats k vs hw => exact ⟨_, .write beats k hw, rfl⟩
  | writeShort beats k d vs hw => exact ⟨_, .write beats k hw, rfl⟩
  | playMore q k hq hw hk => exact ⟨_, .write _ k hw, rfl⟩
  | playEnd beats k vs hw => exact ⟨_, .write beats k hw, rfl⟩
  | advance k vs hk4 hk => exact ⟨_, .advance k hk4 hk, rfl⟩
  | chunk q f m beats hq hf hk => exact ⟨_, .advance (4 * f) (by omega) hk, rfl⟩
  | syncW d => exact ⟨_, .syncW d, rfl⟩
  | syncR d => exact ⟨_, .syncR d, rfl⟩
  | _ => exact .of_ring_eq rfl

/-! ## Predicates of the ring buffer that every step keeps -/

/-- A predicate that reads the ring buffer only and is kept by an agent's operations on it is kept by its moves. -/
theorem RingMove.keeps {P : State → Prop} {c : Choice} {s t : State} (hring : ∀ u, P u.ring ↔ P u)
    (hop : ∀ u v, RingOp u c v → P u → P v) (h : RingMove s c t) (hs : P s) : P t := by
  obtain ⟨u, hu, htu⟩ := h
  rw [← hring t, htu, hring u]
  exact hop s u hu hs

/-- A predicate of the ring buffer that the operations of every agent scheduled next keep is kept by the step. -/
theorem step_keeps_ring {P : State → Prop} {s t : State} (hring : ∀ u, P u.ring ↔ P u)
    (hop : ∀ c, s.sched.head? = some c → ∀ u v, RingOp u c v → P u → P v) (hs : P s) (h : step s = .next t) : P t := by
  rcases step_moves h with ⟨-, rfl⟩ | ⟨c, rest, u, hsched, hissue, hmove⟩
  · exact hs
  · have hopc := hop c (by rw [hsched]; rfl)
    have hs' : P (s.setSched rest) := (hring _).mp ((hring s).mpr hs)
    exact hmove.ringMove.keeps hring hopc (hissue.ringMove.keeps hring hopc hs')

end Sys2Proof.Machine
end

section
/-! SUPPORT. Cursors and views: the queries never report more than is true (O42), and every step keeps their order (O55) and
whole frames (O56). -/

namespace Sys2Proof.Machine

/-! ## Readable and free bytes -/

/-- Distances add up along three cursors in one turn. -/
theorem cursorDist_add {cap a b c : Nat} (ha : a < 2 * cap) (hb : b < 2 * cap) (hc : c < 2 * cap)
    (h : cursorDist cap a b + cursorDist cap b c < 2 * cap) :
    cursorDist cap a b + cursorDist cap b c = cursorDist cap a c := by
  rcases cursorDist_cases ha hb with ⟨_, h1⟩ | ⟨_, h1⟩ <;> rcases cursorDist_cases hb hc with ⟨_, h2⟩ | ⟨_, h2⟩ <;>
    rcases cursorDist_cases ha hc with ⟨_, h3⟩ | ⟨_, h3⟩ <;> omega

/-- Moving a cursor by its distance to another reaches it. -/
theorem cursorAdv_cursorDist {cap a b : Nat} (ha : a < 2 * cap) (hb : b < 2 * cap) :
    cursorAdv cap a (cursorDist cap a b) = b := by
  have hd : cursorDist cap a b < 2 * cap := cursorDist_lt (by omega)
  rcases cursorDist_cases ha hb with ⟨_, h1⟩ | ⟨_, h1⟩ <;>
    rcases cursorAdv_cases ha (Nat.le_of_lt hd) with ⟨_, h2⟩ | ⟨_, h2⟩ <;> omega

theorem CursorsInOrder.cap_pos {s : State} (h : CursorsInOrder s) : 0 < s.cap := by
  have := h.params.cap.2.1
  omega

/-- The readable bytes are those in the consumer's view and those it has not seen yet. -/
theorem CursorsInOrder.availC_add {s : State} (h : CursorsInOrder s) :
    s.availC + cursorDist s.cap s.wview s.wptr = s.readable :=
  cursorDist_add h.rptr.1 h.wview h.wptr.1 (by have := h.order; have := h.room; have := h.cap_pos; omega)

/-- What the producer takes as unread is what is readable and what it has not seen read yet. -/
theorem CursorsInOrder.add_readable {s : State} (h : CursorsInOrder s) :
    cursorDist s.cap s.rview s.rptr + s.readable = cursorDist s.cap s.rview s.wptr := by
  have hsum : s.availC + cursorDist s.cap s.wview s.wptr = s.readable := h.availC_add
  have hord := h.order
  unfold State.availC at hsum
  omega

theorem CursorsInOrder.readable_le {s : State} (h : CursorsInOrder s) : s.readable ≤ s.cap := by
  have := h.add_readable
  have := h.room
  omega

theorem CursorsInOrder.availC_le {s : State} (h : CursorsInOrder s) : s.availC ≤ s.readable := by
  have := h.availC_add
  omega

theorem CursorsInOrder.freeP_le {s : State} (h : CursorsInOrder s) : s.freeP ≤ s.free := by
  have := h.add_readable
  unfold State.freeP State.free
  omega

theorem CursorsInOrder.readable_mod_four {s : State} (h : CursorsInOrder s) : s.readable % 4 = 0 :=
  cursorDist_mod_four h.params.cap.1 h.rptr.1 h.wptr.1 h.rptr.2 h.wptr.2

/-- Settles O42: the distances of 10_state.md R33 add up, so a lagging view only takes bytes from what a query reports. -/
theorem queriesNeverOverReport : Obligations.QueriesNeverOverReport := by
  intro s h
  have hle := h.readable_le
  have hr4 := h.readable_mod_four
  have hcap4 := h.params.cap.1
  have hfree : s.free = s.cap - s.readable := rfl
  refine ⟨hle, by omega, hr4, by omega, h.availC_le, h.freeP_le, ?_, ?_, ?_⟩
  · intro hview
    unfold State.availC State.readable
    rw [hview]
  · intro hview
    unfold State.freeP State.free State.readable
    rw [hview]
  · intro ho
    have ha4 : s.availC % 4 = 0 := cursorDist_mod_four hcap4 h.rptr.1 h.wview h.rptr.2 ho.wholeWview
    have hd4 := cursorDist_mod_four hcap4 h.rview h.wptr.1 ho.wholeRview h.wptr.2
    have hfreeP : s.freeP = s.cap - cursorDist s.cap s.rview s.wptr := rfl
    exact ⟨ha4, by omega⟩

/-! ## The order of cursors and views under each operation -/

/-- An empty buffer: all cursors and views at 0. -/
theorem cursorsInOrder_of_zero {s : State} (hp : ParamsLegal s) (hw : s.wptr = 0) (hr : s.rptr = 0) (hwv : s.wview = 0)
    (hrv : s.rview = 0) : CursorsInOrder s := by
  have hcap : 0 < 2 * s.cap := by
    have := hp.cap.2.1
    omega
  have hself : cursorDist s.cap 0 0 = 0 := cursorDist_self hcap
  constructor <;> simp_all

theorem CursorsInOrder.emptyBuffer {s : State} (h : CursorsInOrder s) : CursorsInOrder s.emptyBuffer :=
  cursorsInOrder_of_zero ⟨h.params.cap, h.params.rate⟩ rfl rfl rfl rfl

theorem CursorsInOrder.writeFrames {s : State} {beats : List Word} {k : Nat} (h : CursorsInOrder s) (hw : Fits s beats k) :
    CursorsInOrder (s.writeFrames beats k) := by
  have hcap := h.cap_pos
  have hord := h.order
  have hroom := h.room
  have hk : k ≤ s.cap - cursorDist s.cap s.rview s.wptr := hw.room
  have hk4 : k % 4 = 0 := by have := hw.whole; omega
  have hp := cursorDist_cursorAdv (k := k) h.rview h.wptr.1 (by omega)
  have hv := cursorDist_cursorAdv (k := k) h.wview h.wptr.1 (by omega)
  exact
    { params := ⟨h.params.cap, h.params.rate⟩
      wptr := ⟨cursorAdv_lt hcap, cursorAdv_mod_four h.params.cap.1 h.wptr.1 (by omega) h.wptr.2 hk4⟩
      rptr := h.rptr
      wview := h.wview
      rview := h.rview
      order := by simp only [State.writeFrames]; omega
      room := by simp only [State.writeFrames]; omega }

theorem CursorsInOrder.publishR {s : State} {k : Nat} (h : CursorsInOrder s) (hk4 : k % 4 = 0) (hk : k ≤ s.availC) :
    CursorsInOrder (s.publishR (cursorAdv s.cap s.rptr k)) := by
  have hcap := h.cap_pos
  have hord := h.order
  have hroom := h.room
  have hk' : k ≤ cursorDist s.cap s.rptr s.wview := hk
  have hr := cursorDist_cursorAdv (k := k) h.rview h.rptr.1 (by omega)
  have hv := cursorDist_cursorAdv_left (k := k) h.rptr.1 h.wview hk'
  exact
    { params := ⟨h.params.cap, h.params.rate⟩
      wptr := h.wptr
      rptr := ⟨cursorAdv_lt hcap, cursorAdv_mod_four h.params.cap.1 h.rptr.1 (by omega) h.rptr.2 hk4⟩
      wview := h.wview
      rview := h.rview
      order := by simp only [State.publishR]; omega
      room := h.room }

/-- The consumer's view may move any amount up to the write cursor. -/
theorem CursorsInOrder.moveW {s : State} {d : Nat} (h : CursorsInOrder s) (hd : d ≤ cursorDist s.cap s.wview s.wptr) :
    CursorsInOrder { s with wview := cursorAdv s.cap s.wview d } := by
  have hcap := h.cap_pos
  have hord := h.order
  have hroom := h.room
  have hr := cursorDist_cursorAdv (k := d) h.rptr.1 h.wview (by omega)
  have hw := cursorDist_cursorAdv_left (k := d) h.wview h.wptr.1 hd
  exact
    { params := ⟨h.params.cap, h.params.rate⟩
      wptr := h.wptr
      rptr := h.rptr
      wview := cursorAdv_lt hcap
      rview := h.rview
      order := by dsimp only; omega
      room := h.room }

/-- The producer's view may move any amount up to the read cursor. -/
theorem CursorsInOrder.moveR {s : State} {d : Nat} (h : CursorsInOrder s) (hd : d ≤ cursorDist s.cap s.rview s.rptr) :
    CursorsInOrder { s with rview := cursorAdv s.cap s.rview d } := by
  have hcap := h.cap_pos
  have hord := h.order
  have hroom := h.room
  have hr := cursorDist_cursorAdv_left (k := d) h.rview h.rptr.1 hd
  have hw := cursorDist_cursorAdv_left (k := d) h.rview h.wptr.1 (by omega)
  exact
    { params := ⟨h.params.cap, h.params.rate⟩
      wptr := h.wptr
      rptr := h.rptr
      wview := h.wview
      rview := cursorAdv_lt hcap
      order := by dsimp only; omega
      room := by dsimp only; omega }

theorem CursorsInOrder.seeW {s : State} (h : CursorsInOrder s) : CursorsInOrder s.seeW := by
  have hmove := h.moveW (Nat.le_refl _)
  rwa [cursorAdv_cursorDist h.wview h.wptr.1] at hmove

theorem CursorsInOrder.seeR {s : State} (h : CursorsInOrder s) : CursorsInOrder s.seeR := by
  have hmove := h.moveR (Nat.le_refl _)
  rwa [cursorAdv_cursorDist h.rview h.rptr.1] at hmove

theorem CursorsInOrder.syncW {s : State} (h : CursorsInOrder s) (d : Nat) : CursorsInOrder (s.syncW d) := by
  unfold State.syncW
  split
  · next hd => exact h.moveW (linkEnabled_iff.mp hd).2
  · exact h

theorem CursorsInOrder.syncR {s : State} (h : CursorsInOrder s) (d : Nat) : CursorsInOrder (s.syncR d) := by
  unfold State.syncR
  split
  · next hd => exact h.moveR (linkEnabled_iff.mp hd).2
  · exact h

theorem cursorsInOrder_ring (s : State) : CursorsInOrder s.ring ↔ CursorsInOrder s :=
  ⟨fun h => ⟨⟨h.params.cap, h.params.rate⟩, h.wptr, h.rptr, h.wview, h.rview, h.order, h.room⟩,
   fun h => ⟨⟨h.params.cap, h.params.rate⟩, h.wptr, h.rptr, h.wview, h.rview, h.order, h.room⟩⟩

theorem RingOp.cursorsInOrder {c : Choice} {s t : State} (hop : RingOp s c t) (h : CursorsInOrder s) :
    CursorsInOrder t := by
  cases hop with
  | keep => exact h
  | empty => exact h.emptyBuffer
  | write beats k hw => exact h.writeFrames hw
  | advance k hk4 hk => exact h.publishR hk4 hk
  | seeW => exact h.seeW
  | seeR => exact h.seeR
  | syncW d => exact h.syncW d
  | syncR d => exact h.syncR d

/-- Settles O55: each of the operations on the ring buffer keeps the order of 10_state.md R33 and the whole-frame
cursors. -/
theorem stepKeepsCursorOrder : Obligations.StepKeepsCursorOrder := fun _ _ hs h =>
  step_keeps_ring cursorsInOrder_ring (fun _ _ _ _ hop => hop.cursorsInOrder) hs h

/-! ## Views on whole frames -/

theorem cursorsOrdered_ring (s : State) : CursorsOrdered s.ring ↔ CursorsOrdered s :=
  ⟨fun h => ⟨(cursorsInOrder_ring s).mp h.toCursorsInOrder, h.wholeWview, h.wholeRview⟩,
   fun h => ⟨(cursorsInOrder_ring s).mpr h.toCursorsInOrder, h.wholeWview, h.wholeRview⟩⟩

/-- A view moved by a whole draw within the distance stays on a whole frame. -/
theorem CursorsInOrder.view_mod_four {s : State} {v w d : Nat} (h : CursorsInOrder s) (hv : v < 2 * s.cap)
    (hv4 : v % 4 = 0) (hd : d ≤ cursorDist s.cap v w) (hd4 : d % 4 = 0) : cursorAdv s.cap v d % 4 = 0 := by
  have hlt : cursorDist s.cap v w < 2 * s.cap := cursorDist_lt h.cap_pos
  exact cursorAdv_mod_four h.params.cap.1 hv (by omega) hv4 hd4

theorem RingOp.cursorsOrdered {c : Choice} {s t : State} (hop : RingOp s c t) (hc : wholeDraw c) (h : CursorsOrdered s) :
    CursorsOrdered t := by
  have hin := hop.cursorsInOrder h.toCursorsInOrder
  cases hop with
  | keep => exact h
  | empty => exact ⟨hin, rfl, rfl⟩
  | write | advance => exact ⟨hin, h.wholeWview, h.wholeRview⟩
  | seeW => exact ⟨hin, h.wptr.2, h.wholeRview⟩
  | seeR => exact ⟨hin, h.wholeWview, h.rptr.2⟩
  | syncW d =>
    refine ⟨hin, ?_, by simpa using h.wholeRview⟩
    rw [State.syncW_wview]
    split
    · next hd => exact h.toCursorsInOrder.view_mod_four h.wview h.wholeWview (linkEnabled_iff.mp hd).2 hc
    · exact h.wholeWview
  | syncR d =>
    refine ⟨hin, by simpa using h.wholeWview, ?_⟩
    rw [State.syncR_rview]
    split
    · next hd => exact h.toCursorsInOrder.view_mod_four h.rview h.wholeRview (linkEnabled_iff.mp hd).2 hc
    · exact h.wholeRview

theorem Issue.sched {c : Choice} {s u : State} (h : Issue s c u) : u.sched = s.sched := by
  cases h with
  | none => rfl
  | accept => simp [State.accept]

/-- No move touches the schedule. -/
theorem Move.sched {c : Choice} {s t : State} (h : Move s c t) : t.sched = s.sched := by
  cases h with
  | raise | answer | syncW | syncR => simp
  | _ => rfl

/-- A step takes at most the first choice of the schedule. -/
theorem step_sched {s t : State} (h : step s = .next t) : t.sched = s.sched.tail := by
  rcases step_moves h with ⟨hsched, rfl⟩ | ⟨c, rest, u, hsched, hissue, hmove⟩
  · rw [hsched, List.tail_nil]
  · rw [hmove.sched, hissue.sched, hsched, List.tail_cons, State.setSched_sched]

/-- Settles O56: only a link step moves a view by an amount of its own, and its draw is on the schedule. -/
theorem stepKeepsWholeFrames : Obligations.StepKeepsWholeFrames := by
  intro s t hs hdraws h
  refine ⟨step_keeps_ring cursorsOrdered_ring ?_ hs h, ?_⟩
  · intro c hc u v hop
    exact hop.cursorsOrdered (hdraws c (List.mem_of_mem_head? hc))
  · intro c hc
    rw [step_sched h] at hc
    exact hdraws c (List.mem_of_mem_tail hc)

end Sys2Proof.Machine
end

section
/-! SUPPORT. MEM: every step keeps its form (O54) and the readable bytes written (O58), the producer leaves the unread bytes
alone (O40). -/

namespace Sys2Proof.Machine

/-! ## The form of MEM -/

/-- Legal parameters and MEM in canonical form below CAP, as one predicate of the ring buffer. -/
def LegalMem (s : State) : Prop := ParamsLegal s ∧ MemFormed s

theorem legalMem_ring (s : State) : LegalMem s.ring ↔ LegalMem s :=
  ⟨fun ⟨hp, hm⟩ => ⟨⟨hp.cap, hp.rate⟩, ⟨hm.wf, hm.inRange⟩⟩, fun ⟨hp, hm⟩ => ⟨⟨hp.cap, hp.rate⟩, ⟨hm.wf, hm.inRange⟩⟩⟩

theorem LegalMem.of_eq {s t : State} (h : LegalMem s) (hcap : t.cap = s.cap) (hrate : t.rate = s.rate)
    (hmem : t.mem = s.mem) : LegalMem t :=
  ⟨⟨hcap ▸ h.1.cap, hrate ▸ h.1.rate⟩, ⟨hmem ▸ h.2.wf, hmem ▸ hcap ▸ h.2.inRange⟩⟩

theorem RingOp.legalMem {c : Choice} {s t : State} (hop : RingOp s c t) (h : LegalMem s) : LegalMem t := by
  obtain ⟨hp, hm⟩ := h
  have hcap : 0 < s.cap := by
    have := hp.cap.2.1
    omega
  cases hop with
  | keep => exact ⟨hp, hm⟩
  | empty => exact ⟨⟨hp.cap, hp.rate⟩, ⟨memWf_nil, nofun⟩⟩
  | write beats k hw =>
    exact ⟨⟨hp.cap, hp.rate⟩, ⟨memWf_memWriteBeats _ _ _ _ hm.wf, memBelow_memWriteBeats hcap _ _ hm.inRange⟩⟩
  | advance | seeW | seeR => exact ⟨⟨hp.cap, hp.rate⟩, ⟨hm.wf, hm.inRange⟩⟩
  | syncW | syncR => exact LegalMem.of_eq ⟨hp, hm⟩ (by simp) (by simp) (by simp)

/-- Settles O54: only a producer step writes MEM, and its stores keep the list sorted and below CAP. -/
theorem stepKeepsMemoryForm : Obligations.StepKeepsMemoryForm := fun _ _ hp hm h =>
  step_keeps_ring legalMem_ring (fun _ _ _ _ hop => hop.legalMem) ⟨hp, hm⟩ h

/-! ## Written bytes -/

/-- A store unwrites no byte. -/
theorem memLookup_memStore_isSome {m : List Host.Cell} {a : Nat} (b : Nat) (v : Byte) (h : (memLookup m a).isSome = true) :
    (memLookup (memStore m b v) a).isSome = true := by
  rcases eq_or_ne a b with rfl | hne
  · rw [memLookup_memStore_same]
    rfl
  · rwa [memLookup_memStore_other m v hne]

theorem memLookup_memWrite_isSome {cap : Nat} {m : List Host.Cell} {a : Nat} (off n : Nat) (v : Word)
    (h : (memLookup m a).isSome = true) : (memLookup (memWrite cap m off n v) a).isSome = true := by
  induction n with
  | zero => exact h
  | succ k ih => exact memLookup_memStore_isSome _ _ ih

theorem memLookup_memWriteBeats_isSome {cap : Nat} {m : List Host.Cell} {a : Nat} (base : Nat) (beats : List Word)
    (h : (memLookup m a).isSome = true) : (memLookup (memWriteBeats cap m base beats) a).isSome = true := by
  induction beats generalizing m base with
  | nil => exact h
  | cons b rest ih => exact ih _ (memLookup_memWrite_isSome _ _ _ h)

/-- The bytes from the write cursor on, as far as the beats reach, are written. -/
theorem memLookup_writeFrames_isSome {s : State} {beats : List Word} {k j : Nat} (hw : Fits s beats k) (hj : j < k) :
    (memLookup (s.writeFrames beats k).mem ((s.wptr + j) % s.cap)).isSome = true := by
  have hlen : 4 * beats.length ≤ s.cap := hw.whole ▸ hw.room.trans (Nat.sub_le ..)
  have hhit := memLookup_memWriteBeats_hit (cap := s.cap) s.mem (s.wptr % s.cap) beats hlen (i := j / 4) (j := j % 4)
    (by have := hw.whole; omega) (by omega)
  rw [show s.wptr % s.cap + 4 * (j / 4) + j % 4 = s.wptr % s.cap + j by omega, Nat.mod_add_mod] at hhit
  rw [State.writeFrames_mem, hhit]
  rfl

/-- The write offset is where the readable bytes end. -/
theorem rptr_add_readable_mod {s : State} (h : CursorsInOrder s) : (s.rptr + s.readable) % s.cap = s.wptr % s.cap := by
  have hadv : cursorAdv s.cap s.rptr s.readable = s.wptr := cursorAdv_cursorDist h.rptr.1 h.wptr.1
  rw [← hadv, cursorAdv_mod_cap]

/-- The offset of a byte beyond the readable ones, counted from the write cursor. -/
theorem rptr_add_mod_of_le {s : State} (h : CursorsInOrder s) {j : Nat} (hj : s.readable ≤ j) :
    (s.rptr + j) % s.cap = (s.wptr + (j - s.readable)) % s.cap := by
  rw [show s.rptr + j = s.rptr + s.readable + (j - s.readable) by omega, Nat.add_mod, rptr_add_readable_mod h,
    ← Nat.add_mod]

theorem readable_writeFrames {s : State} {beats : List Word} {k : Nat} (h : CursorsInOrder s) (hw : Fits s beats k) :
    (s.writeFrames beats k).readable = s.readable + k := by
  refine cursorDist_cursorAdv h.rptr.1 h.wptr.1 ?_
  have hk : k ≤ s.cap - s.readable := hw.room.trans h.freeP_le
  have hle := h.readable_le
  have hpos := h.cap_pos
  show s.readable + k < 2 * s.cap
  omega

theorem readable_publishR {s : State} {k : Nat} (h : CursorsInOrder s) (hk : k ≤ s.availC) :
    (s.publishR (cursorAdv s.cap s.rptr k)).readable = s.readable - k :=
  cursorDist_cursorAdv_left h.rptr.1 h.wptr.1 (hk.trans h.availC_le)

theorem ReadableWritten.writeFrames {s : State} {beats : List Word} {k : Nat} (h : ReadableWritten s)
    (hc : CursorsInOrder s) (hw : Fits s beats k) : ReadableWritten (s.writeFrames beats k) := by
  intro j hj
  rw [readable_writeFrames hc hw] at hj
  show (memLookup (s.writeFrames beats k).mem ((s.rptr + j) % s.cap)).isSome = true
  rcases Nat.lt_or_ge j s.readable with hlt | hge
  · exact memLookup_memWriteBeats_isSome _ _ (h j hlt)
  · rw [rptr_add_mod_of_le hc hge]
    exact memLookup_writeFrames_isSome hw (by omega)

theorem ReadableWritten.publishR {s : State} {k : Nat} (h : ReadableWritten s) (hc : CursorsInOrder s)
    (hk : k ≤ s.availC) : ReadableWritten (s.publishR (cursorAdv s.cap s.rptr k)) := by
  intro j hj
  rw [readable_publishR hc hk] at hj
  show (memLookup s.mem ((cursorAdv s.cap s.rptr k + j) % s.cap)).isSome = true
  rw [Nat.add_mod, cursorAdv_mod_cap, ← Nat.add_mod, Nat.add_assoc]
  exact h (k + j) (by omega)

/-- The empty buffer has no readable byte. -/
theorem readableWritten_emptyBuffer {s : State} (h : CursorsInOrder s) : ReadableWritten s.emptyBuffer := by
  have hzero : s.emptyBuffer.readable = 0 := cursorDist_self (Nat.mul_pos Nat.two_pos h.cap_pos)
  intro j hj
  omega

/-- Only MEM and the true cursors say which bytes are readable and written. -/
theorem ReadableWritten.of_eq {s t : State} (h : ReadableWritten s) (hcap : t.cap = s.cap) (hmem : t.mem = s.mem)
    (hw : t.wptr = s.wptr) (hr : t.rptr = s.rptr) : ReadableWritten t := by
  unfold ReadableWritten State.readable
  rw [hcap, hmem, hw, hr]
  exact h

/-- Cursors in order over written readable bytes, as one predicate of the ring buffer. -/
def OrderedWritten (s : State) : Prop := CursorsInOrder s ∧ ReadableWritten s

theorem orderedWritten_ring (s : State) : OrderedWritten s.ring ↔ OrderedWritten s :=
  and_congr (cursorsInOrder_ring s) Iff.rfl

theorem RingOp.orderedWritten {c : Choice} {s t : State} (hop : RingOp s c t) (h : OrderedWritten s) :
    OrderedWritten t := by
  obtain ⟨hc, hr⟩ := h
  refine ⟨hop.cursorsInOrder hc, ?_⟩
  cases hop with
  | keep => exact hr
  | empty => exact readableWritten_emptyBuffer hc
  | write beats k hw => exact hr.writeFrames hc hw
  | advance k hk4 hk => exact hr.publishR hc hk
  | seeW | seeR => exact hr
  | syncW | syncR => exact hr.of_eq (by simp) (by simp) (by simp) (by simp)

/-- Settles O58: a producer step writes every byte it publishes, and every other step leaves the readable bytes or
shrinks them. -/
theorem stepKeepsReadableWritten : Obligations.StepKeepsReadableWritten := fun _ _ hc hr h =>
  (step_keeps_ring orderedWritten_ring (fun _ _ _ _ hop => hop.orderedWritten) ⟨hc, hr⟩ h).2

/-! ## The unread region under a producer step -/

/-- No byte within the free bytes after the write cursor is an unread one. -/
theorem unread_ne_free {s : State} (h : CursorsInOrder s) {i j : Nat} (hi : i < s.readable) (hj : j < s.freeP) :
    (s.rptr + i) % s.cap ≠ (s.wptr + j) % s.cap := by
  intro heq
  have hle := h.readable_le
  have hfree : s.freeP ≤ s.cap - s.readable := h.freeP_le
  have hw : (s.wptr + j) % s.cap = (s.rptr + (s.readable + j)) % s.cap := by
    rw [rptr_add_mod_of_le h (Nat.le_add_right ..), Nat.add_sub_cancel_left]
  have hmod : i ≡ s.readable + j [MOD s.cap] := Nat.ModEq.add_left_cancel' s.rptr (heq.trans hw)
  have := Nat.ModEq.eq_of_lt_of_lt hmod (by omega) (by omega)
  omega

/-- What the producer must leave as it was in `s`: the unread bytes, where they stand and that they stay unread. -/
structure KeepsUnread (s t : State) : Prop where
  order : CursorsInOrder t
  cap : t.cap = s.cap
  rptr : t.rptr = s.rptr
  readable : s.readable ≤ t.readable
  byte : ∀ j < s.readable, memByte t ((s.rptr + j) % s.cap) = memByte s ((s.rptr + j) % s.cap)

theorem keepsUnread_ring (s t : State) : KeepsUnread s t.ring ↔ KeepsUnread s t :=
  ⟨fun h => ⟨(cursorsInOrder_ring t).mp h.order, h.cap, h.rptr, h.readable, h.byte⟩,
   fun h => ⟨(cursorsInOrder_ring t).mpr h.order, h.cap, h.rptr, h.readable, h.byte⟩⟩

theorem RingOp.keepsUnread {s u v : State} (hop : RingOp u .agentP v) (h : KeepsUnread s u) : KeepsUnread s v := by
  have horder := hop.cursorsInOrder h.order
  cases hop with
  | keep => exact h
  | empty _ hc => simp at hc
  | seeR => exact ⟨horder, h.cap, h.rptr, h.readable, h.byte⟩
  | write beats k hw =>
    refine ⟨horder, h.cap, h.rptr, ?_, fun j hj => ?_⟩
    · rw [readable_writeFrames h.order hw]
      exact h.readable.trans (Nat.le_add_right ..)
    · rw [← h.byte j hj, ← h.cap, ← h.rptr]
      have hother : memLookup (u.writeFrames beats k).mem ((u.rptr + j) % u.cap)
          = memLookup u.mem ((u.rptr + j) % u.cap) := by
        refine memLookup_memWriteBeats_other _ _ _ _ (fun i hi => ?_)
        rw [Nat.mod_add_mod]
        exact unread_ne_free h.order (hj.trans_le h.readable) (by have := hw.whole; have := hw.room; omega)
      unfold memByte
      rw [hother]
      rfl

/-- Settles O40: a producer step writes only bytes after the write cursor that are free in its view, and a lagging view
takes bytes from the free ones, never from the unread. -/
theorem producerNeverOverwritesUnread : Obligations.ProducerNeverOverwritesUnread := by
  intro s t rest hs hsched h
  have hkeep : KeepsUnread s t := by
    refine step_keeps_ring (keepsUnread_ring s) ?_ ⟨hs, rfl, rfl, Nat.le_refl _, fun _ _ => rfl⟩ h
    intro c hc u v hop
    cases (congrArg List.head? hsched).symm.trans hc
    exact hop.keepsUnread
  exact hkeep.byte

end Sys2Proof.Machine
end

section
/-! SUPPORT. STATUS and the sequencers: the word H.READ_REG reads (O34), the sticky error bits (O38), the sequencers that
every step keeps consistent (O57), and the invariant of the reset state (O53). -/

namespace Sys2Proof.Machine

/-! ## The STATUS word -/

/-- Every bit of STATUS (10_state.md R28). -/
theorem State.statusWord_getLsbD (s : State) (j : Nat) :
    s.statusWord.getLsbD j =
      if j < 3 then (lstateBits s.status.lstate).getLsbD j
      else if j = 3 then s.status.started
      else if j = 4 then s.status.overrun
      else if j = 5 then s.pBusy
      else if j = 6 then s.cBusy
      else if j = 8 then s.status.eIllegal
      else if j = 9 then s.status.eState
      else if j = 10 then s.status.eFrame
      else if j = 11 then s.status.eRange
      else if j = 12 then s.status.eRate
      else false := by
  change BitVec.getLsbD (w := 19 + (1 + (1 + (1 + (1 + (1 + (1 + (1 + (1 + (1 + (1 + 3)))))))))))
    (0#19 ++ (_ ++ (_ ++ (_ ++ (_ ++ (_ ++ (_ ++ (_ ++ (_ ++ (_ ++ (_ ++ _))))))))))) j = _
  simp only [BitVec.getLsbD_append, BitVec.getLsbD_ofBool, BitVec.getLsbD_zero]
  rcases Nat.lt_or_ge j 13 with hlow | hreserved
  · interval_cases j <;> simp
  · repeat rw [if_neg (by omega)]

/-- The low field of STATUS is LSTATE (10_state.md R29). -/
theorem State.statusWord_lstate (s : State) : s.statusWord.extractLsb' 0 3 = lstateBits s.status.lstate := by
  ext i hi
  rw [BitVec.getElem_extractLsb', s.statusWord_getLsbD, if_pos (by omega), Nat.zero_add, BitVec.getLsbD_eq_getElem]

/-- Settles O34: the word is its fields side by side, so each bit is found in the field it falls into. -/
theorem statusWordLayout : Obligations.StatusWordLayout := by
  intro s
  refine ⟨s.statusWord_lstate.trans (by cases s.status.lstate <;> rfl), ?_⟩
  simp only [s.statusWord_getLsbD]
  refine ⟨rfl, rfl, rfl, rfl, rfl, rfl, rfl, rfl, rfl, rfl, fun j hj => ?_⟩
  repeat rw [if_neg (by omega)]

/-! ## The error bits -/

/-- The STATUS bit of an error class (10_state.md R28, 60_exceptions.md R190). -/
def errorBit (st : Status) (e : ErrClass) : Bool :=
  match e with
  | .illegal => st.eIllegal
  | .state => st.eState
  | .frame => st.eFrame
  | .range => st.eRange
  | .rate => st.eRate

theorem errorBit_statusWithError (st : Status) (e e' : ErrClass) :
    errorBit (statusWithError e st) e' = (e == e' || errorBit st e') := by
  cases e <;> cases e' <;> rfl

/-- Every error bit set in one STATUS is set in the other. -/
def KeepsErrors (a b : Status) : Prop := ∀ e, errorBit a e = true → errorBit b e = true

theorem keepsErrors_statusWithError (e : ErrClass) (st : Status) : KeepsErrors st (statusWithError e st) := by
  intro e' h
  rw [errorBit_statusWithError, h, Bool.or_true]

theorem Issue.status {c : Choice} {s u : State} (h : Issue s c u) : u.status = s.status := by
  cases h with
  | none => rfl
  | accept => simp [State.accept]

/-- No move but reset clears an error bit. -/
theorem Move.keepsErrors {c : Choice} {s t : State} (h : Move s c t) (hc : c ≠ .reset) :
    KeepsErrors s.status t.status := by
  cases h with
  | raise _ port hp e =>
    rw [State.raiseError_status]
    exact keepsErrors_statusWithError e _
  | answer | syncW | syncR => simp [KeepsErrors]
  | fatal => exact fun e he => keepsErrors_statusWithError .rate s.fatal.status e he
  | reset => exact absurd rfl hc
  | _ => exact fun _ he => he

/-- Settles O38: a command sets error bits only by the error procedure, and only reset writes them otherwise. -/
theorem errorBitsSticky : Obligations.ErrorBitsSticky := by
  intro s t c rest hsched hc h
  obtain ⟨u, hissue, hmove⟩ := step_moves_of_sched hsched h
  have hkeep := hmove.keepsErrors hc
  rw [hissue.status] at hkeep
  exact ⟨hkeep .illegal, hkeep .state, hkeep .frame, hkeep .range, hkeep .rate⟩

/-! ## The sequencers -/

/-- The sequencers' part of the invariant reads the sequencers, LSTATE and E_RATE only. -/
theorem SequencersFormed.of_eq {s t : State} (h : SequencersFormed s) (hp : t.pSeq = s.pSeq) (hc : t.cSeq = s.cSeq)
    (hl : t.status.lstate = s.status.lstate) (he : KeepsErrors s.status t.status) : SequencersFormed t where
  play q hq := by
    obtain ⟨howes, hbeats, hbound, hop, hbuf⟩ := h.play q (hp ▸ hq)
    exact ⟨howes, hbeats, hbound, hop, hl ▸ hbuf⟩
  render q hq := by
    obtain ⟨hframes, htaken, hop, hbuf⟩ := h.render q (hc ▸ hq)
    exact ⟨hframes, htaken, hop, hl ▸ hbuf⟩
  fatalRate hf := he .rate (h.fatalRate (hl ▸ hf))

/-- Idle sequencers are consistent. -/
theorem sequencersFormed_of_idle {t : State} (hp : t.pSeq = none) (hc : t.cSeq = none)
    (hf : t.status.lstate = .fatal → t.status.eRate = true) : SequencersFormed t where
  play q hq := by rw [hp] at hq; cases hq
  render q hq := by rw [hc] at hq; cases hq
  fatalRate := hf

/-- Where there is a buffer, consistency of the two sequencers is all. -/
theorem sequencersFormed_of_hasBuffer {t : State} (hb : HasBuffer t) (hp : ∀ q, t.pSeq = some q → PlayFormed t q)
    (hc : ∀ q, t.cSeq = some q → RenderFormed t q) : SequencersFormed t where
  play := hp
  render := hc
  fatalRate hf := by rcases hb with hb | hb <;> rw [hb] at hf <;> cases hf

/-- Without a buffer both sequencers are idle. -/
theorem SequencersFormed.idle {s : State} (h : SequencersFormed s) (hb : ¬ HasBuffer s) :
    s.pSeq = none ∧ s.cSeq = none :=
  ⟨Option.eq_none_iff_forall_ne_some.mpr fun q hq => hb (h.play q hq).buffer,
   Option.eq_none_iff_forall_ne_some.mpr fun q hq => hb (h.render q hq).buffer⟩

theorem PlayFormed.of_hasBuffer {s t : State} {q : PlaySeq} (h : PlayFormed s q) (hb : HasBuffer t) : PlayFormed t q :=
  ⟨h.owes, h.beats, h.bound, h.operand, hb⟩

theorem RenderFormed.of_hasBuffer {s t : State} {q : RenderSeq} (h : RenderFormed s q) (hb : HasBuffer t) :
    RenderFormed t q :=
  ⟨h.frames, h.taken, h.operand, hb⟩

/-- Setting the P sequencer keeps the rest of the invariant. -/
theorem SequencersFormed.setPlay {s : State} (h : SequencersFormed s) (o : Option PlaySeq)
    (ho : ∀ q, o = some q → PlayFormed s q) : SequencersFormed (s.setPlay o) where
  play q hq := (ho q hq).of_hasBuffer (ho q hq).buffer
  render q hq := (h.render q hq).of_hasBuffer (h.render q hq).buffer
  fatalRate := h.fatalRate

/-- Setting the C sequencer keeps the rest of the invariant. -/
theorem SequencersFormed.setRender {s : State} (h : SequencersFormed s) (o : Option RenderSeq)
    (ho : ∀ q, o = some q → RenderFormed s q) : SequencersFormed (s.setRender o) where
  play q hq := (h.play q hq).of_hasBuffer (h.play q hq).buffer
  render q hq := (ho q hq).of_hasBuffer (ho q hq).buffer
  fatalRate := h.fatalRate

/-- A write step takes the beats of the bytes it writes. -/
theorem PlayFormed.afterWrite {s : State} {q : PlaySeq} {k : Nat} (h : PlayFormed s q) (hk : k < q.rem) (hk4 : k % 4 = 0) :
    PlayFormed s { q with rem := q.rem - k, pay := q.pay.drop (k / 4) } where
  owes := Nat.sub_pos_of_lt hk
  beats := by
    have := h.beats
    show q.rem - k = 4 * (q.pay.drop (k / 4)).length
    rw [List.length_drop]
    omega
  bound := (Nat.sub_le ..).trans h.bound
  operand := h.operand
  buffer := h.buffer

/-- A chunk step moves frames from those needed to those emitted. -/
theorem RenderFormed.afterChunk {s : State} {q : RenderSeq} {f : Nat} (h : RenderFormed s q) (hf : f ≤ q.left) :
    RenderFormed s { q with left := q.left - f, o := q.o + f, k := q.k + f } where
  frames := by
    have := h.frames
    show q.o + f + (q.left - f) = q.n
    omega
  taken := congrArg (· + f) h.taken
  operand := h.operand
  buffer := h.buffer

theorem Issue.sequencersFormed {c : Choice} {s u : State} (h : Issue s c u) (hs : SequencersFormed s) :
    SequencersFormed u := by
  have hstatus := h.status
  refine hs.of_eq ?_ ?_ (congrArg Status.lstate hstatus) (hstatus ▸ fun _ he => he)
  all_goals cases h <;> simp [State.accept]

/-- Every move keeps the sequencers consistent. -/
theorem Move.sequencersFormed {c : Choice} {s t : State} (h : Move s c t) (hs : SequencersFormed s) :
    SequencersFormed t := by
  have herr (hc : c ≠ .reset) := h.keepsErrors hc
  cases h with
  | raise _ port hc e =>
    refine hs.of_eq (by simp) (by simp) ?_ (herr (by simp [hc]))
    cases e <;> simp [statusWithError]
  | answer | syncW | syncR => exact hs.of_eq (by simp) (by simp) (by simp) (fun _ he => by simpa using he)
  | init hl =>
    obtain ⟨hp, hc⟩ := hs.idle (by simp [HasBuffer, hl])
    exact sequencersFormed_of_idle hp hc nofun
  | deinit hl hp hc => exact sequencersFormed_of_idle hp hc nofun
  | switch l hb hl =>
    exact sequencersFormed_of_hasBuffer hl (fun q hq => (hs.play q hq).of_hasBuffer hl)
      (fun q hq => (hs.render q hq).of_hasBuffer hl)
  | fatal => exact sequencersFormed_of_idle rfl rfl fun _ => rfl
  | reset => exact sequencersFormed_of_idle rfl rfl nofun
  | startPlay count hpos hop hpay hb =>
    refine (hs.setPlay (some _) ?_).of_eq rfl rfl rfl fun _ he => he
    rintro _ ⟨⟩
    exact ⟨by show 0 < 4 * count; omega, by rw [hpay], Nat.le_refl _, hop, hb⟩
  | playMore q k hq hw hk =>
    refine (hs.setPlay (some _) ?_).of_eq rfl rfl rfl fun _ he => he
    rintro _ ⟨⟩
    exact (hs.play q hq).afterWrite hk (by have := hw.whole; omega)
  | playEnd beats k vs hw =>
    exact (hs.setPlay none nofun).of_eq rfl rfl rfl fun _ he => he
  | startRender n hop hb =>
    refine (hs.setRender (some _) ?_).of_eq rfl rfl rfl fun _ he => he
    rintro _ ⟨⟩
    exact ⟨Nat.zero_add n, rfl, hop, hb⟩
  | chunk q f m beats hq hf hk =>
    refine (hs.setRender (some _) ?_).of_eq rfl rfl rfl fun _ he => he
    rintro _ ⟨⟩
    exact (hs.render q hq).afterChunk hf
  | toFill q hq =>
    refine hs.setRender _ ?_
    rintro _ ⟨⟩
    obtain ⟨hframes, htaken, hop, hb⟩ := hs.render q hq
    exact ⟨hframes, htaken, hop, hb⟩
  | fill beats vs =>
    exact (hs.setRender none nofun).of_eq rfl rfl rfl fun _ he => he
  | _ => exact hs.of_eq rfl rfl rfl fun _ he => he

/-! ## No step stops -/

theorem exec_answers (i : Instr) (s : State) : ∃ t, exec i s = .next t := by
  rcases exec_cases (i := i) (s := s) rfl with ⟨-, h⟩ | ⟨-, -, h⟩ | ⟨-, -, h⟩ <;> exact ⟨_, h⟩

theorem issueStep_answers (port : Port) (s : State) : ∃ t, issueStep port s = .next t := by
  rcases issueStep_cases (port := port) (s := s) rfl with ⟨-, h⟩ | ⟨cmd, q, u, -, -, ⟨e, -, h⟩ | ⟨i, -, h⟩⟩
  · exact ⟨_, h⟩
  · exact ⟨_, h⟩
  · rw [h]
    exact exec_answers i u

/-- A P.PLAY that owes exactly its remaining beats has one for every frame it writes. -/
theorem playStep_answers {q : PlaySeq} {s : State} (hq : PlayFormed s q) : ∃ t, playStep q s = .next t := by
  rcases playStep_cases q s with ⟨-, h⟩ | ⟨hshort, -⟩ | ⟨-, -, -, h⟩ | ⟨-, -, -, h⟩
  · exact ⟨_, h⟩
  · have := (acceptedBytes_spec s q.rem).2.1
    have := hq.beats
    omega
  · exact ⟨_, h⟩
  · exact ⟨_, h⟩

theorem agentStep_answers (c : Choice) {s : State} (hs : SequencersFormed s) : ∃ t, agentStep c s = .next t := by
  cases c with
  | agentH => exact issueStep_answers .host s
  | agentP =>
    cases hq : s.pSeq with
    | none => rw [agentStep_producer_idle hq]; exact issueStep_answers .producer s
    | some q => rw [agentStep_producer_busy hq]; exact playStep_answers (hs.play q hq)
  | agentC =>
    cases hq : s.cSeq with
    | none => rw [agentStep_consumer_idle hq]; exact issueStep_answers .consumer s
    | some q => rw [agentStep_consumer_busy hq]; exact ⟨_, rfl⟩
  | syncW | syncR | reset => exact ⟨_, rfl⟩

theorem SequencersFormed.setSched {s : State} (h : SequencersFormed s) (rest : List Choice) :
    SequencersFormed (s.setSched rest) :=
  h.of_eq rfl rfl rfl fun _ he => he

theorem step_answers {s : State} (hs : SequencersFormed s) : ∃ t, step s = .next t := by
  cases hsched : s.sched with
  | nil => exact ⟨s, by simp [step, hsched]⟩
  | cons c rest =>
    rw [step_of_sched_cons hsched]
    exact agentStep_answers c (hs.setSched rest)

/-- Settles O57: with consistent sequencers no write step runs out of beats, the one way to stop, and every move keeps
them consistent. -/
theorem stepKeepsSequencers : Obligations.StepKeepsSequencers := by
  intro s hs
  obtain ⟨t, ht⟩ := step_answers hs
  refine ⟨t, ht, ?_⟩
  rcases step_moves ht with ⟨-, rfl⟩ | ⟨c, rest, u, -, hissue, hmove⟩
  · exact hs
  · exact hmove.sequencersFormed (hissue.sequencersFormed (hs.setSched rest))

/-! ## The reset state -/

theorem paramsLegal_reset : ParamsLegal State.reset := ⟨by decide, by decide⟩

/-- Settles O53: the reset state is an empty, idle one. -/
theorem resetMeetsInvariant : Obligations.ResetMeetsInvariant where
  cursors := cursorsInOrder_of_zero paramsLegal_reset rfl rfl rfl rfl
  mem := ⟨memWf_nil, nofun⟩
  written := nofun
  sequencers := sequencersFormed_of_idle rfl rfl nofun

end Sys2Proof.Machine
end

section
/-! SUPPORT. Each agent changes only what is its own (O39): the pieces no step of an agent may touch are the state with the
agent's own pieces blanked, and every move of the agent leaves that blanked state as it was. -/

namespace Sys2Proof.Machine

/-! ## What is not an agent's own -/

/-- STATUS without what a producer or consumer step may set: OVERRUN and the error bits. -/
def Status.lifecycle (st : Status) : Status := { Status.reset with lstate := st.lstate, started := st.started }

/-- The state without the pieces of port P. -/
def State.outsideP (s : State) : State :=
  { s with
    mem := [], wptr := 0, rview := 0, dropped := 0#32, status := s.status.lifecycle, pSeq := none
    pIn := [], pCmds := [], pIssued := 0, pResp := [], sched := [] }

/-- The state without the pieces of port C. -/
def State.outsideC (s : State) : State :=
  { s with
    rptr := 0, wview := 0, status := { s.status.lifecycle with overrun := s.status.overrun }, cSeq := none
    nanDraws := 0, out := [], cIn := [], cCmds := [], cIssued := 0, cResp := [], sched := [] }

/-- The pieces of ports P and C beside the buffer, and the output. -/
def State.outsideH (s : State) : State :=
  { State.reset with
    pIn := s.pIn, cIn := s.cIn, pCmds := s.pCmds, cCmds := s.cCmds, pResp := s.pResp, cResp := s.cResp, out := s.out }

/-- The ring buffer and DROPPED. -/
def State.buffer (s : State) : State := { s.ring with dropped := s.dropped }

theorem Status.lifecycle_statusWithError (e : ErrClass) (st : Status) :
    (statusWithError e st).lifecycle = st.lifecycle ∧ (statusWithError e st).overrun = st.overrun := by
  cases e <;> exact ⟨rfl, rfl⟩

theorem State.outsideP_raiseError (s : State) (e : ErrClass) : (s.raiseError e .producer).outsideP = s.outsideP := by
  simp only [State.outsideP, State.raiseError_status, Status.lifecycle_statusWithError]
  rfl

theorem State.outsideC_raiseError (s : State) (e : ErrClass) : (s.raiseError e .consumer).outsideC = s.outsideC := by
  simp only [State.outsideC, State.raiseError_status, Status.lifecycle_statusWithError]
  rfl

/-! ## Port P -/

theorem Issue.outsideP {s u : State} (h : Issue s .agentP u) : u.outsideP = s.outsideP := by
  cases h with
  | none => rfl
  | accept port cmd q hc =>
    obtain rfl := agentOf_eq_agentP.mp hc.symm
    simp only [State.accept, State.issueView]
    split <;> rfl

theorem Move.outsideP {s t : State} (h : Move s .agentP t) : t.outsideP = s.outsideP := by
  cases h with
  | raise _ port hc e =>
    obtain rfl := agentOf_eq_agentP.mp hc.symm
    exact s.outsideP_raiseError e
  | answer _ port hc =>
    obtain rfl := agentOf_eq_agentP.mp hc.symm
    rfl
  | _ => rfl

/-- The saturating sum is no less than DROPPED was (10_state.md R27). -/
theorem toNat_le_droppedAdd (v : Word) (d : Nat) : v.toNat ≤ (droppedAdd v d).toNat := by
  have hv := v.isLt
  unfold droppedAdd
  rw [BitVec.toNat_ofNat, Nat.mod_eq_of_lt (by omega)]
  omega

theorem Issue.dropped {c : Choice} {s u : State} (h : Issue s c u) : u.dropped = s.dropped := by
  cases h with
  | none => rfl
  | accept => simp [State.accept]

theorem Move.dropped_le {s t : State} (h : Move s .agentP t) : s.dropped.toNat ≤ t.dropped.toNat := by
  cases h with
  | writeShort beats k d vs hw => exact toNat_le_droppedAdd s.dropped d
  | raise | answer => simp
  | _ => exact Nat.le_refl _

/-! ## Port C -/

theorem Issue.outsideC {s u : State} (h : Issue s .agentC u) : u.outsideC = s.outsideC := by
  cases h with
  | none => rfl
  | accept port cmd q hc =>
    obtain rfl := agentOf_eq_agentC.mp hc.symm
    simp only [State.accept, State.issueView]
    split <;> rfl

theorem Move.outsideC {s t : State} (h : Move s .agentC t) : t.outsideC = s.outsideC := by
  cases h with
  | raise _ port hc e =>
    obtain rfl := agentOf_eq_agentC.mp hc.symm
    exact s.outsideC_raiseError e
  | answer _ port hc =>
    obtain rfl := agentOf_eq_agentC.mp hc.symm
    rfl
  | _ => rfl

/-! ## Port H -/

theorem Issue.outsideH {s u : State} (h : Issue s .agentH u) : u.outsideH = s.outsideH ∧ u.buffer = s.buffer := by
  cases h with
  | none => exact ⟨rfl, rfl⟩
  | accept port cmd q hc =>
    obtain rfl := agentOf_eq_agentH.mp hc.symm
    exact ⟨rfl, rfl⟩

theorem Move.outsideH {s t : State} (h : Move s .agentH t) : t.outsideH = s.outsideH := by
  cases h with
  | raise _ port hc | answer _ port hc =>
    obtain rfl := agentOf_eq_agentH.mp hc.symm
    rfl
  | _ => rfl

/-- The host leaves the buffer alone but for H.INIT and H.DEINIT (43_lifecycle.md R161, R166). -/
theorem Move.buffer_cases {s t : State} (h : Move s .agentH t) :
    t.buffer = s.buffer ∨ (s.status.lstate = .uninit ∧ t.status.lstate = .ready) ∨
      (s.status.lstate = .ready ∧ t.status.lstate = .closed) := by
  cases h with
  | raise _ port hc | answer _ port hc =>
    obtain rfl := agentOf_eq_agentH.mp hc.symm
    exact .inl rfl
  | init hl => exact .inr (.inl ⟨hl, rfl⟩)
  | deinit hl => exact .inr (.inr ⟨hl, rfl⟩)
  | _ => exact .inl rfl

/-! ## Every agent -/

theorem RingOp.params_eq {c : Choice} {s t : State} (h : RingOp s c t) : t.cap = s.cap ∧ t.rate = s.rate := by
  cases h with
  | syncW | syncR => simp
  | _ => exact ⟨rfl, rfl⟩

/-- No step changes a parameter. -/
theorem step_params_eq {s t : State} (h : step s = .next t) : t.cap = s.cap ∧ t.rate = s.rate :=
  step_keeps_ring (P := fun u => u.cap = s.cap ∧ u.rate = s.rate) (fun _ => Iff.rfl)
    (fun _ _ _ _ hop hu => ⟨hop.params_eq.1.trans hu.1, hop.params_eq.2.trans hu.2⟩) ⟨rfl, rfl⟩ h

theorem State.syncW_eq (s : State) (d : Nat) : s.syncW d = { s with wview := (s.syncW d).wview } := by
  unfold State.syncW
  split <;> rfl

theorem State.syncR_eq (s : State) (d : Nat) : s.syncR d = { s with rview := (s.syncR d).rview } := by
  unfold State.syncR
  split <;> rfl

/-- Settles O39: every piece the statement names stands in the blanked state that the agent's issue and move leave as it
was. -/
theorem agentsChangeOnlyTheirOwn : Obligations.AgentsChangeOnlyTheirOwn := by
  intro s t c rest hsched h
  obtain ⟨hcap, hrate⟩ := step_params_eq h
  obtain ⟨u, hissue, hmove⟩ := step_moves_of_sched hsched h
  refine ⟨hcap, hrate, ?_, ?_, ?_, ?_, ?_⟩
  · rintro rfl
    have hsame : t.outsideP = s.outsideP := hmove.outsideP.trans hissue.outsideP
    have hdropped : s.dropped.toNat ≤ t.dropped.toNat := by
      have hle := hmove.dropped_le
      rwa [hissue.dropped] at hle
    simp only [State.outsideP, Status.lifecycle, State.mk.injEq, Status.mk.injEq] at hsame
    simp only [hsame, hdropped, and_self]
  · rintro rfl
    have hsame : t.outsideC = s.outsideC := hmove.outsideC.trans hissue.outsideC
    simp only [State.outsideC, Status.lifecycle, State.mk.injEq, Status.mk.injEq] at hsame
    simp only [hsame, and_self]
  · rintro rfl
    have hsame : t.outsideH = s.outsideH := hmove.outsideH.trans hissue.outsideH.1
    have hbuffer : t.buffer = s.buffer ∨ (s.status.lstate = .uninit ∧ t.status.lstate = .ready) ∨
        (s.status.lstate = .ready ∧ t.status.lstate = .closed) := by
      have hcases := hmove.buffer_cases
      rwa [hissue.status, hissue.outsideH.2] at hcases
    simp only [State.outsideH, State.buffer, State.ring, State.mk.injEq] at hsame hbuffer
    exact ⟨by simp only [hsame, and_self], hbuffer.imp_left fun hb => by simp only [hb, and_self]⟩
  · rintro d rfl
    cases (step_of_sched_cons hsched).symm.trans h
    exact State.syncW_eq _ d
  · rintro d rfl
    cases (step_of_sched_cons hsched).symm.trans h
    exact State.syncR_eq _ d

end Sys2Proof.Machine
end

section
/-! SUPPORT. The consumer reads written bytes only (O41): the bytes in its view are readable, the readable ones are written,
and a written byte does not depend on the draws of the unwritten ones. -/

namespace Sys2Proof.Machine

/-! ## Other draws for the unwritten bytes -/

/-- The state with the draws of the `g`-th generation for its unwritten bytes (log 8). -/
def State.withGen (s : State) (g : Nat) : State := { s with memGen := g }

theorem State.withGen_ite (c : Prop) [Decidable c] (s t : State) (g : Nat) :
    (if c then s else t).withGen g = if c then s.withGen g else t.withGen g :=
  apply_ite (State.withGen · g) c s t

@[simp] theorem State.withGen_readableSpans (s : State) (g : Nat) :
    (s.withGen g).readableSpans = s.readableSpans := rfl
@[simp] theorem chunkFrames_withGen (s : State) (g : Nat) (q : RenderSeq) :
    chunkFrames (s.withGen g) q = chunkFrames s q := rfl

theorem memByte_withGen {s : State} {a : Nat} (g : Nat) (h : (memLookup s.mem a).isSome = true) :
    memByte (s.withGen g) a = memByte s a := by
  obtain ⟨v, hv⟩ := Option.isSome_iff_exists.mp h
  have hv' : memLookup (s.withGen g).mem a = some v := hv
  simp only [memByte, hv, hv']

/-- A read of written bytes is the same. -/
theorem memRead_withGen {s : State} {off n : Nat} (g : Nat)
    (h : ∀ i < n, (memLookup s.mem ((off + i) % s.cap)).isSome = true) :
    memRead (s.withGen g) off n = memRead s off n := by
  induction n with
  | zero => rfl
  | succ k ih =>
    have hbyte := memByte_withGen g (h k (Nat.lt_succ_self k))
    rw [memRead, memRead, ih fun i hi => h i (Nat.lt_succ_of_lt hi)]
    exact congrArg (fun b : Byte => memRead s off k + b.toNat * 2 ^ (8 * k)) hbyte

/-- A read inside the consumer's view, `j` bytes after the read cursor. -/
theorem memRead_withGen_of_availC {s : State} {off n j : Nat} (g : Nat) (h : OrderedWritten s)
    (hoff : off % s.cap = (s.rptr + j) % s.cap) (hj : j + n ≤ s.availC) :
    memRead (s.withGen g) off n = memRead s off n := by
  refine memRead_withGen g fun i hi => ?_
  rw [Nat.add_mod, hoff, ← Nat.add_mod, Nat.add_assoc]
  exact h.2 (j + i) ((by omega : j + i < s.availC).trans_le h.1.availC_le)

theorem State.withGen_respond (s : State) (g : Nat) (port : Port) (code : Code) (vs : List Word) :
    (s.withGen g).respond port code vs = (s.respond port code vs).withGen g := by
  cases port <;> rfl

theorem State.withGen_raiseError (s : State) (g : Nat) (e : ErrClass) (port : Port) :
    (s.withGen g).raiseError e port = (s.raiseError e port).withGen g := by
  cases port <;> rfl

theorem State.withGen_dataIn (s : State) (g : Nat) (port : Port) : (s.withGen g).dataIn port = s.dataIn port := by
  cases port <;> rfl

theorem legal_withGen (i : Instr) (s : State) (g : Nat) : legal i (s.withGen g) = legal i s := by
  cases i <;> rfl

theorem State.withGen_accept_consumer (s : State) (g : Nat) (cmd : Command) (q : List Command) :
    (s.withGen g).accept .consumer cmd q = (s.accept .consumer cmd q).withGen g := by
  have hview (t : State) : (t.withGen g).issueView .consumer cmd.seen = (t.issueView .consumer cmd.seen).withGen g := by
    simp only [State.issueView, State.withGen_ite]
    rfl
  exact congrArg (State.deliver · .consumer cmd.payload) (hview ((s.setCmds .consumer q).countIssued .consumer))

/-! ## The consumer's commands -/

/-- The offset of the relative position that C.LOADF computes (40_ring_buffer.md R107). -/
theorem add_rel_mod {cap r o : Nat} (hcap : 0 < cap) : (r + (o + (cap - r % cap)) % cap) % cap = o % cap := by
  have hlt := Nat.mod_lt r hcap
  have hdiv := Nat.div_add_mod r cap
  rw [Nat.add_mod_mod, show r + (o + (cap - r % cap)) = o + cap * (r / cap + 1) by rw [Nat.mul_add]; omega,
    Nat.add_mul_mod_self_left]

/-- C.LOADF reads only once it has checked that its frame is in view. -/
theorem effectCLoadf_withGen {s : State} (off : BitVec 26) (g : Nat) (h : OrderedWritten s) :
    effectCLoadf off (s.withGen g) = (effectCLoadf off s).withGen g := by
  simp only [effectCLoadf, State.withGen_ite]
  refine if_ctx_congr Iff.rfl (fun _ => rfl) fun _ => if_ctx_congr Iff.rfl (fun _ => rfl) fun _ =>
    if_ctx_congr Iff.rfl (fun _ => rfl) fun hin => ?_
  rw [memRead_withGen_of_availC g h (add_rel_mod h.1.cap_pos).symm (Nat.le_of_not_lt hin)]
  rfl

theorem effectCAdvance_withGen (s : State) (n : BitVec 26) (g : Nat) :
    effectCAdvance n (s.withGen g) = (effectCAdvance n s).withGen g := by
  simp only [effectCAdvance, State.withGen_ite]
  rfl

theorem effectCRender_withGen (s : State) (n : BitVec 26) (g : Nat) :
    effectCRender n (s.withGen g) = (effectCRender n s).withGen g := by
  simp only [effectCRender, State.withGen_ite]
  rfl

theorem effectOf_withGen {i : Instr} {s : State} (hi : i.port = .consumer) (g : Nat) (h : OrderedWritten s) :
    effectOf i (s.withGen g) = (effectOf i s).withGen g := by
  cases i with
  | cReadAvailable | cPeek => rfl
  | cAdvance n => exact effectCAdvance_withGen s n g
  | cLoadf off => exact effectCLoadf_withGen off g h
  | cRender n => exact effectCRender_withGen s n g
  | _ => cases hi

theorem exec_withGen {i : Instr} {s t : State} (hi : i.port = .consumer) (g : Nat) (h : OrderedWritten s)
    (ht : exec i s = .next t) : exec i (s.withGen g) = .next (t.withGen g) := by
  have hdata := s.withGen_dataIn g i.port
  have hlegal := legal_withGen i s g
  rw [exec_eq_checked]
  rcases exec_cases ht with ⟨hp, hs⟩ | ⟨hp, hl, hs⟩ | ⟨hp, hl, hs⟩ <;> cases hs <;> rw [← hdata] at hp
  · rw [checked_payload _ hp, State.withGen_raiseError]
  · rw [checked_state _ hp (hlegal.trans hl), State.withGen_raiseError]
  · rw [checked_ok _ hp (hlegal.trans hl), effectOf_withGen hi g h]

/-! ## The render -/

/-- The sample at an offset inside the consumer's view. -/
theorem sampleAt_withGen {s : State} {off j : Nat} (g : Nat) (h : OrderedWritten s)
    (hoff : off % s.cap = (s.rptr + j) % s.cap) (hj : j + 2 ≤ s.availC) :
    sampleAt (s.withGen g) off = sampleAt s off := by
  unfold sampleAt
  rw [memRead_withGen_of_availC g h hoff hj]

theorem chunkBeat_withGen {s : State} {q : RenderSeq} {j : Nat} (g : Nat) (h : OrderedWritten s)
    (hj : j < chunkFrames s q) :
    chunkBeat (s.withGen g) q.vol s.readableSpans.off1 j = chunkBeat s q.vol s.readableSpans.off1 j := by
  have hview := (chunkFrames_le s q).2
  have hoff : s.readableSpans.off1 = s.rptr % s.cap := rfl
  have hleft := sampleAt_withGen (off := s.readableSpans.off1 + 4 * j) (j := 4 * j) g h
    (by rw [hoff, Nat.mod_add_mod]) (by omega)
  have hright := sampleAt_withGen (off := s.readableSpans.off1 + 4 * j + 2) (j := 4 * j + 2) g h
    (by rw [hoff, Nat.add_assoc, Nat.mod_add_mod]) (by omega)
  unfold chunkBeat
  rw [hleft, hright]
  rfl

theorem renderChunk_withGen {s : State} (q : RenderSeq) (g : Nat) (h : OrderedWritten s) :
    renderChunk q (s.withGen g) = (renderChunk q s).withGen g := by
  have hbeats : (List.range (chunkFrames s q)).map (chunkBeat (s.withGen g) q.vol s.readableSpans.off1)
      = (List.range (chunkFrames s q)).map (chunkBeat s q.vol s.readableSpans.off1) :=
    List.map_congr_left fun j hj => chunkBeat_withGen g h (List.mem_range.mp hj)
  simp only [renderChunk, State.withGen_readableSpans, chunkFrames_withGen, hbeats]
  split <;> rfl

theorem renderStep_withGen {s : State} (q : RenderSeq) (g : Nat) (h : OrderedWritten s) :
    renderStep q (s.withGen g) = (renderStep q s).withGen g := by
  unfold renderStep
  split
  · exact renderChunk_withGen q g h
  · rfl

/-! ## A step of agent C -/

theorem issueStep_withGen {s t : State} (g : Nat) (h : OrderedWritten s) (ht : issueStep .consumer s = .next t) :
    issueStep .consumer (s.withGen g) = .next (t.withGen g) := by
  rcases issueStep_cases ht with ⟨hnone, hs⟩ | ⟨cmd, q, u, hcmds, hu, hrun⟩
  · cases hs
    have hnone' : (s.withGen g).cmds .consumer = [] := hnone
    simp [issueStep, acceptCommand_nil hnone']
  · obtain rfl : u = s.accept .consumer cmd q := hu
    have hcmds' : (s.withGen g).cmds .consumer = cmd :: q := hcmds
    have haccept : OrderedWritten (s.accept .consumer cmd q) :=
      (Issue.accept .consumer cmd q rfl).ringMove.keeps orderedWritten_ring (fun _ _ hop => hop.orderedWritten) h
    rw [issueStep_cons hcmds']
    change runWord _ _ ((s.withGen g).accept .consumer cmd q) = _
    rw [State.withGen_accept_consumer]
    rcases hrun with ⟨e, hd, hs⟩ | ⟨i, hd, hs⟩
    · cases hs
      simp only [runWord, hd, State.withGen_raiseError]
    · rw [runWord_of_decode_ok hd]
      exact exec_withGen (decode_port hd) g haccept hs.symm

theorem agentStep_consumer_withGen {s t : State} (g : Nat) (h : OrderedWritten s)
    (ht : agentStep .agentC s = .next t) : agentStep .agentC (s.withGen g) = .next (t.withGen g) := by
  cases hq : s.cSeq with
  | none =>
    rw [agentStep_consumer_idle hq] at ht
    rw [agentStep_consumer_idle (s := s.withGen g) hq]
    exact issueStep_withGen g h ht
  | some q =>
    rw [agentStep_consumer_busy hq] at ht
    cases ht
    rw [agentStep_consumer_busy (s := s.withGen g) hq, renderStep_withGen q g h]

/-- Settles O41: C.LOADF and the chunk step read inside the consumer's view, where every byte is written; nothing else of
agent C reads MEM. -/
theorem consumerReadsOnlyWritten : Obligations.ConsumerReadsOnlyWritten := by
  intro s t rest g hc hr hsched ht
  rw [step_of_sched_cons hsched] at ht
  rw [step_of_sched_cons (s := { s with memGen := g }) hsched]
  exact agentStep_consumer_withGen g ((orderedWritten_ring (s.setSched rest)).mp ((orderedWritten_ring s).mpr ⟨hc, hr⟩)) ht

end Sys2Proof.Machine
end

section
/-! SUPPORT. Views and MEM as the ports share them: an issue moves a view only where it is sequential (O8), the link moves a
view by any enabled draw (O33), and a beat that P.WRITE stores is what C.LOADF reads at its offset (O43). -/

namespace Sys2Proof.Machine

/-! ## The moves of the views -/

/-- Settles O8: an accepted command changes nothing but its queue, the count of issues, the port's view at a sequential
issue and the port's data-in channel. -/
theorem issueMovesView : Obligations.IssueMovesView := by
  intro s t port w h
  cases hcmds : s.cmds port with
  | nil => simp [acceptCommand_nil hcmds] at h
  | cons cmd q =>
    rw [acceptCommand_cons hcmds] at h
    cases h
    refine ⟨cmd, q, rfl, rfl, ?data, ?queue, ?wview, ?rview, by simp, by simp, by simp⟩
    case data => cases port <;> rfl
    case queue => cases port <;> simp [State.cmds]
    case wview => simp [State.issueView_wview]
    case rview => simp [State.issueView_rview]

/-- Settles O33: a link step writes its own view, by the guard and the amount that 20_memory.md R55 gives its draw. -/
theorem linkStepsMoveViews : Obligations.LinkStepsMoveViews := by
  intro s rest d
  constructor <;> intro hsched <;> rw [step_of_sched_cons hsched]
  · rw [agentStep, State.syncW_eq, State.syncW_wview]
    simp [State.setSched, cursorAdv]
  · rw [agentStep, State.syncR_eq, State.syncR_rview]
    simp [State.setSched, cursorAdv]

/-! ## Reading back what was written -/

/-- A read of the `n` low bytes of a value gives their little-endian value (00_scope.md R12). -/
theorem memRead_of_bytes {s : State} {off n : Nat} {v : Word}
    (h : ∀ i < n, memByte s ((off + i) % s.cap) = v.extractLsb' (8 * i) 8) : memRead s off n = v.toNat % 2 ^ (8 * n) := by
  induction n with
  | zero => simp [memRead, Nat.mod_one]
  | succ k ih =>
    rw [memRead, ih fun i hi => h i (Nat.lt_succ_of_lt hi), h k (Nat.lt_succ_self k), BitVec.extractLsb'_toNat,
      Nat.shiftRight_eq_div_pow, Nat.mul_succ, Nat.pow_add, Nat.mod_mul, Nat.mul_comm (2 ^ (8 * k))]

/-- A producer step's beats stand at the write cursor, byte j of beat i where 40_ring_buffer.md R101 says. -/
theorem memByte_writeFrames {s : State} {beats : List Word} {k i j : Nat} (hw : Fits s beats k) (hi : i < beats.length)
    (hj : j < 4) :
    memByte (s.writeFrames beats k) ((s.wptr + 4 * i + j) % s.cap) = beats[i].extractLsb' (8 * j) 8 := by
  have hlen : 4 * beats.length ≤ s.cap := hw.whole ▸ hw.room.trans (Nat.sub_le ..)
  have hhit := memLookup_memWriteBeats_hit s.mem (s.wptr % s.cap) beats hlen hi hj
  rw [Nat.add_assoc, Nat.mod_add_mod, ← Nat.add_assoc] at hhit
  simp [memByte, hhit]

/-- P.WRITE of whole frames that fit the producer's view writes all of them (40_ring_buffer.md R101). -/
theorem effectPWrite_of_room {n : BitVec 26} {s : State} (hn : n.toNat % 4 = 0) (hroom : n.toNat ≤ s.freeP) :
    effectPWrite n s
      = (s.writeFrames (s.pIn.take (n.toNat / 4)) n.toNat).respond .producer .ok [valueWord n.toNat] := by
  have hk : s.acceptedBytes n.toNat = n.toNat := by
    unfold State.acceptedBytes
    omega
  simp [effectPWrite, operandN26, hn, hk]

/-- The relative position that C.LOADF computes for the offset `j` bytes after the read cursor (40_ring_buffer.md R107). -/
theorem rel_of_offset {cap r o j : Nat} (hj : j < cap) (ho : o % cap = (r + j) % cap) :
    (o + (cap - r % cap)) % cap = j := by
  have hrel : (r + (o + (cap - r % cap)) % cap) % cap = (r + j) % cap := (add_rel_mod (Nat.zero_lt_of_lt hj)).trans ho
  have hmod : _ % cap = j % cap := Nat.ModEq.add_left_cancel' r hrel
  rwa [Nat.mod_mod, Nat.mod_eq_of_lt hj] at hmod

/-- C.LOADF of a frame inside the consumer's view answers with it (40_ring_buffer.md R107). -/
theorem effectCLoadf_of_inView {off : BitVec 26} {s : State} {j : Nat} (hoff4 : off.toNat % 4 = 0)
    (hoff : off.toNat = (s.rptr + j) % s.cap) (hj : j + 4 ≤ s.availC) (hview : s.availC ≤ s.cap) :
    effectCLoadf off s = s.respond .consumer .ok [valueWord (memRead s off.toNat 4)] := by
  have hlt : off.toNat < s.cap := hoff ▸ Nat.mod_lt _ (by omega)
  have hrel := rel_of_offset (cap := s.cap) (r := s.rptr) (o := off.toNat) (j := j) (by omega)
    (by rw [hoff, Nat.mod_mod])
  simp only [effectCLoadf, operandN26, hrel]
  rw [if_neg (by omega), if_neg (by omega), if_neg (by omega)]

/-- P.WRITE of one beat with room for it (40_ring_buffer.md R101). -/
theorem exec_pWrite_beat {s : State} {beat : Word} (hactive : s.status.lstate = .active) (hpIn : s.pIn = [beat])
    (hroom : 4 ≤ s.freeP) :
    exec (.pWrite 4#26) s = .next ((s.writeFrames [beat] 4).respond .producer .ok [valueWord 4]) := by
  have heffect := effectPWrite_of_room (n := 4#26) (s := s) rfl hroom
  rw [hpIn] at heffect
  rw [exec_eq_checked, checked_ok _ (by simp [Instr.port, State.dataIn, hpIn, payloadBeats, operandN26])
    (by simp [legal, hactive])]
  exact congrArg Host.Outcome.next heffect

/-- C.LOADF in ACTIVE of a frame inside the consumer's view (40_ring_buffer.md R107). -/
theorem exec_cLoadf_of_inView {off : BitVec 26} {s : State} {j : Nat} (hactive : s.status.lstate = .active)
    (hcIn : s.cIn = []) (hoff4 : off.toNat % 4 = 0) (hoff : off.toNat = (s.rptr + j) % s.cap) (hj : j + 4 ≤ s.availC)
    (hview : s.availC ≤ s.cap) :
    exec (.cLoadf off) s = .next (s.respond .consumer .ok [valueWord (memRead s off.toNat 4)]) := by
  rw [exec_eq_checked, checked_ok _ (by simp [Instr.port, State.dataIn, hcIn, payloadBeats]) (by simp [legal, hactive])]
  exact congrArg Host.Outcome.next (effectCLoadf_of_inView hoff4 hoff hj hview)

/-- An offset of MEM is an operand of C.LOADF (00_scope.md R8). -/
theorem toNat_offset {s : State} (h : CursorsInOrder s) (a : Nat) : (BitVec.ofNat 26 (a % s.cap)).toNat = a % s.cap := by
  have hlt := Nat.mod_lt a h.cap_pos
  have hcap := h.params.cap.2.2
  exact (BitVec.toNat_ofNat ..).trans (Nat.mod_eq_of_lt (by omega))

/-- The state after P.WRITE of one beat, once WVIEW is current (20_memory.md R54, R57). -/
def State.afterBeat (s : State) (beat : Word) : State :=
  ((s.writeFrames [beat] 4).respond .producer .ok [valueWord 4]).seeW

theorem fits_beat {s : State} {beat : Word} (hroom : 4 ≤ s.freeP) : Fits s [beat] 4 := ⟨rfl, hroom⟩

theorem State.availC_afterBeat {s : State} {beat : Word} (h : CursorsInOrder s) (hroom : 4 ≤ s.freeP) :
    (s.afterBeat beat).availC = s.readable + 4 :=
  readable_writeFrames h (fits_beat (beat := beat) hroom)

/-- The written frame reads back as its beat (20_memory.md R51). -/
theorem memRead_afterBeat {s : State} {beat : Word} (hroom : 4 ≤ s.freeP) :
    memRead (s.afterBeat beat) (s.wptr % s.cap) 4 = beat.toNat := by
  refine (memRead_of_bytes (v := beat) fun i hi => ?_).trans (Nat.mod_eq_of_lt beat.isLt)
  change memByte (s.writeFrames [beat] 4) ((s.wptr % s.cap + i) % s.cap) = _
  rw [Nat.mod_add_mod]
  exact memByte_writeFrames (i := 0) (fits_beat hroom) Nat.one_pos hi

/-- Settles O43: the beat stands where the readable bytes ended, `readable` bytes after the read cursor, and with a current
view its four bytes are the last ones in view. -/
theorem writeThenLoadReturnsBeat : Obligations.WriteThenLoadReturnsBeat := by
  intro s beat h hactive hpIn hcIn hroom
  have havail : (s.afterBeat beat).availC = s.readable + 4 := State.availC_afterBeat h hroom
  have hview : s.readable + 4 ≤ s.cap := by
    have hfree : 4 ≤ s.cap - s.readable := hroom.trans h.freeP_le
    omega
  have hoff := toNat_offset h s.wptr
  have hoff4 : s.wptr % s.cap % 4 = 0 := by
    rw [Nat.mod_mod_of_dvd _ (Nat.dvd_of_mod_eq_zero h.params.cap.1)]
    exact h.wptr.2
  have hload := exec_cLoadf_of_inView (s := s.afterBeat beat) hactive hcIn (hoff.symm ▸ hoff4)
    (hoff.trans (rptr_add_readable_mod h).symm) havail.ge (havail.trans_le hview)
  rw [hoff, memRead_afterBeat hroom] at hload
  refine ⟨_, _, exec_pWrite_beat hactive hpIn hroom, hload, ?_⟩
  simp [State.afterBeat, State.seeW, valueWord]

end Sys2Proof.Machine
end

section
/-! SUPPORT. Decoder and encoder are each other's inverse (30_encoding.md R70 to R74): a word decodes on a port to a command
exactly when the command is well formed, of that port, and has that word (O3); and the twelve words of O5. -/

namespace Sys2Proof

open Machine

/-! ## The fields of a word -/

/-- A word is its three fields side by side (30_encoding.md R70). -/
theorem fields_append (w : Word) : portField w ++ (funcField w ++ operandField w) = w := by
  have hlow : funcField w ++ operandField w = w.extractLsb' 0 30 :=
    BitVec.extractLsb'_append_extractLsb'_eq_extractLsb' (x := w) (start₂ := 26) (start₁ := 0) rfl
  rw [hlow]
  exact BitVec.extractLsb'_append_extractLsb' (w := 2) (len := 30) (x := w)

theorem portOfBits_portBits (port : Port) : portOfBits (portBits port) = some port := by
  cases port <;> rfl

theorem eq_portBits_of_portOfBits {b : BitVec 2} {port : Port} (h : portOfBits b = some port) : b = portBits port := by
  revert b
  cases port <;> decide

/-- The fields of a command's word (30_encoding.md R70 to R73). -/
theorem fields_encode (i : Instr) :
    portField (encode i) = portBits i.port ∧ funcField (encode i) = i.func ∧ operandField (encode i) = i.operand :=
  Laws.EncodedFields.fields_of_append _ _ _

/-- A word with the fields of a command is the command's word. -/
theorem encode_of_fields {i : Instr} {w : Word} (hport : portField w = portBits i.port) (hfunc : funcField w = i.func)
    (hop : operandField w = i.operand) : encode i = w := by
  rw [encode, ← hport, ← hfunc, ← hop, fields_append]

/-! ## The operand forms -/

@[simp] theorem wellFormed_hReadReg (idx : BitVec 3) : (Instr.hReadReg idx).wellFormed = true ↔ idx ≠ 7#3 := by
  simp [Instr.wellFormed]

theorem formIdx3_append (f : BitVec 3 → Instr) {idx : BitVec 3} (h : idx ≠ 7#3) :
    formIdx3 f (0#23 ++ idx) = .ok (f idx) := by
  have hhi : BitVec.extractLsb' 3 23 (0#23 ++ idx) = 0#23 := BitVec.extractLsb'_append_eq_left
  have hlo : BitVec.extractLsb' 0 3 (0#23 ++ idx) = idx := BitVec.extractLsb'_append_eq_right
  rw [formIdx3, hhi, hlo, if_pos rfl, if_neg h]

theorem formS16_append (f : BitVec 16 → Instr) (smp : BitVec 16) : formS16 f (0#10 ++ smp) = .ok (f smp) := by
  have hhi : BitVec.extractLsb' 16 10 (0#10 ++ smp) = 0#10 := BitVec.extractLsb'_append_eq_left
  have hlo : BitVec.extractLsb' 0 16 (0#10 ++ smp) = smp := BitVec.extractLsb'_append_eq_right
  rw [formS16, hhi, hlo, if_pos rfl]

theorem formNone_ok_operand {i j : Instr} {op : BitVec 26} (h : formNone i op = .ok j) : j = i ∧ op = 0#26 := by
  refine ⟨formNone_ok h, ?_⟩
  unfold formNone at h
  split at h
  · next hop => exact hop
  · cases h

/-- An operand whose high part is zero is its low part extended by zeros. -/
theorem zero_append_of_high_zero {hi lo : Nat} {op : BitVec (hi + lo)} (hzero : op.extractLsb' lo hi = 0#hi) :
    0#hi ++ op.extractLsb' 0 lo = op := by
  rw [← hzero, BitVec.extractLsb'_append_extractLsb']

theorem formIdx3_ok_operand {f : BitVec 3 → Instr} {op : BitVec 26} {j : Instr} (h : formIdx3 f op = .ok j) :
    ∃ idx, j = f idx ∧ idx ≠ 7#3 ∧ 0#23 ++ idx = op := by
  unfold formIdx3 at h
  split at h
  · next hhi =>
    split at h
    · cases h
    · next hne =>
      cases h
      exact ⟨_, rfl, hne, zero_append_of_high_zero (hi := 23) hhi⟩
  · cases h

theorem formS16_ok_operand {f : BitVec 16 → Instr} {op : BitVec 26} {j : Instr} (h : formS16 f op = .ok j) :
    ∃ smp, j = f smp ∧ 0#10 ++ smp = op := by
  unfold formS16 at h
  split at h
  · next hhi =>
    cases h
    exact ⟨_, rfl, zero_append_of_high_zero (hi := 10) hhi⟩
  · cases h

/-! ## The FUNC map -/

/-- The rows of a port in the FUNC map (30_encoding.md R72). -/
def decodeFields (port : Port) (func : BitVec 4) (op : BitVec 26) : Except IllegalWord Instr :=
  match port with
  | .host => decodeH func op
  | .producer => decodeP func op
  | .consumer => decodeC func op

theorem decode_eq_decodeFields {port : Port} {w : Word} (h : portField w = portBits port) :
    decode port w = decodeFields port (funcField w) (operandField w) := by
  cases port <;> simp only [decode, h, portOfBits_portBits, if_true, decodeFields]

theorem portField_of_decode_ok {port : Port} {w : Word} {i : Instr} (h : decode port w = .ok i) :
    portField w = portBits port := by
  unfold decode at h
  split at h
  · cases h
  · next q hq =>
    split at h
    · next hqp => exact eq_portBits_of_portOfBits (hqp ▸ hq)
    · cases h

/-- The row of a well-formed command takes its operand (30_encoding.md R73). -/
theorem decodeFields_of_wellFormed {i : Instr} (h : i.wellFormed = true) :
    decodeFields i.port i.func i.operand = .ok i := by
  cases i with
  | hReadReg idx => exact formIdx3_append .hReadReg ((wellFormed_hReadReg idx).mp h)
  | hConvert smp => exact formS16_append .hConvert smp
  | _ => rfl

/-- What a row's fields say of the command it gives. -/
def HasFields (i : Instr) (func : BitVec 4) (op : BitVec 26) : Prop :=
  i.wellFormed = true ∧ i.func = func ∧ i.operand = op

theorem decodeH_hasFields {func : BitVec 4} {op : BitVec 26} {i : Instr} (h : decodeH func op = .ok i) :
    HasFields i func op := by
  unfold decodeH at h
  split at h
  case h_4 hfunc =>
    cases h
    exact ⟨rfl, BitVec.eq_of_toNat_eq hfunc.symm, rfl⟩
  case h_8 hfunc =>
    obtain ⟨idx, rfl, hidx, rfl⟩ := formIdx3_ok_operand h
    exact ⟨(wellFormed_hReadReg idx).mpr hidx, BitVec.eq_of_toNat_eq hfunc.symm, rfl⟩
  case h_9 hfunc =>
    obtain ⟨smp, rfl, rfl⟩ := formS16_ok_operand h
    exact ⟨rfl, BitVec.eq_of_toNat_eq hfunc.symm, rfl⟩
  case h_10 => cases h
  all_goals next hfunc =>
    obtain ⟨rfl, rfl⟩ := formNone_ok_operand h
    exact ⟨rfl, BitVec.eq_of_toNat_eq hfunc.symm, rfl⟩

theorem decodeP_hasFields {func : BitVec 4} {op : BitVec 26} {i : Instr} (h : decodeP func op = .ok i) :
    HasFields i func op := by
  unfold decodeP at h
  split at h
  case h_1 hfunc | h_2 hfunc =>
    cases h
    exact ⟨rfl, BitVec.eq_of_toNat_eq hfunc.symm, rfl⟩
  case h_5 => cases h
  all_goals next hfunc =>
    obtain ⟨rfl, rfl⟩ := formNone_ok_operand h
    exact ⟨rfl, BitVec.eq_of_toNat_eq hfunc.symm, rfl⟩

theorem decodeC_hasFields {func : BitVec 4} {op : BitVec 26} {i : Instr} (h : decodeC func op = .ok i) :
    HasFields i func op := by
  unfold decodeC at h
  split at h
  case h_3 hfunc | h_4 hfunc | h_5 hfunc =>
    cases h
    exact ⟨rfl, BitVec.eq_of_toNat_eq hfunc.symm, rfl⟩
  case h_6 => cases h
  all_goals next hfunc =>
    obtain ⟨rfl, rfl⟩ := formNone_ok_operand h
    exact ⟨rfl, BitVec.eq_of_toNat_eq hfunc.symm, rfl⟩

/-- Every row of a port gives a well-formed command of its FUNC value with the word's operand. -/
theorem decodeFields_hasFields {port : Port} {func : BitVec 4} {op : BitVec 26} {i : Instr}
    (h : decodeFields port func op = .ok i) : HasFields i func op := by
  cases port with
  | host => exact decodeH_hasFields h
  | producer => exact decodeP_hasFields h
  | consumer => exact decodeC_hasFields h

/-- Settles O3: the port named by the command's word is the command's own, and the row of its FUNC value takes its
operand. -/
theorem decodeOfEncode : Obligations.DecodeOfEncode := by
  intro i hwf
  obtain ⟨hport, hfunc, hop⟩ := fields_encode i
  rw [decode_eq_decodeFields hport, hfunc, hop, decodeFields_of_wellFormed hwf]

/-- A word is legal exactly as the word of a well-formed command of its port. -/
theorem decode_eq_ok_iff {port : Port} {w : Word} {i : Instr} :
    decode port w = .ok i ↔ i.wellFormed = true ∧ i.port = port ∧ encode i = w := by
  constructor
  · intro h
    have hport := portField_of_decode_ok h
    obtain ⟨hwf, hfunc, hop⟩ := decodeFields_hasFields ((decode_eq_decodeFields hport).symm.trans h)
    have hown := decode_port h
    exact ⟨hwf, hown, encode_of_fields (hown ▸ hport) hfunc.symm hop.symm⟩
  · rintro ⟨hwf, rfl, rfl⟩
    exact decodeOfEncode i hwf

/-- Settles O5: the legal words are those of well-formed commands; each illegal one is refused at the check that its field
fails. -/
theorem decodeVectors : Obligations.DecodeVectors :=
  ⟨decodeOfEncode (.hStart 44100#26) rfl, decodeOfEncode (.hConvert 0x8000#16) rfl, decodeOfEncode (.hReadReg 5#3) rfl,
    decodeOfEncode (.pWrite 12#26) rfl, decodeOfEncode (.pPlay 3#26) rfl, decodeOfEncode (.cRender 4#26) rfl,
    decodeOfEncode (.cAdvance 16#26) rfl, rfl, rfl, rfl, rfl, rfl⟩

end Sys2Proof
end

section
/-! SUPPORT. The rows of the opcode table (30_encoding.md R72 to R75): the words that match a row are the words of the row's
commands, and all but one of them are legal (O4). -/

namespace Sys2Proof

open Machine

/-! ## The row of a command -/

/-- The operand bits that must be zero in a command's operand form (30_encoding.md R73). -/
def Instr.zeroBits (i : Instr) : BitVec 26 :=
  match i with
  | .hStart _ | .pWrite _ | .pPlay _ | .cAdvance _ | .cLoadf _ | .cRender _ => 0#26
  | .hReadReg _ => BitVec.allOnes 23 ++ 0#3
  | .hConvert _ => BitVec.allOnes 10 ++ 0#16
  | .hInit | .hActivate | .hDeactivate | .hStop | .hDeinit | .hSetVolume
  | .pFreeSpace | .pWspan | .cReadAvailable | .cPeek => BitVec.allOnes 26

/-- The row of a command in the opcode table: its mask covers PORT, FUNC and the operand bits that must be zero. -/
def Instr.row (i : Instr) : Port × Word × Word :=
  (i.port, BitVec.allOnes 2 ++ (BitVec.allOnes 4 ++ i.zeroBits), portBits i.port ++ (i.func ++ 0#26))

/-- One command of each row. -/
def rowCommands : List Instr :=
  [.hInit, .hActivate, .hDeactivate, .hStart 0#26, .hStop, .hDeinit, .hSetVolume, .hReadReg 0#3, .hConvert 0#16,
   .pWrite 0#26, .pPlay 0#26, .pFreeSpace, .pWspan,
   .cReadAvailable, .cPeek, .cAdvance 0#26, .cLoadf 0#26, .cRender 0#26]

theorem opcodeRows_eq : opcodeRows = rowCommands.map Instr.row := by decide

/-! ## The words of a row -/

/-- The command of the same row with another operand. -/
def Instr.withOperand (i : Instr) (op : BitVec 26) : Instr :=
  match i with
  | .hStart _ => .hStart op
  | .pWrite _ => .pWrite op
  | .pPlay _ => .pPlay op
  | .cAdvance _ => .cAdvance op
  | .cLoadf _ => .cLoadf op
  | .cRender _ => .cRender op
  | .hReadReg _ => .hReadReg (op.extractLsb' 0 3)
  | .hConvert _ => .hConvert (op.extractLsb' 0 16)
  | .hInit | .hActivate | .hDeactivate | .hStop | .hDeinit | .hSetVolume
  | .pFreeSpace | .pWspan | .cReadAvailable | .cPeek => i

theorem withOperand_port_func (i : Instr) (op : BitVec 26) :
    (i.withOperand op).port = i.port ∧ (i.withOperand op).func = i.func := by
  cases i <;> exact ⟨rfl, rfl⟩

theorem row_mem_opcodeRows (i : Instr) : i.row ∈ opcodeRows := by
  have hrow : i.row = (i.withOperand 0#26).row := by cases i <;> rfl
  have hmem : i.withOperand 0#26 ∈ rowCommands := by cases i <;> simp [Instr.withOperand, rowCommands]
  rw [hrow, opcodeRows_eq]
  exact List.mem_map_of_mem hmem

/-- A mask whose high part is all ones keeps the high part of a word. -/
theorem append_and_allOnes_append {hi lo : Nat} (x : BitVec hi) (y z : BitVec lo) :
    (x ++ y) &&& (BitVec.allOnes hi ++ z) = x ++ (y &&& z) := by
  rw [BitVec.and_append, BitVec.and_allOnes]

/-- An operand whose high part is masked out is its low part extended by zeros. -/
theorem zero_append_of_and_mask {hi lo : Nat} {op : BitVec (hi + lo)}
    (hmask : op &&& (BitVec.allOnes hi ++ 0#lo) = 0#(hi + lo)) : 0#hi ++ op.extractLsb' 0 lo = op := by
  apply zero_append_of_high_zero
  have hhigh := congrArg (BitVec.extractLsb' lo hi) hmask
  simpa [BitVec.extractLsb'_and, BitVec.extractLsb'_append_eq_left] using hhigh

theorem operand_withOperand {i : Instr} {op : BitVec 26} (h : op &&& i.zeroBits = 0#26) :
    (i.withOperand op).operand = op := by
  cases i with
  | hStart | pWrite | pPlay | cAdvance | cLoadf | cRender => rfl
  | hReadReg => exact zero_append_of_and_mask (hi := 23) h
  | hConvert => exact zero_append_of_and_mask (hi := 10) h
  | _ => exact h.symm.trans BitVec.and_allOnes

theorem operand_and_zeroBits (i : Instr) : i.operand &&& i.zeroBits = 0#26 := by
  cases i with
  | hStart | pWrite | pPlay | cAdvance | cLoadf | cRender => exact BitVec.and_zero
  | hReadReg idx => exact (append_and_allOnes_append 0#23 idx 0#3).trans (congrArg (0#23 ++ ·) BitVec.and_zero)
  | hConvert smp => exact (append_and_allOnes_append 0#10 smp 0#16).trans (congrArg (0#10 ++ ·) BitVec.and_zero)
  | _ => exact BitVec.zero_and

/-- A word matches a command's row exactly when it has its PORT and FUNC and zeros where the operand form wants them. -/
theorem matches_row_iff {i : Instr} {w : Word} :
    w &&& i.row.2.1 = i.row.2.2 ↔
      portField w = portBits i.port ∧ funcField w = i.func ∧ operandField w &&& i.zeroBits = 0#26 := by
  have hand : w &&& i.row.2.1 = portField w ++ (funcField w ++ (operandField w &&& i.zeroBits)) := by
    conv_lhs => rw [← fields_append w]
    exact (append_and_allOnes_append ..).trans (congrArg (portField w ++ ·) (append_and_allOnes_append ..))
  rw [hand]
  constructor
  · intro h
    obtain ⟨hport, hfunc, hop⟩ :=
      Laws.EncodedFields.fields_of_append (portField w) (funcField w) (operandField w &&& i.zeroBits)
    obtain ⟨hport', hfunc', hop'⟩ := Laws.EncodedFields.fields_of_append (portBits i.port) i.func 0#26
    rw [h] at hport hfunc hop
    exact ⟨hport.symm.trans hport', hfunc.symm.trans hfunc', hop.symm.trans hop'⟩
  · rintro ⟨hport, hfunc, hop⟩
    rw [hport, hfunc, hop]
    rfl

/-- The words that match a row of a port are the words of its commands. -/
theorem matches_opcodeRows_iff {port : Port} {w : Word} :
    (∃ row ∈ opcodeRows, row.1 = port ∧ w &&& row.2.1 = row.2.2) ↔ ∃ i : Instr, i.port = port ∧ encode i = w := by
  constructor
  · rintro ⟨row, hmem, rfl, hmatch⟩
    rw [opcodeRows_eq] at hmem
    obtain ⟨i, -, rfl⟩ := List.mem_map.mp hmem
    obtain ⟨hport, hfunc, hzero⟩ := matches_row_iff.mp hmatch
    obtain ⟨hport', hfunc'⟩ := withOperand_port_func i (operandField w)
    exact ⟨i.withOperand (operandField w), hport', encode_of_fields (hport' ▸ hport) (hfunc' ▸ hfunc)
      (operand_withOperand hzero).symm⟩
  · rintro ⟨i, rfl, rfl⟩
    obtain ⟨hport, hfunc, hop⟩ := fields_encode i
    exact ⟨i.row, row_mem_opcodeRows i, rfl, matches_row_iff.mpr ⟨hport, hfunc, hop ▸ operand_and_zeroBits i⟩⟩

theorem decode_reserved_index (port : Port) : ∃ e, decode port 0x20000007#32 = .error e := by
  cases port <;> exact ⟨_, rfl⟩

/-- Only the word of H.READ_REG with index 7 is a command's word and not a well-formed one's (30_encoding.md R74(d)). -/
theorem wellFormed_iff (i : Instr) : i.wellFormed = true ↔ encode i ≠ 0x20000007#32 := by
  constructor
  · intro hwf hword
    obtain ⟨e, he⟩ := decode_reserved_index i.port
    rw [← hword, decodeOfEncode i hwf] at he
    cases he
  · intro hword
    cases i with
    | hReadReg idx =>
      exact (wellFormed_hReadReg idx).mpr fun hidx => hword (hidx ▸ rfl)
    | _ => rfl

/-- Settles O4: legal words are the words of well-formed commands, the rows match the words of all commands, and the two
differ in H.READ_REG with index 7. -/
theorem legalWordsAreTableRows : Obligations.LegalWordsAreTableRows := by
  refine ⟨fun port w => ?_, fun port w i h => decode_eq_ok_iff.mp h⟩
  simp only [matches_opcodeRows_iff, decode_eq_ok_iff, wellFormed_iff]
  constructor
  · rintro ⟨i, hne, hport, rfl⟩
    exact ⟨hne, i, hport, rfl⟩
  · rintro ⟨hne, i, hport, rfl⟩
    exact ⟨i, hne, hport, rfl⟩

end Sys2Proof
end

section
/-! SUPPORT. Answers: an illegal word raises E_ILLEGAL and does nothing else (O7), and every issued command is answered once,
when it ends (O10). The issues of a port less its responses and its running command are the commands that were abandoned,
and no step abandons one but reset and the fatal transition (30_encoding.md R78, R82, 43_lifecycle.md R170). -/

namespace Sys2Proof.Machine

/-! ## Illegal words -/

theorem runWord_of_decode_error {port : Port} {w : Word} {e : IllegalWord} (h : decode port w = .error e) (s : State) :
    runWord port w s = .next (s.raiseError .illegal port) := by
  simp [runWord, h]

/-- Settles O7: the idle port issues the word, which does not decode, and the error procedure runs in the state that the
issue leaves. -/
theorem illegalWordRaises : Obligations.IllegalWordRaises := by
  intro s port rest cmd q e hsched hidle hcmds hdecode
  have hcmds' : (s.setSched rest).cmds port = cmd :: q := by simpa using hcmds
  have hstep : step s = .next (((s.setSched rest).accept port cmd q).raiseError .illegal port) := by
    rw [step_agentOf_idle hsched hidle, issueStep_cons hcmds', runWord_of_decode_error hdecode]
    rfl
  exact ⟨_, hstep, raiseError_after _ .illegal port⟩

/-! ## Abandoned commands -/

/-- The responses given on a port, oldest first. -/
def State.responses (s : State) (port : Port) : List Response :=
  match port with
  | .host => s.hResp
  | .producer => s.pResp
  | .consumer => s.cResp

/-- The commands issued on a port that neither have their response nor still run. -/
def State.abandoned (s : State) (port : Port) : Int :=
  s.issued port - (s.responses port).length - (!s.idle port).toNat

theorem State.abandoned_host (s : State) : s.abandoned .host = s.hIssued - s.hResp.length := by
  simp [State.abandoned, State.issued, State.responses, State.idle]

theorem State.abandoned_producer (s : State) :
    s.abandoned .producer = s.pIssued - s.pResp.length - s.pBusy.toNat := by
  simp [State.abandoned, State.issued, State.responses, State.idle]

theorem State.abandoned_consumer (s : State) :
    s.abandoned .consumer = s.cIssued - s.cResp.length - s.cBusy.toNat := by
  simp [State.abandoned, State.issued, State.responses, State.idle]

/-- One event of `port`, as the count of port `p` sees it. -/
def countOn (port p : Port) : Int := if p = port then 1 else 0

/-- A response accounts for one command of its port. -/
theorem State.abandoned_respond (s : State) (port : Port) (code : Code) (vs : List Word) (p : Port) :
    (s.respond port code vs).abandoned p = s.abandoned p - countOn port p := by
  cases port <;> cases p <;>
    simp [State.abandoned_host, State.abandoned_producer, State.abandoned_consumer, State.pBusy,
      State.cBusy, countOn] <;> omega

theorem State.abandoned_raiseError (s : State) (e : ErrClass) (port p : Port) :
    (s.raiseError e port).abandoned p = s.abandoned p - countOn port p :=
  State.abandoned_respond (s.setStatus (statusWithError e s.status)) port (errCode e) [0#32] p

/-- An accepted command is one to be accounted for. -/
theorem State.abandoned_accept (s : State) (port : Port) (cmd : Command) (q : List Command) (p : Port) :
    (s.accept port cmd q).abandoned p = s.abandoned p + countOn port p := by
  cases port <;> cases p <;>
    simp [State.accept, State.abandoned_host, State.abandoned_producer, State.abandoned_consumer, State.pBusy,
      State.cBusy, countOn] <;> omega

/-- Setting the P sequencer starts or ends a running command of P where it was idle or busy before. -/
theorem State.abandoned_setPlay (s : State) (o : Option PlaySeq) (p : Port) :
    (s.setPlay o).abandoned p
      = s.abandoned p + countOn .producer p * ((s.pSeq.isSome.toNat : Int) - o.isSome.toNat) := by
  cases p <;>
    simp [State.abandoned_host, State.abandoned_producer, State.abandoned_consumer, State.pBusy, State.cBusy, countOn]

/-- Setting the C sequencer starts or ends a running command of C where it was idle or busy before. -/
theorem State.abandoned_setRender (s : State) (o : Option RenderSeq) (p : Port) :
    (s.setRender o).abandoned p
      = s.abandoned p + countOn .consumer p * ((s.cSeq.isSome.toNat : Int) - o.isSome.toNat) := by
  cases p <;>
    simp [State.abandoned_host, State.abandoned_producer, State.abandoned_consumer, State.pBusy, State.cBusy, countOn]

@[simp] theorem State.abandoned_deliver (s : State) (port : Port) (payload : List Word) (p : Port) :
    (s.deliver port payload).abandoned p = s.abandoned p := by
  cases port <;> rfl

@[simp] theorem State.abandoned_writeFrames (s : State) (beats : List Word) (k : Nat) (p : Port) :
    (s.writeFrames beats k).abandoned p = s.abandoned p := rfl

@[simp] theorem State.abandoned_emit (s : State) (beats : List OutBeat) (p : Port) :
    (s.emit beats).abandoned p = s.abandoned p := rfl

@[simp] theorem State.abandoned_publishR (s : State) (v : Nat) (p : Port) :
    (s.publishR v).abandoned p = s.abandoned p := rfl

@[simp] theorem State.abandoned_countConversions (s : State) (n : Nat) (p : Port) :
    (s.countConversions n).abandoned p = s.abandoned p := rfl

/-! ## A command is answered or left running -/

/-- A port's running command is safe from the fatal transition: H has none, or the transition is not taken
(43_lifecycle.md R170). -/
def Spared (p : Port) (s t : State) : Prop := p = .host ∨ t.status.lstate ≠ .fatal ∨ s.status.lstate = .fatal

/-- From `s` to `t` one command of the port is accounted for, and none is abandoned. -/
def Accounts (port : Port) (s t : State) : Prop := ∀ p, Spared p s t → t.abandoned p = s.abandoned p - countOn port p

theorem Accounts.respond {s u : State} {port : Port} {code : Code} {vs : List Word}
    (h : ∀ p, u.abandoned p = s.abandoned p) : Accounts port s (u.respond port code vs) := by
  intro p _
  rw [State.abandoned_respond, h p]

theorem Accounts.raiseError {s : State} {e : ErrClass} {port : Port} : Accounts port s (s.raiseError e port) :=
  fun p _ => s.abandoned_raiseError e port p

theorem effectHStart_accounts {rate : BitVec 26} {s : State} (hl : s.status.lstate ≠ .fatal) :
    Accounts .host s (effectHStart rate s) := by
  unfold effectHStart
  split
  · rintro p (rfl | hkept | hfatal)
    · exact s.fatal.abandoned_raiseError .rate .host .host
    · exact absurd rfl hkept
    · exact absurd hfatal hl
  · exact .respond fun _ => rfl

theorem effectHSetVolume_accounts (s : State) : Accounts .host s (effectHSetVolume s) := by
  unfold effectHSetVolume
  split
  · exact .raiseError
  · exact .respond fun _ => rfl

theorem effectHReadReg_accounts (idx : BitVec 3) (s : State) : Accounts .host s (effectHReadReg idx s) := by
  unfold effectHReadReg
  split
  · exact .raiseError
  · exact .respond fun _ => rfl

theorem effectPWrite_accounts (n : BitVec 26) (s : State) : Accounts .producer s (effectPWrite n s) := by
  simp only [effectPWrite]
  split
  · exact .raiseError
  · split <;> exact .respond fun _ => rfl

theorem effectPPlay_accounts {count : BitVec 26} {s : State} (hidle : s.pSeq = none) :
    Accounts .producer s (effectPPlay count s) := by
  simp only [effectPPlay]
  split
  · exact .respond fun _ => rfl
  · intro p _
    simp [State.abandoned_setPlay, hidle, sub_eq_add_neg]

theorem effectCAdvance_accounts (n : BitVec 26) (s : State) : Accounts .consumer s (effectCAdvance n s) := by
  simp only [effectCAdvance]
  split
  · exact .raiseError
  · split
    · exact .raiseError
    · exact .respond fun _ => rfl

theorem effectCLoadf_accounts (off : BitVec 26) (s : State) : Accounts .consumer s (effectCLoadf off s) := by
  simp only [effectCLoadf]
  split
  · exact .raiseError
  · split
    · exact .raiseError
    · split
      · exact .raiseError
      · exact .respond fun _ => rfl

theorem effectCRender_accounts {n : BitVec 26} {s : State} (hidle : s.cSeq = none) :
    Accounts .consumer s (effectCRender n s) := by
  simp only [effectCRender]
  split
  · exact .respond fun _ => rfl
  · intro p _
    simp [State.abandoned_setRender, hidle, sub_eq_add_neg]

/-- A command that passes the common checks on its idle port responds or starts to run. -/
theorem effectOf_accounts {i : Instr} {s : State} (hl : legal i s = true) (hidle : s.idle i.port = true) :
    Accounts i.port s (effectOf i s) := by
  cases i with
  | hStart rate =>
    refine effectHStart_accounts fun hfatal => ?_
    simp [legal, hfatal] at hl
  | hSetVolume => exact effectHSetVolume_accounts s
  | hReadReg idx => exact effectHReadReg_accounts idx s
  | pWrite n => exact effectPWrite_accounts n s
  | pPlay count => exact effectPPlay_accounts (State.idle_producer_iff.mp hidle)
  | cAdvance n => exact effectCAdvance_accounts n s
  | cLoadf off => exact effectCLoadf_accounts off s
  | cRender n => exact effectCRender_accounts (State.idle_consumer_iff.mp hidle)
  | _ => exact .respond fun _ => rfl

theorem exec_accounts {i : Instr} {s t : State} (hidle : s.idle i.port = true) (h : exec i s = .next t) :
    Accounts i.port s t := by
  rcases exec_cases h with ⟨-, ht⟩ | ⟨-, -, ht⟩ | ⟨-, hl, ht⟩ <;> cases ht
  · exact .raiseError
  · exact .raiseError
  · exact effectOf_accounts hl hidle

/-! ## No step abandons a command -/

theorem State.idle_accept (s : State) (port p : Port) (cmd : Command) (q : List Command) :
    (s.accept port cmd q).idle p = s.idle p := by
  cases p <;> simp [State.accept, State.idle, State.pBusy, State.cBusy]

/-- An issued command adds one to be accounted for, and its first step accounts for it. -/
theorem issueStep_abandoned {port p : Port} {s t : State} (hidle : s.idle port = true)
    (h : issueStep port s = .next t) (hp : Spared p s t) : t.abandoned p = s.abandoned p := by
  have hrun : ∀ cmd q, Accounts port (s.accept port cmd q) t → t.abandoned p = s.abandoned p := by
    intro cmd q hacc
    have hstatus := (Issue.accept (s := s) port cmd q rfl).status
    rw [hacc p (by rwa [Spared, hstatus]), State.abandoned_accept, add_sub_cancel_right]
  rcases issueStep_cases h with ⟨-, ht⟩ | ⟨cmd, q, u, -, hu, hfirst⟩
  · cases ht
    rfl
  · obtain rfl : u = s.accept port cmd q := hu
    rcases hfirst with ⟨e, -, ht⟩ | ⟨i, hd, ht⟩
    · cases ht
      exact hrun cmd q .raiseError
    · obtain rfl := decode_port hd
      exact hrun cmd q (exec_accounts ((s.idle_accept ..).trans hidle) ht.symm)

/-- A write step gives the response exactly when it ends the play (42_feeder.md R151). -/
theorem playStep_abandoned {q : PlaySeq} {s t : State} (hq : s.pSeq = some q) (h : playStep q s = .next t) (p : Port) :
    t.abandoned p = s.abandoned p := by
  rcases playStep_cases q s with ⟨-, hr⟩ | ⟨-, hr⟩ | ⟨-, -, -, hr⟩ | ⟨-, -, -, hr⟩ <;> rw [hr] at h <;> cases h
  · rfl
  · simp [State.abandoned_respond, State.abandoned_setPlay, hq]
  · simp [State.abandoned_setPlay, hq]

/-- A render gives its response exactly in its fill step, which ends it (41_render_convert.md R141). -/
theorem renderStep_abandoned {q : RenderSeq} {s : State} (hq : s.cSeq = some q) (p : Port) :
    (renderStep q s).abandoned p = s.abandoned p := by
  unfold renderStep
  split
  · rcases renderChunk_cases q s with ⟨-, -, hr⟩ | ⟨-, hr⟩ <;> rw [hr] <;> simp [State.abandoned_setRender, hq]
  · simp [renderFill, State.abandoned_respond, State.abandoned_setRender, hq]

/-- No agent's step abandons a command but by the fatal transition. -/
theorem agentStep_abandoned {c : Choice} {p : Port} {s t : State} (hc : c ≠ .reset) (h : agentStep c s = .next t)
    (hp : Spared p s t) : t.abandoned p = s.abandoned p := by
  cases c with
  | agentH => exact issueStep_abandoned (port := .host) rfl h hp
  | agentP =>
    cases hq : s.pSeq with
    | none =>
      exact issueStep_abandoned (State.idle_producer_iff.mpr hq) ((agentStep_producer_idle hq).symm.trans h) hp
    | some q => exact playStep_abandoned hq ((agentStep_producer_busy hq).symm.trans h) p
  | agentC =>
    cases hq : s.cSeq with
    | none =>
      exact issueStep_abandoned (State.idle_consumer_iff.mpr hq) ((agentStep_consumer_idle hq).symm.trans h) hp
    | some q =>
      cases (agentStep_consumer_busy hq).symm.trans h
      exact renderStep_abandoned hq p
  | syncW d => cases h; rw [State.syncW_eq]; rfl
  | syncR d => cases h; rw [State.syncR_eq]; rfl
  | reset => exact absurd rfl hc

theorem step_abandoned {c : Choice} {p : Port} {s t : State} {rest : List Choice} (hsched : s.sched = c :: rest)
    (hc : c ≠ .reset) (h : step s = .next t) (hp : Spared p s t) : t.abandoned p = s.abandoned p :=
  agentStep_abandoned (s := s.setSched rest) hc ((step_of_sched_cons hsched).symm.trans h) hp

/-- Settles O10: the statement says, in naturals, that the number of abandoned commands of each port stays. -/
theorem commandsAnsweredOnce : Obligations.CommandsAnsweredOnce := by
  intro s t c rest hsched hc h
  have hkeep (p : Port) (hp : Spared p s t) : t.abandoned p = s.abandoned p := step_abandoned hsched hc h hp
  refine ⟨?_, fun hspared => ⟨?_, ?_⟩⟩
  · have hhost := hkeep .host (.inl rfl)
    simp only [State.abandoned_host] at hhost
    omega
  · have hproducer := hkeep .producer (.inr hspared)
    simp only [State.abandoned_producer] at hproducer
    omega
  · have hconsumer := hkeep .consumer (.inr hspared)
    simp only [State.abandoned_consumer] at hconsumer
    omega

end Sys2Proof.Machine
end

section
/-! SUPPORT. Every command's word and common checks, said once for all commands of a port: the word is the row's word with
the operand put in (30_encoding.md R70 to R73), and a command of port P or C that passes the checks of 60_exceptions.md R193
and R194 runs its effect. -/

namespace Sys2Proof.Machine

/-! ## The word of a command -/

/-- A field put into the zeros below two others. -/
theorem append_zero_or_setWidth {a b n : Nat} (x : BitVec a) (y : BitVec b) (z : BitVec n) :
    (x ++ (y ++ 0#n)) ||| z.setWidth (a + (b + n)) = x ++ (y ++ z) := by
  ext j hj
  simp only [BitVec.getElem_or, BitVec.getElem_append, BitVec.getElem_setWidth]
  grind

/-- PORT and FUNC stand above the operand, so a command's word is its row's word with the operand put in. -/
theorem encode_eq_or {i : Instr} (port : Port) (func : BitVec 4) {w : Word} (hport : i.port = port) (hfunc : i.func = func)
    (hw : portBits port ++ (func ++ 0#26) = w) : encode i = w ||| i.operand.setWidth 32 := by
  subst hport hfunc hw
  exact (append_zero_or_setWidth (portBits i.port) i.func i.operand).symm

/-! ## The common checks -/

/-- The commands of port P are legal where there is a buffer (60_exceptions.md R193). -/
theorem legal_producer_iff {i : Instr} {s : State} (hi : i.port = .producer) :
    legal i s = true ↔ s.status.lstate ∈ [LState.ready, LState.active] := by
  cases i with
  | pWrite | pPlay | pFreeSpace | pWspan => simp [legal]
  | _ => cases hi

/-- The commands of port C are legal in ACTIVE (60_exceptions.md R193). -/
theorem legal_consumer_iff {i : Instr} {s : State} (hi : i.port = .consumer) :
    legal i s = true ↔ s.status.lstate ∈ [LState.active] := by
  cases i with
  | cReadAvailable | cPeek | cAdvance | cLoadf | cRender => simp [legal]
  | _ => cases hi

/-- A command that is legal exactly in some lifecycle states makes the common checks of 60_exceptions.md R194. -/
theorem commonChecks_of_legal_iff {i : Instr} {states : List LState}
    (hl : ∀ s, legal i s = true ↔ s.status.lstate ∈ states) : CommonChecks i (payloadBeats i) states := by
  intro s
  refine ⟨fun hp => ⟨_, ?_, raiseError_after s .illegal i.port⟩, fun hp hs => ⟨_, ?_, raiseError_after s .state i.port⟩⟩
  · rw [exec_eq_checked, checked_payload _ hp]
  · rw [exec_eq_checked, checked_state _ hp (Bool.eq_false_iff.mpr fun h => hs ((hl s).mp h))]

theorem commonChecks_producer {i : Instr} (hi : i.port = .producer) :
    CommonChecks i (payloadBeats i) [.ready, .active] :=
  commonChecks_of_legal_iff fun _ => legal_producer_iff hi

/-- The commands of port C take no payload (30_encoding.md R72). -/
theorem payloadBeats_consumer {i : Instr} (hi : i.port = .consumer) : payloadBeats i = 0 := by
  cases i with
  | cReadAvailable | cPeek | cAdvance | cLoadf | cRender => rfl
  | _ => cases hi

theorem commonChecks_consumer {i : Instr} (hi : i.port = .consumer) : CommonChecks i 0 [.active] :=
  payloadBeats_consumer hi ▸ commonChecks_of_legal_iff fun _ => legal_consumer_iff hi

/-! ## A command that passes the checks -/

/-- The command passes the common checks (60_exceptions.md R194). -/
structure Passes (i : Instr) (s : State) : Prop where
  payload : (s.dataIn i.port).length = payloadBeats i
  legal : legal i s = true

theorem Passes.exec_eq {i : Instr} {s : State} (h : Passes i s) : exec i s = .next (effectOf i s) := by
  rw [exec_eq_checked, checked_ok _ h.payload h.legal]

/-- An error that the command's own checks raise. -/
theorem Passes.raises {i : Instr} {s : State} {e : ErrClass} (h : Passes i s)
    (he : effectOf i s = s.raiseError e i.port) : Raises i s e :=
  ⟨_, h.exec_eq, he ▸ raiseError_after s e i.port⟩

theorem passes_producer {i : Instr} {s : State} (hi : i.port = .producer) (hp : s.pIn.length = payloadBeats i)
    (hl : s.status.lstate ∈ [LState.ready, LState.active]) : Passes i s :=
  ⟨hi.symm ▸ hp, (legal_producer_iff hi).mpr hl⟩

theorem passes_consumer {i : Instr} {s : State} (hi : i.port = .consumer) (hc : s.cIn = [])
    (hl : s.status.lstate = .active) : Passes i s :=
  ⟨by rw [hi, payloadBeats_consumer hi, State.dataIn, hc, List.length_nil],
    (legal_consumer_iff hi).mpr (List.mem_singleton.mpr hl)⟩

/-- With no payload to discard, a response only adds to the record of responses (30_encoding.md R77, R78). -/
theorem State.respond_producer_of_nil {s : State} (h : s.pIn = []) (code : Code) (vs : List Word) :
    s.respond .producer code vs = { s with pResp := s.pResp ++ [⟨code, vs⟩] } := by
  simp [State.respond, h]

theorem State.respond_consumer_of_nil {s : State} (h : s.cIn = []) (code : Code) (vs : List Word) :
    s.respond .consumer code vs = { s with cResp := s.cResp ++ [⟨code, vs⟩] } := by
  simp [State.respond, h]

end Sys2Proof.Machine
end

section
/-! SUPPORT. The ring buffer commands of port P (40_ring_buffer.md R101 to R103): P.WRITE stores what fits (O20),
the two queries report the free bytes in view (O22, O23). -/

namespace Sys2Proof.Machine

/-! ## P.WRITE -/

/-- A producer step changes no byte that its beats do not reach (20_memory.md R50). -/
theorem memByte_writeFrames_other {s : State} {beats : List Word} {k a : Nat} (hw : Fits s beats k)
    (h : ∀ j < k, a ≠ (s.wptr + j) % s.cap) : memByte (s.writeFrames beats k) a = memByte s a := by
  have hother : memLookup (s.writeFrames beats k).mem a = memLookup s.mem a := by
    refine memLookup_memWriteBeats_other _ _ _ _ fun j hj => ?_
    rw [Nat.mod_add_mod]
    exact h j (hw.whole ▸ hj)
  unfold memByte
  rw [hother]
  rfl

/-- The beats of its payload that P.WRITE accepts (40_ring_buffer.md R101). -/
def acceptedBeats (s : State) (n : BitVec 26) : List Word := s.pIn.take (s.acceptedBytes n.toNat / 4)

theorem fits_acceptedBeats {s : State} {n : BitVec 26} (hp : s.pIn.length = (n.toNat + 3) / 4) :
    Fits s (acceptedBeats s n) (s.acceptedBytes n.toNat) := by
  have hle := (acceptedBytes_spec s n.toNat).2.1
  exact fits_take (by omega)

/-- P.WRITE of whole frames: the whole next state, but for the bytes it stores (40_ring_buffer.md R101). -/
theorem effectPWrite_eq {n : BitVec 26} {s : State} {k : Nat} (hn : n.toNat % 4 = 0) (hk : k = s.acceptedBytes n.toNat) :
    effectPWrite n s = { s with
      mem := (s.writeFrames (acceptedBeats s n) k).mem
      wptr := cursorAdv s.cap s.wptr k
      dropped := if k < n.toNat then droppedAdd s.dropped (n.toNat - k) else s.dropped
      status := { s.status with overrun := if k < n.toNat then true else s.status.overrun }
      pIn := []
      pResp := s.pResp ++ [⟨if k < n.toNat then .short else .ok, [valueWord k]⟩] } := by
  subst hk
  refine (if_neg (not_not_intro hn)).trans ?_
  by_cases hlt : s.acceptedBytes n.toNat < n.toNat
  · refine (if_pos hlt).trans ?_
    simp only [if_pos hlt]
    rfl
  · refine (if_neg hlt).trans ?_
    simp only [if_neg hlt]
    rfl

/-- Settles O20: the accepted beats fit the free region in view, so they stand at the write cursor and no other byte
changes. -/
theorem pWriteRule : Obligations.PWriteRule := by
  refine ⟨fun _ => encode_eq_or .producer 1#4 rfl rfl rfl, fun _ => commonChecks_producer rfl, fun s n hp hl hn => ?_,
    fun s n k hp hl hn hk => ?_⟩
  · exact (passes_producer rfl hp hl).raises (if_pos hn)
  · have hk' : k = s.acceptedBytes n.toNat := hk
    have hfits : Fits s (acceptedBeats s n) k := hk' ▸ fits_acceptedBeats hp
    have hexec := (passes_producer (i := .pWrite n) rfl hp hl).exec_eq.trans
      (congrArg Host.Outcome.next (effectPWrite_eq hn hk'))
    refine ⟨by omega, fun hc => ?_, _, hexec, fun i hi j hj beat hbeat => ?_, fun a ha => ?_, rfl⟩
    · have hcap4 := hc.params.cap.1
      have hdist4 := cursorDist_mod_four hcap4 hc.rview hc.wptr.1 hc.wholeRview hc.wptr.2
      omega
    · have hlen : i < (acceptedBeats s n).length := by have := hfits.whole; omega
      have hget : (acceptedBeats s n)[i] = beat := by
        obtain ⟨_, hget⟩ := List.getElem?_eq_some_iff.mp hbeat
        simpa [acceptedBeats] using hget
      exact hget ▸ memByte_writeFrames hfits hlen hj
    · exact memByte_writeFrames_other hfits ha

/-! ## The queries of port P -/

/-- Cursors that differ have a distance. -/
theorem cursorDist_pos {cap a b : Nat} (ha : a < 2 * cap) (hb : b < 2 * cap) (hne : a ≠ b) : 0 < cursorDist cap a b := by
  rcases cursorDist_cases ha hb with ⟨_, h⟩ | ⟨_, h⟩ <;> omega

/-- Settles O22: what the producer takes as unread is the readable bytes and those it has not seen read yet. -/
theorem pFreeSpaceRule : Obligations.PFreeSpaceRule := by
  refine ⟨rfl, commonChecks_producer rfl, fun s hp hl => ?_, fun s h => ?_⟩
  · rw [(passes_producer rfl (congrArg List.length hp) hl).exec_eq]
    exact congrArg Host.Outcome.next (s.respond_producer_of_nil hp _ _)
  · have hunread := h.add_readable
    have hroom := h.room
    have hfree : s.free = s.cap - s.readable := rfl
    refine ⟨h.freeP_le, fun hlag => ?_, fun hview hempty => ?_, fun hfull => by omega⟩
    · have hpos := cursorDist_pos h.rview h.rptr.1 hlag
      omega
    · have hzero : cursorDist s.cap s.rview s.wptr = 0 := hview ▸ hempty
      omega

/-- Settles O23: the first range ends at the end of MEM or where the free bytes do, the second holds what is left. -/
theorem pWspanRule : Obligations.PWspanRule := by
  refine ⟨rfl, commonChecks_producer rfl, ?_⟩
  rintro s _ _ _ hp hl rfl rfl rfl
  refine ⟨by omega, ?_⟩
  rw [(passes_producer rfl (congrArg List.length hp) hl).exec_eq]
  exact congrArg Host.Outcome.next (s.respond_producer_of_nil hp _ _)

end Sys2Proof.Machine
end

section
/-! SUPPORT. The ring buffer commands of port C (40_ring_buffer.md R104 to R107): the two queries report the readable bytes in
view (O24, O25), C.ADVANCE consumes them (O26), C.LOADF reads a frame of them (O27). -/

namespace Sys2Proof.Machine

/-! ## C.LOADF -/

theorem memRead_lt (s : State) (off n : Nat) : memRead s off n < 2 ^ (8 * n) := by
  induction n with
  | zero => simp [memRead]
  | succ k ih =>
    have hbyte := (memByte s ((off + k) % s.cap)).isLt
    have hmul := Nat.mul_le_mul_right (2 ^ (8 * k)) (Nat.le_of_lt_succ hbyte)
    rw [memRead, Nat.mul_succ, Nat.pow_add]
    omega

/-- Byte `j` of a little-endian read is the byte at its offset (00_scope.md R12). -/
theorem memRead_div_mod {s : State} {off n j : Nat} (hj : j < n) :
    memRead s off n / 2 ^ (8 * j) % 2 ^ 8 = (memByte s ((off + j) % s.cap)).toNat := by
  induction n with
  | zero => omega
  | succ k ih =>
    rw [memRead]
    rcases Nat.lt_succ_iff_lt_or_eq.mp hj with hlt | rfl
    · have hpow : 2 ^ (8 * k) = 2 ^ (8 * j) * (2 ^ (8 * (k - j - 1)) * 2 ^ 8) := by
        rw [← Nat.pow_add, ← Nat.pow_add]
        congr 1
        omega
      rw [hpow, Nat.mul_left_comm, Nat.add_mul_div_left _ _ (Nat.two_pow_pos _), ← Nat.mul_assoc, Nat.add_mul_mod_self_right,
        ih hlt]
    · rw [Nat.add_mul_div_right _ _ (Nat.two_pow_pos _), Nat.div_eq_of_lt (memRead_lt ..), Nat.zero_add,
        Nat.mod_eq_of_lt (BitVec.isLt _)]

/-- The bytes of a frame that is read as a word (20_memory.md R51). -/
theorem extractLsb'_valueWord_memRead {s : State} {off j : Nat} (hj : j < 4) :
    (valueWord (memRead s off 4)).extractLsb' (8 * j) 8 = memByte s ((off + j) % s.cap) := by
  apply BitVec.eq_of_toNat_eq
  rw [BitVec.extractLsb'_toNat, valueWord, BitVec.toNat_ofNat, Nat.mod_eq_of_lt (memRead_lt ..),
    Nat.shiftRight_eq_div_pow, memRead_div_mod hj]

/-- The relative position C.LOADF computes on naturals is the remainder of 40_ring_buffer.md R107. -/
theorem rel_eq_of_emod {cap r o rel : Nat} (hcap : 0 < cap) (h : (rel : Int) = ((o : Int) - (r % cap : Nat)) % cap) :
    (o + (cap - r % cap)) % cap = rel := by
  have hlt := Nat.mod_lt r hcap
  have hsum : ((o + (cap - r % cap) : Nat) : Int) = (o : Int) - (r % cap : Nat) + cap := by omega
  apply Int.ofNat_inj.mp
  rw [h, Int.natCast_mod, hsum, Int.add_emod_right]

/-- C.LOADF of a frame inside MEM: what is left to check is that the frame is in view (40_ring_buffer.md R107). -/
theorem effectCLoadf_of_frame {off : BitVec 26} {s : State} {rel : Nat} (h4 : off.toNat % 4 = 0) (hin : off.toNat < s.cap)
    (hrel : (rel : Int) = ((off.toNat : Int) - (s.rptr % s.cap : Nat)) % s.cap) :
    effectCLoadf off s =
      if s.availC < rel + 4 then s.raiseError .range .consumer
      else s.respond .consumer .ok [valueWord (memRead s off.toNat 4)] := by
  rw [← rel_eq_of_emod (Nat.zero_lt_of_lt hin) hrel]
  exact (if_neg (not_not_intro h4)).trans (if_neg (Nat.not_le_of_lt hin))

/-- Settles O27: the checks in the order of 60_exceptions.md R194, then the frame's bytes in the response's value. -/
theorem cLoadfRule : Obligations.CLoadfRule := by
  refine ⟨fun _ => encode_eq_or .consumer 4#4 rfl rfl rfl, fun _ => commonChecks_consumer rfl,
    fun s off rel hc hl hrel => ?_⟩
  have hpass : Passes (.cLoadf off) s := passes_consumer rfl hc hl
  refine ⟨fun h4 => ?_, fun h4 hout => ?_, fun h4 hin hview => ?_, fun h4 hin hview => ?_⟩
  · exact hpass.raises (if_pos h4)
  · exact hpass.raises ((if_neg (not_not_intro h4)).trans (if_pos hout))
  · exact hpass.raises ((effectCLoadf_of_frame h4 hin hrel).trans (if_pos hview))
  · refine ⟨valueWord (memRead s off.toNat 4), fun j hj => extractLsb'_valueWord_memRead hj, ?_⟩
    rw [hpass.exec_eq, ← s.respond_consumer_of_nil hc]
    exact congrArg Host.Outcome.next ((effectCLoadf_of_frame h4 hin hrel).trans (if_neg (Nat.not_lt_of_le hview)))

/-! ## C.ADVANCE -/

/-- C.ADVANCE of whole frames: what is left to check is that they are in view (40_ring_buffer.md R106). -/
theorem effectCAdvance_of_frames {n : BitVec 26} {s : State} (h4 : n.toNat % 4 = 0) :
    effectCAdvance n s =
      if s.availC < n.toNat then s.raiseError .range .consumer
      else (s.publishR (cursorAdv s.cap s.rptr n.toNat)).respond .consumer .ok [0#32] :=
  if_neg (not_not_intro h4)

/-- Settles O26: the checks in the order of 60_exceptions.md R194, then the read cursor alone moves. -/
theorem cAdvanceRule : Obligations.CAdvanceRule := by
  refine ⟨fun _ => encode_eq_or .consumer 3#4 rfl rfl rfl, fun _ => commonChecks_consumer rfl, fun s n hc hl => ?_⟩
  have hpass : Passes (.cAdvance n) s := passes_consumer rfl hc hl
  refine ⟨fun h4 => ?_, fun h4 hview => ?_, fun h4 hview => ?_⟩
  · exact hpass.raises (if_pos h4)
  · exact hpass.raises ((effectCAdvance_of_frames h4).trans (if_pos hview))
  · have hmoved : (s.publishR (cursorAdv s.cap s.rptr n.toNat)).cIn = [] := hc
    rw [hpass.exec_eq]
    exact congrArg Host.Outcome.next (((effectCAdvance_of_frames h4).trans (if_neg (Nat.not_lt_of_le hview))).trans
      (State.respond_consumer_of_nil hmoved _ _))

/-! ## The queries of port C -/

theorem CursorsOrdered.availC_mod_four {s : State} (h : CursorsOrdered s) : s.availC % 4 = 0 :=
  cursorDist_mod_four h.params.cap.1 h.rptr.1 h.wview h.rptr.2 h.wholeWview

/-- Settles O24: the readable bytes are those in view and those the consumer has not seen yet. -/
theorem cReadAvailableRule : Obligations.CReadAvailableRule := by
  refine ⟨rfl, commonChecks_consumer rfl, fun s hc hl => ?_, fun s h => ?_⟩
  · rw [(passes_consumer rfl hc hl).exec_eq]
    exact congrArg Host.Outcome.next (s.respond_consumer_of_nil hc _ _)
  · have hsum : cursorDist s.cap s.rptr s.wview + cursorDist s.cap s.wview s.wptr = s.readable := h.availC_add
    refine ⟨h.availC_le, CursorsOrdered.availC_mod_four, fun hlag => ?_, fun hempty => by omega, fun hview hfull => ?_⟩
    · have hpos := cursorDist_pos h.wview h.wptr.1 hlag
      omega
    · rw [hview]
      exact hfull

/-- Settles O25: the first range ends at the end of MEM or where the bytes in view do, the second holds what is left. -/
theorem cPeekRule : Obligations.CPeekRule := by
  refine ⟨rfl, commonChecks_consumer rfl, ?_⟩
  rintro s _ _ _ hc hl rfl rfl rfl
  refine ⟨by omega, fun h => ?_, ?_⟩
  · have havail4 : cursorDist s.cap s.rptr s.wview % 4 = 0 := h.availC_mod_four
    have hcap4 := h.params.cap.1
    have hoff4 : s.rptr % s.cap % 4 = 0 := by
      rw [Nat.mod_mod_of_dvd _ (Nat.dvd_of_mod_eq_zero hcap4)]
      exact h.rptr.2
    omega
  · rw [(passes_consumer rfl hc hl).exec_eq]
    exact congrArg Host.Outcome.next (s.respond_consumer_of_nil hc _ _)

end Sys2Proof.Machine
end

section
/-! SUPPORT. binary32 patterns by their magnitude bits (41_render_convert.md R131 to R136): which patterns are finite, NaN,
infinite or zero, the magnitude's value in units of 2^-149, and its order. -/

namespace Sys2Proof.Machine

/-! ## Sign and magnitude of a pattern -/

/-- The magnitude bits [30:0] of a pattern. -/
def f32Mag (w : Word) : Nat := w.toNat % 2 ^ 31

theorem f32Exp_eq (w : Word) : f32Exp w = f32Mag w / 2 ^ 23 := by
  rw [f32Exp, f32Mag, BitVec.extractLsb'_toNat, Nat.shiftRight_eq_div_pow]
  omega

theorem f32Frac_eq (w : Word) : f32Frac w = f32Mag w % 2 ^ 23 := by
  rw [f32Frac, f32Mag, BitVec.extractLsb'_toNat, Nat.shiftRight_zero]
  omega

theorem f32Mag_lt (w : Word) : f32Mag w < 2 ^ 31 := Nat.mod_lt _ (by decide)

theorem f32Finite_iff {w : Word} : f32Finite w ↔ f32Mag w < 0x7F800000 := by
  rw [f32Finite, f32Exp_eq]
  omega

theorem f32IsNaN_iff {w : Word} : f32IsNaN w = true ↔ 0x7F800000 < f32Mag w := by
  have hlt := f32Mag_lt w
  simp only [f32IsNaN, f32Exp_eq, f32Frac_eq, Bool.and_eq_true, beq_iff_eq, bne_iff_ne]
  omega

theorem f32IsInf_iff {w : Word} : f32IsInf w = true ↔ f32Mag w = 0x7F800000 := by
  have hlt := f32Mag_lt w
  simp only [f32IsInf, f32Exp_eq, f32Frac_eq, Bool.and_eq_true, beq_iff_eq]
  omega

theorem f32IsZero_iff {w : Word} : f32IsZero w = true ↔ f32Mag w = 0 := by
  simp only [f32IsZero, f32Exp_eq, f32Frac_eq, Bool.and_eq_true, beq_iff_eq]
  omega

/-! ## Packing -/

theorem toNat_packF32 (sign : Bool) {mag : Nat} (h : mag < 2 ^ 31) : (packF32 sign mag).toNat = sign.toNat * 2 ^ 31 + mag := by
  rw [packF32, BitVec.toNat_append, BitVec.toNat_ofBool, BitVec.toNat_ofNat, Nat.mod_eq_of_lt h,
    ← Nat.shiftLeft_add_eq_or_of_lt h, Nat.shiftLeft_eq]

theorem f32Mag_packF32 (sign : Bool) {mag : Nat} (h : mag < 2 ^ 31) : f32Mag (packF32 sign mag) = mag := by
  rw [f32Mag, toNat_packF32 sign h, Nat.mul_add_mod_self_right, Nat.mod_eq_of_lt h]

@[simp] theorem f32Sign_packF32 (sign : Bool) (mag : Nat) : f32Sign (packF32 sign mag) = sign := by
  exact (BitVec.msb_append (x := BitVec.ofBool sign) (y := BitVec.ofNat 31 mag)).trans (by simp)

/-- A pattern is its sign above its magnitude bits. -/
theorem packF32_f32Mag (w : Word) : packF32 (f32Sign w) (f32Mag w) = w := by
  apply BitVec.eq_of_toNat_eq
  have hsign : f32Sign w = decide (2 ^ 31 ≤ w.toNat) := w.msb_eq_decide
  have hlt := w.isLt
  rw [toNat_packF32 _ (f32Mag_lt w), f32Mag, hsign]
  by_cases h : 2 ^ 31 ≤ w.toNat <;> simp only [h, decide_true, decide_false, Bool.toNat_true, Bool.toNat_false] <;> omega

/-! ## The value of magnitude bits -/

/-- The value of magnitude bits in units of 2^-149: a significand of 24 bits, the hidden bit included, at the exponent's
scale (41_render_convert.md R135). The exponent has no upper end here, so every natural has a value. -/
def magUnits (p : Nat) : Nat :=
  if p / 2 ^ 23 = 0 then p % 2 ^ 23 else (2 ^ 23 + p % 2 ^ 23) * 2 ^ (p / 2 ^ 23 - 1)

theorem f32Mant_mul_f32Scale (w : Word) : f32Mant w * 2 ^ f32Scale w = magUnits (f32Mag w) := by
  rw [f32Mant, f32Scale, magUnits, f32Exp_eq, f32Frac_eq]
  split
  · next h => rw [h, Nat.pow_zero, Nat.mul_one]
  · rfl

/-- A significand in the place of the fraction carries its hidden bit, and a carry out of it, into the exponent by itself. -/
theorem magUnits_packed {e sig : Nat} (hsig : sig ≤ 2 ^ 24) (hnorm : e = 0 ∨ 2 ^ 23 ≤ sig) :
    magUnits (e * 2 ^ 23 + sig) = sig * 2 ^ e := by
  rcases Nat.lt_or_ge sig (2 ^ 23) with hsub | hge
  · obtain rfl : e = 0 := by omega
    rw [magUnits, if_pos (by omega)]
    omega
  · rw [magUnits, if_neg (by omega)]
    rcases Nat.lt_or_eq_of_le hsig with hlt | rfl
    · rw [show (e * 2 ^ 23 + sig) / 2 ^ 23 - 1 = e by omega, show 2 ^ 23 + (e * 2 ^ 23 + sig) % 2 ^ 23 = sig by omega]
    · rw [show (e * 2 ^ 23 + 2 ^ 24) / 2 ^ 23 - 1 = e + 1 by omega,
        show 2 ^ 23 + (e * 2 ^ 23 + 2 ^ 24) % 2 ^ 23 = 2 ^ 23 by omega]
      ring

/-- Every magnitude is a significand at an exponent's scale. -/
theorem exists_packed (p : Nat) : ∃ e sig, p = e * 2 ^ 23 + sig ∧ sig < 2 ^ 24 ∧ (e = 0 ∨ 2 ^ 23 ≤ sig) :=
  ⟨p / 2 ^ 23 - 1, p - (p / 2 ^ 23 - 1) * 2 ^ 23, by omega, by omega, by omega⟩

/-- Larger magnitude bits mean a larger value. -/
theorem magUnits_strictMono : StrictMono magUnits := by
  refine strictMono_nat_of_lt_succ fun p => ?_
  obtain ⟨e, sig, rfl, hsig, hnorm⟩ := exists_packed p
  rw [Nat.add_assoc, magUnits_packed hsig.le hnorm, magUnits_packed (sig := sig + 1) hsig (by omega)]
  exact Nat.mul_lt_mul_of_pos_right (Nat.lt_succ_self sig) (Nat.two_pow_pos e)

/-- Zero has the value 0. -/
@[simp] theorem magUnits_zero : magUnits 0 = 0 := rfl

end Sys2Proof.Machine
end

section
/-! SUPPORT. Rounding to nearest, ties to even (41_render_convert.md R135): the rounded magnitude bits have the value nearest to
the exact magnitude among all magnitude bits, and are even at a tie. -/

namespace Sys2Proof.Machine

/-! ## Rounding to a multiple -/

/-- `n` units of `u` are nearest to `v`, and `n` is even where another number of units is as near. -/
structure NearestEven (n u v : Nat) : Prop where
  above : 2 * (n * u) ≤ 2 * v + u
  below : 2 * v ≤ 2 * (n * u) + u
  tie : 2 * (n * u) = 2 * v + u ∨ 2 * v = 2 * (n * u) + u → n % 2 = 0

/-- A multiple is nearest to itself. -/
theorem nearestEven_self {n u : Nat} (hu : 0 < u) : NearestEven n u (n * u) :=
  ⟨by omega, by omega, by omega⟩

theorem nearestEven_rneShift (v sh : Nat) : NearestEven (rneShift v sh) (2 ^ sh) v := by
  have hlt := Nat.mod_lt v (Nat.two_pow_pos sh)
  have hdiv := Nat.div_add_mod' v (2 ^ sh)
  simp only [rneShift]
  split
  · constructor <;> rw [Nat.add_mul, Nat.one_mul] <;> omega
  · constructor <;> omega

/-- Scaling keeps what is nearest. -/
theorem NearestEven.mul {n u v : Nat} (h : NearestEven n u v) {c : Nat} (hc : 0 < c) :
    NearestEven n (u * c) (v * c) := by
  obtain ⟨habove, hbelow, htie⟩ := h
  have e1 : 2 * (n * (u * c)) = 2 * (n * u) * c := by ring
  have e2 : 2 * (v * c) + u * c = (2 * v + u) * c := by ring
  have e3 : 2 * (v * c) = 2 * v * c := by ring
  have e4 : 2 * (n * u) * c + u * c = (2 * (n * u) + u) * c := by ring
  constructor
  · rw [e1, e2]
    exact Nat.mul_le_mul_right c habove
  · rw [e1, e3, e4]
    exact Nat.mul_le_mul_right c hbelow
  · rw [e1, e2, e3, e4]
    exact fun heq => htie (heq.imp (Nat.eq_of_mul_eq_mul_right hc) (Nat.eq_of_mul_eq_mul_right hc))

/-- The unit of the last place at exponent step `e`, in units of 2^-298. -/
def lastPlace (e : Nat) : Nat := 2 ^ (149 + e)

theorem nearestEven_roundSignificand (m sh e : Nat) : NearestEven (roundSignificand m sh e) (lastPlace e) (m * 2 ^ sh) := by
  unfold roundSignificand lastPlace
  split
  · next h =>
    have hexact : m * 2 ^ sh = m * 2 ^ (sh - (149 + e)) * 2 ^ (149 + e) := by
      rw [Nat.mul_assoc, ← Nat.pow_add, Nat.sub_add_cancel h]
    rw [hexact]
    exact nearestEven_self (Nat.two_pow_pos _)
  · next h =>
    have hunit : 2 ^ (149 + e) = 2 ^ (149 + e - sh) * 2 ^ sh := by
      rw [← Nat.pow_add, Nat.sub_add_cancel (by omega)]
    rw [hunit]
    exact (nearestEven_rneShift m _).mul (Nat.two_pow_pos sh)

/-! ## The rounded magnitude -/

/-- The exponent step keeps 24 significant bits, or is 0 for a subnormal magnitude. -/
theorem roundScale_spec {m : Nat} (hm : m ≠ 0) (sh : Nat) :
    m * 2 ^ sh < 2 ^ 24 * lastPlace (roundScale m sh) ∧
      (roundScale m sh = 0 ∨ 2 ^ 23 * lastPlace (roundScale m sh) ≤ m * 2 ^ sh) := by
  unfold lastPlace
  rw [← Nat.pow_add, ← Nat.pow_add]
  constructor
  · calc m * 2 ^ sh < 2 ^ (m.log2 + 1) * 2 ^ sh := Nat.mul_lt_mul_of_pos_right Nat.lt_log2_self (Nat.two_pow_pos sh)
      _ = 2 ^ (m.log2 + 1 + sh) := (Nat.pow_add ..).symm
      _ ≤ 2 ^ (24 + (149 + roundScale m sh)) := Nat.pow_le_pow_right Nat.two_pos (by unfold roundScale; omega)
  · refine or_iff_not_imp_left.mpr fun hnorm => ?_
    calc 2 ^ (23 + (149 + roundScale m sh)) = 2 ^ (m.log2 + sh) := by
          rw [show 23 + (149 + roundScale m sh) = m.log2 + sh by unfold roundScale at hnorm ⊢; omega]
      _ = 2 ^ m.log2 * 2 ^ sh := Nat.pow_add ..
      _ ≤ m * 2 ^ sh := Nat.mul_le_mul_right _ (Nat.log2_self_le hm)

/-- The magnitude bits of `m * 2^sh`, rounded once, before an overflow goes to infinity. -/
def roundBits (m sh : Nat) : Nat :=
  if m = 0 then 0 else roundScale m sh * 2 ^ 23 + roundSignificand m sh (roundScale m sh)

theorem roundMagnitude_eq_min (m sh : Nat) : roundMagnitude m sh = min (roundBits m sh) 0x7F800000 := by
  unfold roundMagnitude roundBits
  split <;> rfl


/-- The rounded magnitude bits hold the nearest significand at the magnitude's exponent step. -/
theorem roundBits_packed {m : Nat} (hm : m ≠ 0) (sh : Nat) :
    ∃ e sig, roundBits m sh = e * 2 ^ 23 + sig ∧ sig ≤ 2 ^ 24 ∧ (e = 0 ∨ 2 ^ 23 ≤ sig) ∧
      NearestEven sig (lastPlace e) (m * 2 ^ sh) ∧ (e = 0 ∨ 2 ^ 23 * lastPlace e ≤ m * 2 ^ sh) := by
  obtain ⟨hlt, hge⟩ := roundScale_spec hm sh
  have hnear := nearestEven_roundSignificand m sh (roundScale m sh)
  refine ⟨_, _, if_neg hm, ?_, hge.imp_right fun h => ?_, hnear, hge⟩
  · have habove := hnear.above
    by_contra h
    have hmul := Nat.mul_le_mul_right (lastPlace (roundScale m sh)) (Nat.succ_le_of_lt (Nat.lt_of_not_le h))
    rw [Nat.succ_mul] at hmul
    omega
  · have hbelow := hnear.below
    have hpos : 0 < lastPlace (roundScale m sh) := Nat.two_pow_pos _
    by_contra hlow
    have hmul := Nat.mul_le_mul_right (lastPlace (roundScale m sh)) (Nat.succ_le_of_lt (Nat.lt_of_not_le hlow))
    rw [Nat.succ_mul] at hmul
    omega

/-- No other number of units is nearer, and one as near means an even number. -/
theorem NearestEven.dist_le {n u v : Nat} (h : NearestEven n u v) (n' : Nat) :
    Nat.dist (n * u) v ≤ Nat.dist (n' * u) v ∧ (n' ≠ n → Nat.dist (n * u) v = Nat.dist (n' * u) v → n % 2 = 0) := by
  obtain ⟨habove, hbelow, htie⟩ := h
  unfold Nat.dist
  rcases Nat.lt_trichotomy n' n with hlt | rfl | hlt
  · have hmul := Nat.mul_le_mul_right u (Nat.succ_le_of_lt hlt)
    rw [Nat.succ_mul] at hmul
    exact ⟨by omega, fun _ _ => htie (by omega)⟩
  · exact ⟨Nat.le_refl _, fun hne => absurd rfl hne⟩
  · have hmul := Nat.mul_le_mul_right u (Nat.succ_le_of_lt hlt)
    rw [Nat.succ_mul] at hmul
    exact ⟨by omega, fun _ _ => htie (by omega)⟩

/-- The value of magnitude bits in units of 2^-298, the unit of the exact product. -/
def magValue (p : Nat) : Nat := magUnits p * 2 ^ 149

theorem magValue_strictMono : StrictMono magValue := fun _ _ h =>
  Nat.mul_lt_mul_of_pos_right (magUnits_strictMono h) (Nat.two_pow_pos 149)

@[simp] theorem magValue_zero : magValue 0 = 0 := rfl

theorem magValue_packed {e sig : Nat} (hsig : sig ≤ 2 ^ 24) (hnorm : e = 0 ∨ 2 ^ 23 ≤ sig) :
    magValue (e * 2 ^ 23 + sig) = sig * lastPlace e := by
  rw [magValue, magUnits_packed hsig hnorm, lastPlace, Nat.mul_assoc, ← Nat.pow_add, Nat.add_comm e]

/-- At a smaller exponent step a value lies below every normal significand of the larger step. -/
theorem magValue_lt_of_lt {e e' sig : Nat} (hsig : sig < 2 ^ 24) (h : e' < e) :
    sig * lastPlace e' < 2 ^ 23 * lastPlace e := by
  calc sig * lastPlace e' < 2 ^ 24 * lastPlace e' := Nat.mul_lt_mul_of_pos_right hsig (Nat.two_pow_pos _)
    _ = 2 ^ 23 * lastPlace (e' + 1) := by unfold lastPlace; ring
    _ ≤ 2 ^ 23 * lastPlace e := Nat.mul_le_mul_left _ (Nat.pow_le_pow_right Nat.two_pos (by omega))

/-- Magnitude bits `r` are the exact magnitude `v` rounded: none have a nearer value, and `r` is even where others have a
value as near (41_render_convert.md R135). -/
structure RoundsTo (r v : Nat) : Prop where
  nearest (p : Nat) : Nat.dist (magValue r) v ≤ Nat.dist (magValue p) v
  even (p : Nat) (hne : magValue p ≠ magValue r) (heq : Nat.dist (magValue r) v = Nat.dist (magValue p) v) : r % 2 = 0

/-- Against other magnitude bits: those of a smaller exponent step lie below every candidate, the others are multiples of
the unit of the last place. -/
theorem roundBits_nearest (m sh p : Nat) :
    Nat.dist (magValue (roundBits m sh)) (m * 2 ^ sh) ≤ Nat.dist (magValue p) (m * 2 ^ sh) ∧
      (magValue p ≠ magValue (roundBits m sh) →
        Nat.dist (magValue (roundBits m sh)) (m * 2 ^ sh) = Nat.dist (magValue p) (m * 2 ^ sh) → roundBits m sh % 2 = 0) := by
  rcases eq_or_ne m 0 with rfl | hm
  · simp [roundBits]
  obtain ⟨e, sig, hbits, hsig, hnorm, hnear, hbig⟩ := roundBits_packed hm sh
  obtain ⟨e', sig', rfl, hsig', hnorm'⟩ := exists_packed p
  rw [hbits, magValue_packed hsig hnorm, magValue_packed hsig'.le hnorm']
  rcases Nat.lt_or_ge e' e with hlt | hge
  · have hfar := magValue_lt_of_lt hsig' hlt
    have hle := (hnear.dist_le (2 ^ 23)).1
    have hbig := hbig.resolve_left (by omega)
    unfold Nat.dist at hle ⊢
    omega
  · have hmul : sig' * lastPlace e' = sig' * 2 ^ (e' - e) * lastPlace e := by
      rw [lastPlace, lastPlace, Nat.mul_assoc, ← Nat.pow_add]
      congr 2
      omega
    rw [hmul]
    obtain ⟨hle, htie⟩ := hnear.dist_le (sig' * 2 ^ (e' - e))
    refine ⟨hle, fun hne heq => ?_⟩
    have heven := htie (fun h => hne (h ▸ rfl)) heq
    omega

theorem roundBits_roundsTo (m sh : Nat) : RoundsTo (roundBits m sh) (m * 2 ^ sh) :=
  ⟨fun p => (roundBits_nearest m sh p).1, fun p => (roundBits_nearest m sh p).2⟩

end Sys2Proof.Machine
end

section
/-! SUPPORT. Conversions of finite patterns (41_render_convert.md R130 to R135): what a finite pattern bounds does not overflow,
what a pattern holds exactly is not rounded, so a sample over 32768 is exact and a product is rounded once. -/

namespace Sys2Proof.Machine

/-! ## Rounding without overflow -/

/-- A magnitude at most a finite pattern's rounds to no more than that pattern, and so does not overflow. -/
theorem roundMagnitude_of_le {m sh q : Nat} (hq : q < 0x7F800000) (hle : m * 2 ^ sh ≤ magValue q) :
    roundMagnitude m sh = roundBits m sh ∧ roundBits m sh ≤ q := by
  have hbits : roundBits m sh ≤ q := by
    have hnear := (roundBits_roundsTo m sh).nearest q
    refine magValue_strictMono.le_iff_le.mp ?_
    unfold Nat.dist at hnear
    omega
  exact ⟨by rw [roundMagnitude_eq_min]; omega, hbits⟩

/-- The magnitude of a finite pattern rounds to that pattern. -/
theorem roundMagnitude_of_eq {m sh q : Nat} (hq : q < 0x7F800000) (h : m * 2 ^ sh = magValue q) :
    roundMagnitude m sh = q := by
  have hnear := (roundBits_roundsTo m sh).nearest q
  rw [(roundMagnitude_of_le hq h.le).1]
  refine magValue_strictMono.injective ?_
  unfold Nat.dist at hnear
  omega

/-! ## The sample as a pattern -/

/-- The value of the pattern of 1.0. -/
theorem magUnits_one : magUnits 0x3F800000 = 2 ^ 149 := by decide

/-- A sample's magnitude has at most 16 significant bits, so it is that of a pattern, and at most 1.0
(41_render_convert.md R131). -/
theorem exists_sampleBits {m : Nat} (hm : m ≤ 2 ^ 15) : ∃ q ≤ 0x3F800000, magUnits q = m * 2 ^ 134 := by
  rcases eq_or_ne m 0 with rfl | hne
  · exact ⟨0, by decide, by simp⟩
  have hlog : m.log2 ≤ 15 := Nat.le_of_lt_succ ((Nat.log2_lt hne).mpr (by omega))
  have hlow : 2 ^ 23 ≤ m * 2 ^ (23 - m.log2) := by
    calc 2 ^ 23 = 2 ^ m.log2 * 2 ^ (23 - m.log2) := by rw [← Nat.pow_add, Nat.add_sub_cancel' (by omega)]
      _ ≤ _ := Nat.mul_le_mul_right _ (Nat.log2_self_le hne)
  have hhigh : m * 2 ^ (23 - m.log2) ≤ 2 ^ 24 := by
    calc m * 2 ^ (23 - m.log2) ≤ 2 ^ (m.log2 + 1) * 2 ^ (23 - m.log2) := Nat.mul_le_mul_right _ Nat.lt_log2_self.le
      _ = 2 ^ 24 := by rw [← Nat.pow_add]; congr 1; omega
  have hvalue : magUnits ((111 + m.log2) * 2 ^ 23 + m * 2 ^ (23 - m.log2)) = m * 2 ^ 134 := by
    rw [magUnits_packed hhigh (.inr hlow), Nat.mul_assoc, ← Nat.pow_add]
    congr 2
    omega
  refine ⟨_, magUnits_strictMono.le_iff_le.mp ?_, hvalue⟩
  rw [hvalue, magUnits_one]
  omega

theorem f32Sign_bits32Over32768 (v : Int) : f32Sign (bits32Over32768 v) = decide (v < 0) := f32Sign_packF32 _ _

/-- v / 32768 needs no rounding (41_render_convert.md R131). -/
theorem f32Mag_bits32Over32768 {v : Int} (hv : v.natAbs ≤ 2 ^ 15) :
    f32Mag (bits32Over32768 v) ≤ 0x3F800000 ∧ magUnits (f32Mag (bits32Over32768 v)) = v.natAbs * 2 ^ 134 := by
  obtain ⟨q, hq, hvalue⟩ := exists_sampleBits hv
  have hexact : v.natAbs * 2 ^ 283 = magValue q := by rw [magValue, hvalue, Nat.mul_assoc, ← Nat.pow_add]
  have hmag : f32Mag (bits32Over32768 v) = q := by
    rw [bits32Over32768, roundMagnitude_of_eq (by omega) hexact, f32Mag_packF32 _ (by omega)]
  rw [hmag]
  exact ⟨hq, hvalue⟩

theorem natAbs_toInt_le (smp : BitVec 16) : smp.toInt.natAbs ≤ 2 ^ 15 := by
  have hlow := BitVec.le_toInt smp
  have hhigh := BitVec.toInt_lt (x := smp)
  omega

/-! ## Products -/

theorem f32Mul_of_nan {a b : Word} (h : f32MulIsNaN a b = true) (draw : BitVec 23) : f32Mul a b draw = quietNaN draw :=
  if_pos h

/-- A product of finite patterns is their exact product, rounded once (41_render_convert.md R135). -/
theorem f32Mul_of_finite {a b : Word} (ha : f32Finite a) (hb : f32Finite b) (draw : BitVec 23) :
    f32Mul a b draw = packF32 (f32Sign a ^^ f32Sign b)
      (roundMagnitude (f32Mant a * f32Mant b) (f32Scale a + f32Scale b)) := by
  have hexp (w : Word) (hw : f32Finite w) : f32Exp w ≠ 255 := Nat.ne_of_lt hw
  simp [f32Mul, f32MulIsNaN, f32IsNaN, f32IsInf, hexp a ha, hexp b hb]

/-- The magnitude of the exact product, in units of 2^-298. -/
def exactProduct (a b : Word) : Nat := magUnits (f32Mag a) * magUnits (f32Mag b)

theorem f32Mant_mul_mul_pow (a b : Word) :
    f32Mant a * f32Mant b * 2 ^ (f32Scale a + f32Scale b) = exactProduct a b := by
  rw [exactProduct, ← f32Mant_mul_f32Scale a, ← f32Mant_mul_f32Scale b, Nat.pow_add]
  ring

theorem f32Sign_f32Mul {a b : Word} (ha : f32Finite a) (hb : f32Finite b) (draw : BitVec 23) :
    f32Sign (f32Mul a b draw) = (f32Sign a ^^ f32Sign b) := by
  rw [f32Mul_of_finite ha hb, f32Sign_packF32]

/-- A product with a first factor of at most 1 in magnitude does not overflow: it is not above the second factor, and is the
exact product rounded. -/
theorem f32Mag_f32Mul {a b : Word} (ha : f32Mag a ≤ 0x3F800000) (hb : f32Finite b) (draw : BitVec 23) :
    f32Mag (f32Mul a b draw) ≤ f32Mag b ∧ RoundsTo (f32Mag (f32Mul a b draw)) (exactProduct a b) := by
  have hb' := f32Finite_iff.mp hb
  have hone : magUnits (f32Mag a) ≤ 2 ^ 149 := magUnits_one ▸ magUnits_strictMono.monotone ha
  have hle : f32Mant a * f32Mant b * 2 ^ (f32Scale a + f32Scale b) ≤ magValue (f32Mag b) := by
    rw [f32Mant_mul_mul_pow, magValue, Nat.mul_comm]
    exact Nat.mul_le_mul_right _ hone
  obtain ⟨hround, hbits⟩ := roundMagnitude_of_le hb' hle
  rw [f32Mul_of_finite (f32Finite_iff.mpr (by omega)) hb, hround, f32Mag_packF32 _ (by omega), ← f32Mant_mul_mul_pow]
  exact ⟨hbits, roundBits_roundsTo ..⟩

/-- 1.0 is neutral. -/
theorem f32Mul_one {a : Word} (ha : f32Finite a) (draw : BitVec 23) : f32Mul a 0x3F800000#32 draw = a := by
  have hvalue : f32Mant a * f32Mant 0x3F800000#32 * 2 ^ (f32Scale a + f32Scale 0x3F800000#32) = magValue (f32Mag a) := by
    rw [f32Mant_mul_mul_pow, exactProduct, magValue, ← magUnits_one]
    rfl
  rw [f32Mul_of_finite ha (f32Finite_iff.mpr (by decide)), roundMagnitude_of_eq (f32Finite_iff.mp ha) hvalue]
  exact (congrArg (packF32 · (f32Mag a)) (Bool.xor_false _)).trans (packF32_f32Mag a)

end Sys2Proof.Machine
end

section
/-! SUPPORT. The converter rounds to nearest even (O51): the exact values of patterns as rationals, and the distance of a
pattern from a signed magnitude as a natural, so that the rounding of magnitudes carries over. -/

namespace Sys2Proof.Machine

/-! ## Exact values -/

/-- The factor a sign stands for. -/
def signUnit (neg : Bool) : ℚ := if neg then -1 else 1

theorem abs_signUnit (neg : Bool) : |signUnit neg| = 1 := by cases neg <;> simp [signUnit]

theorem signUnit_xor (a b : Bool) : signUnit (a ^^ b) = signUnit a * signUnit b := by
  cases a <;> cases b <;> simp [signUnit]

theorem f32Value_eq (w : Word) : f32Value w = signUnit (f32Sign w) * magUnits (f32Mag w) / 2 ^ 149 := by
  rw [← f32Mant_mul_f32Scale]
  push_cast
  rw [← mul_assoc]
  rfl

theorem abs_f32Value (w : Word) : |f32Value w| = magUnits (f32Mag w) / 2 ^ 149 := by
  rw [f32Value_eq, abs_div, abs_mul, abs_signUnit, one_mul, Nat.abs_cast, abs_of_pos (by positivity)]

/-- A sample's pattern has the value of the sample over 32768. -/
theorem f32Value_bits32Over32768 {v : Int} (hv : v.natAbs ≤ 2 ^ 15) : f32Value (bits32Over32768 v) = (v : ℚ) / 32768 := by
  have habs : signUnit (decide (v < 0)) * (v.natAbs : ℚ) = v := by
    rw [Nat.cast_natAbs]
    rcases lt_or_ge v 0 with h | h
    · simp [signUnit, h, abs_of_neg]
    · simp [signUnit, abs_of_nonneg h, Int.not_lt.mpr h]
  rw [f32Value_eq, f32Sign_bits32Over32768, (f32Mag_bits32Over32768 hv).2]
  push_cast
  rw [← mul_assoc, habs]
  norm_num
  ring

theorem f32Value_mul (a b : Word) :
    f32Value a * f32Value b = signUnit (f32Sign a ^^ f32Sign b) * exactProduct a b / (2 ^ 149 * 2 ^ 149) := by
  rw [f32Value_eq, f32Value_eq, signUnit_xor, exactProduct]
  push_cast
  ring

/-- How far a pattern lies from a signed magnitude, in units of 2^-298: across zero the two magnitudes add up. -/
def signedDist (w : Word) (neg : Bool) (v : Nat) : Nat :=
  if f32Sign w = neg then Nat.dist (magValue (f32Mag w)) v else magValue (f32Mag w) + v

theorem cast_dist (a b : Nat) : (Nat.dist a b : ℚ) = |(a : ℚ) - (b : ℚ)| := by
  rcases Nat.le_total a b with h | h
  · rw [Nat.dist_eq_sub_of_le h, Nat.cast_sub h, abs_sub_comm, abs_of_nonneg (sub_nonneg.mpr (Nat.cast_le.mpr h))]
  · rw [Nat.dist_eq_sub_of_le_right h, Nat.cast_sub h, abs_of_nonneg (sub_nonneg.mpr (Nat.cast_le.mpr h))]

/-- `signedDist` is the distance of the exact values. -/
theorem abs_f32Value_sub (w : Word) (neg : Bool) (v : Nat) :
    |f32Value w - signUnit neg * v / (2 ^ 149 * 2 ^ 149)| = (signedDist w neg v : ℚ) / (2 ^ 149 * 2 ^ 149) := by
  have hvalue : f32Value w = signUnit (f32Sign w) * magValue (f32Mag w) / (2 ^ 149 * 2 ^ 149) := by
    rw [f32Value_eq, magValue]
    push_cast
    ring
  rw [hvalue, ← sub_div, abs_div, abs_of_pos (by positivity : (0 : ℚ) < 2 ^ 149 * 2 ^ 149), signedDist]
  congr 1
  split
  · next h => rw [h, ← mul_sub, abs_mul, abs_signUnit, one_mul, cast_dist]
  · next h =>
    have hneg : signUnit (f32Sign w) = -signUnit neg := by
      cases hs : f32Sign w <;> cases neg <;> simp_all [signUnit]
    have hsum : signUnit (f32Sign w) * magValue (f32Mag w) - signUnit neg * v
        = signUnit neg * -((magValue (f32Mag w) + v : Nat) : ℚ) := by
      rw [hneg]
      push_cast
      ring
    rw [hsum, abs_mul, abs_signUnit, one_mul, abs_neg, Nat.abs_cast]

/-! ## Rounding with the sign -/

/-- A pattern of the exact sign whose magnitude is rounded is nearest among all patterns, and even at a tie: across zero no
pattern is nearer than zero itself. -/
theorem RoundsTo.signedDist_le {w : Word} {v : Nat} (h : RoundsTo (f32Mag w) v) (y : Word) :
    signedDist w (f32Sign w) v ≤ signedDist y (f32Sign w) v ∧
      (f32Value y ≠ f32Value w → signedDist w (f32Sign w) v = signedDist y (f32Sign w) v → f32Mag w % 2 = 0) := by
  have hzero := h.nearest 0
  rw [magValue_zero, Nat.dist_zero_left] at hzero
  unfold signedDist
  rw [if_pos rfl]
  split
  · next hsign =>
    refine ⟨h.nearest _, fun hne heq => h.even _ (fun hval => hne ?_) heq⟩
    rw [f32Value_eq, f32Value_eq, hsign, magValue_strictMono.injective hval]
  · next hsign =>
    refine ⟨by omega, fun hne heq => h.even 0 (fun hval => hne ?_) ?_⟩
    · have hy : magValue (f32Mag y) = magValue 0 := by rw [magValue_zero] at hval ⊢; unfold Nat.dist at heq; omega
      rw [f32Value_eq, f32Value_eq, magValue_strictMono.injective hy, ← magValue_strictMono.injective hval, magUnits_zero]
      simp
    · rw [magValue_zero, Nat.dist_zero_left]
      omega

theorem f32Finite_bits32Over32768 {v : Int} (hv : v.natAbs ≤ 2 ^ 15) : f32Finite (bits32Over32768 v) :=
  f32Finite_iff.mpr ((f32Mag_bits32Over32768 hv).1.trans_lt (by decide))

/-- Settles O51: the first factor of `conv` is the sample over 32768, exactly and at most 1 in magnitude, so the product with
a finite volume is the exact product, rounded without overflow. -/
theorem convRoundsToNearestEven : Obligations.ConvRoundsToNearestEven := by
  intro smp vol d x hvol hx
  have hsmp := natAbs_toInt_le smp
  have hfin := f32Finite_bits32Over32768 hsmp
  have hsign := f32Sign_f32Mul hfin hvol d
  obtain ⟨hle, hround⟩ := f32Mag_f32Mul (f32Mag_bits32Over32768 hsmp).1 hvol d
  change f32Sign (conv smp vol d) = _ at hsign
  change f32Mag (conv smp vol d) ≤ _ at hle
  change RoundsTo (f32Mag (conv smp vol d)) _ at hround
  have hexact : x = signUnit (f32Sign (conv smp vol d)) * exactProduct (bits32Over32768 smp.toInt) vol / (2 ^ 149 * 2 ^ 149) := by
    rw [hx, hsign, ← f32Value_mul, f32Value_bits32Over32768 hsmp]
  have hpos : (0 : ℚ) < 2 ^ 149 * 2 ^ 149 := by positivity
  subst hexact
  simp only [abs_f32Value_sub]
  refine ⟨f32Finite_iff.mpr (hle.trans_lt (f32Finite_iff.mp hvol)), ?_, ?_, fun y _ => ?_, fun y _ hne heq => ?_⟩
  · rw [hsign, f32Sign_bits32Over32768]
  · rw [abs_f32Value, abs_f32Value]
    have := magUnits_strictMono.monotone hle
    gcongr
  · have := (hround.signedDist_le y).1
    gcongr
  · have heven := (hround.signedDist_le y).2 hne (Nat.cast_injective ((div_left_inj' hpos.ne').mp heq))
    rw [f32Frac_eq]
    omega

end Sys2Proof.Machine
end

section
/-! SUPPORT. The special cases of the converter (41_render_convert.md R131, R136): volume 1.0 leaves the exact sample (O49), the
products that are NaN (O50), an infinite volume (O52). -/

namespace Sys2Proof.Machine

/-! ## Exact samples -/

theorem conv_one (smp : BitVec 16) (d : BitVec 23) : conv smp 0x3F800000#32 d = bits32Over32768 smp.toInt :=
  f32Mul_one (f32Finite_bits32Over32768 (natAbs_toInt_le smp)) d

/-- Settles O49: the exact value of a sample's pattern, and volume 1.0 as the neutral factor. -/
theorem sampleScalingExact : Obligations.SampleScalingExact := by
  refine ⟨fun v hlow hhigh => ?_, by decide, by decide, by decide, by decide, by decide, by decide, conv_one⟩
  have hv : v.natAbs ≤ 2 ^ 15 := by omega
  have hvalue := f32Value_bits32Over32768 hv
  have hlow' : (-32768 : ℚ) ≤ v := by exact_mod_cast hlow
  have hhigh' : (v : ℚ) ≤ 32767 := by exact_mod_cast hhigh
  refine ⟨f32Finite_bits32Over32768 hv, hvalue, ?_, ?_⟩ <;> rw [hvalue] <;> linarith

/-! ## Products that are NaN -/

/-- Neither an infinity nor a rounded magnitude is a NaN. -/
theorem f32IsNaN_packF32 {sign : Bool} {mag : Nat} (h : mag ≤ 0x7F800000) : f32IsNaN (packF32 sign mag) = false := by
  rw [← Bool.not_eq_true, f32IsNaN_iff, f32Mag_packF32 _ (by omega)]
  omega

/-- The sign of a draw above nine ones above its payload (41_render_convert.md R136). -/
theorem toNat_quietNaN (d : BitVec 23) :
    (quietNaN d).toNat = d.toNat / 2 ^ 22 * 2 ^ 31 + (0x1FF * 2 ^ 22 + d.toNat % 2 ^ 22) := by
  have hlow : ((0x1FF#9 ++ d.extractLsb' 0 22 : BitVec 31)).toNat = 0x1FF * 2 ^ 22 + d.toNat % 2 ^ 22 := by
    rw [BitVec.toNat_append, BitVec.extractLsb'_toNat, Nat.shiftRight_zero,
      ← Nat.shiftLeft_add_eq_or_of_lt (Nat.mod_lt _ (by decide)), Nat.shiftLeft_eq, BitVec.toNat_ofNat]
  have hd := d.isLt
  rw [quietNaN, BitVec.toNat_append, hlow, BitVec.extractLsb'_toNat, Nat.shiftRight_eq_div_pow,
    ← Nat.shiftLeft_add_eq_or_of_lt (by omega), Nat.shiftLeft_eq, Nat.mod_eq_of_lt (by omega)]

theorem extractLsb'_quietNaN (d : BitVec 23) : (quietNaN d).extractLsb' 22 9 = 0x1FF#9 := by
  apply BitVec.eq_of_toNat_eq
  rw [BitVec.extractLsb'_toNat, toNat_quietNaN, Nat.shiftRight_eq_div_pow, BitVec.toNat_ofNat]
  omega

/-- A pattern with bits [30:22] all 1 is the quiet NaN of its sign and payload. -/
theorem exists_quietNaN {w : Word} (h : w.extractLsb' 22 9 = 0x1FF#9) : ∃ d, quietNaN d = w := by
  have hbits := congrArg BitVec.toNat h
  rw [BitVec.extractLsb'_toNat, Nat.shiftRight_eq_div_pow, BitVec.toNat_ofNat] at hbits
  have hw := w.isLt
  refine ⟨BitVec.ofNat 23 (w.toNat / 2 ^ 31 * 2 ^ 22 + w.toNat % 2 ^ 22), BitVec.eq_of_toNat_eq ?_⟩
  rw [toNat_quietNaN, BitVec.toNat_ofNat]
  omega

theorem f32IsNaN_quietNaN (d : BitVec 23) : f32IsNaN (quietNaN d) = true := by
  rw [f32IsNaN_iff, f32Mag, toNat_quietNaN]
  omega

/-- A product is NaN exactly as 41_render_convert.md R136 says. -/
theorem f32IsNaN_f32Mul (a b : Word) (d : BitVec 23) : f32IsNaN (f32Mul a b d) = f32MulIsNaN a b := by
  unfold f32Mul
  split
  · next h => rw [h, f32IsNaN_quietNaN]
  · next h =>
    rw [Bool.eq_false_iff.mpr h]
    split
    · exact f32IsNaN_packF32 (Nat.le_refl _)
    · exact f32IsNaN_packF32 (roundMagnitude_eq_min .. ▸ Nat.min_le_right ..)

theorem f32MulIsNaN_iff {a b : Word} : f32MulIsNaN a b = true ↔
    f32IsNaN a = true ∨ f32IsNaN b = true ∨ (f32IsZero a = true ∧ f32IsInf b = true) ∨
      (f32IsInf a = true ∧ f32IsZero b = true) := by
  simp [f32MulIsNaN, or_assoc]

/-- What the first factor of `conv` can be: never NaN or infinite, and zero for sample 0 alone. -/
theorem sample_class (smp : BitVec 16) :
    f32IsNaN (bits32Over32768 smp.toInt) = false ∧ f32IsInf (bits32Over32768 smp.toInt) = false ∧
      (f32IsZero (bits32Over32768 smp.toInt) = true ↔ smp = 0#16) := by
  obtain ⟨hmag, hunits⟩ := f32Mag_bits32Over32768 (natAbs_toInt_le smp)
  refine ⟨?_, ?_, ?_⟩
  · rw [← Bool.not_eq_true, f32IsNaN_iff]
    omega
  · rw [← Bool.not_eq_true, f32IsInf_iff]
    omega
  · have hzero : f32Mag (bits32Over32768 smp.toInt) = 0 ↔ smp.toInt = 0 := by
      rw [← magUnits_strictMono.injective.eq_iff, hunits, magUnits_zero]
      omega
    rw [f32IsZero_iff, hzero, ← BitVec.toInt_inj, BitVec.toInt_zero]

/-- In `conv` a NaN comes of a NaN volume, or of sample 0 at an infinite one. -/
theorem conv_isNaN_iff {smp : BitVec 16} {vol : Word} :
    f32MulIsNaN (bits32Over32768 smp.toInt) vol = true ↔
      f32IsNaN vol = true ∨ (smp = 0#16 ∧ f32IsInf vol = true) := by
  obtain ⟨hnan, hinf, hzero⟩ := sample_class smp
  simp [f32MulIsNaN_iff, hnan, hinf, hzero]

/-- Settles O50: no other result of a product is a NaN, and a draw is the sign and payload of its quiet NaN. -/
theorem productNaNIsAnyQuietNaN : Obligations.ProductNaNIsAnyQuietNaN := by
  refine ⟨fun smp vol d => ?_, fun a b => ⟨fun d => ?_, fun h => ?_⟩⟩
  · rw [conv, f32IsNaN_f32Mul, conv_isNaN_iff]
  · rw [f32IsNaN_f32Mul, f32MulIsNaN_iff]
  · have hnan := f32MulIsNaN_iff.mpr h
    refine ⟨fun d => ?_, fun w hw => ?_⟩
    · rw [f32Mul_of_nan hnan, extractLsb'_quietNaN]
    · obtain ⟨d, hd⟩ := exists_quietNaN hw
      exact ⟨d, (f32Mul_of_nan hnan d).trans hd⟩

/-- Settles O52: the first factor of `conv` is neither NaN, infinite nor, for a nonzero sample, zero. -/
theorem convInfiniteVolume : Obligations.ConvInfiniteVolume := by
  intro smp vol d hinf hsmp
  have hfinite : f32MulIsNaN (bits32Over32768 smp.toInt) vol = false := by
    have hvol : ¬ f32IsNaN vol = true := by
      rw [f32IsNaN_iff, f32IsInf_iff.mp hinf]
      omega
    rw [← Bool.not_eq_true, conv_isNaN_iff]
    simp [hvol, hsmp]
  have hpack : conv smp vol d = packF32 (decide (smp.toInt < 0) ^^ f32Sign vol) 0x7F800000 := by
    rw [conv, f32Mul, if_neg (by simp [hfinite]), if_pos (by simp [hinf]), f32Sign_bits32Over32768]
  rw [hpack]
  cases decide (smp.toInt < 0) ^^ f32Sign vol <;> rfl

end Sys2Proof.Machine
end

section
/-! SUPPORT. H.CONVERT (41_render_convert.md R147): its rule (O19). -/

namespace Sys2Proof.Machine

/-- H.CONVERT is legal but in FATAL (60_exceptions.md R193). -/
theorem legal_hConvert_iff {smp : BitVec 16} {s : State} :
    legal (.hConvert smp) s = true ↔ s.status.lstate ∈ [LState.uninit, .ready, .active, .closed] := by
  cases hl : s.status.lstate <;> simp [legal, hl]

/-- Settles O19: with the checks passed the response is `conv` with the draw of the model's counter. -/
theorem hConvertRule : Obligations.HConvertRule := by
  refine ⟨fun smp => ?_, fun smp => commonChecks_of_legal_iff fun _ => legal_hConvert_iff, fun s smp hin hl => ?_,
    fun d => (conv_one _ d).trans (by decide), fun d => rfl, fun smp vol d h => f32Mul_of_nan (conv_isNaN_iff.mpr (.inl h)) d⟩
  · have hext : (0#10 ++ smp).setWidth 32 = smp.setWidth 32 := by
      apply BitVec.eq_of_toNat_eq
      rw [BitVec.toNat_setWidth, BitVec.toNat_append]
      simp
    exact hext ▸ encode_eq_or .host 9#4 rfl rfl rfl
  · have hpass : Passes (.hConvert smp) s :=
      ⟨congrArg List.length hin, bne_iff_ne.mpr hl⟩
    refine ⟨_, Config.nanDraw s.nanDraws, hpass.exec_eq, ?_⟩
    simp [effectOf, effectHConvert, State.respond, State.countConversions, hin, convertOperand]

end Sys2Proof.Machine
end

section
/-! SUPPORT. The steps of C.RENDER (41_render_convert.md R139 to R141): what each does to the output, the read cursor and the
sequencer (O28, O31, O32), and how many frames it emits (O45) within how many steps (O46). -/

namespace Sys2Proof.Machine

/-! ## The start step -/

theorem effectCRender_of_empty {n : BitVec 26} {s : State} (h : s.availC = 0) :
    effectCRender n s = (s.emit (silentFrames n.toNat)).respond .consumer .ok [0#32] :=
  if_pos h

/-- The sequencer that the start step of `C.RENDER n` sets (41_render_convert.md R139). -/
def startedRender (n : Nat) (vol : Word) : RenderSeq :=
  { phase := .chunk, n := n, left := n, o := 0, k := 0, vol := vol }

theorem effectCRender_of_readable {n : BitVec 26} {s : State} (h : s.availC ≠ 0) :
    effectCRender n s = (s.deliver .consumer []).setRender (some (startedRender n.toNat s.volume)) :=
  if_neg h

/-- Settles O28: with nothing readable in view the start step answers at once, else it leaves the sequencer. -/
theorem cRenderStartRule : Obligations.CRenderStartRule := by
  refine ⟨fun _ => encode_eq_or .consumer 5#4 rfl rfl rfl, fun _ => commonChecks_consumer rfl, fun s n hc hl => ?_⟩
  rw [(passes_consumer (i := .cRender n) rfl hc hl).exec_eq]
  refine congrArg Host.Outcome.next ?_
  change effectCRender n s = _
  split
  · next h => exact (effectCRender_of_empty h).trans (State.respond_consumer_of_nil (s := s.emit _) hc _ _)
  · next h =>
    rw [effectCRender_of_readable h, ← hc]
    rfl

/-! ## The later steps -/

/-- The step of agent C while a render runs. -/
theorem step_render {s : State} {q : RenderSeq} {rest : List Choice} (hsched : s.sched = .agentC :: rest)
    (hq : s.cSeq = some q) : step s = .next (renderStep q (s.setSched rest)) := by
  rw [step_of_sched_cons hsched, agentStep_consumer_busy (s := s.setSched rest) hq]

theorem renderStep_chunk {q : RenderSeq} (h : q.phase = .chunk) (s : State) : renderStep q s = renderChunk q s := by
  simp [renderStep, h]

theorem renderStep_fill {q : RenderSeq} (h : q.phase = .fill) (s : State) : renderStep q s = renderFill q s := by
  simp [renderStep, h]

/-- Settles O32: silence for the frames still owed, then the response. -/
theorem renderFillStepRule : Obligations.RenderFillStepRule := by
  intro s q rest hsched hq hphase
  rw [step_render hsched hq, renderStep_fill hphase]
  rfl

/-- A sample is the two bytes at its offset, the low byte first (20_memory.md R50). -/
theorem sampleAt_eq (s : State) (off : Nat) :
    sampleAt s off = memByte s ((off + 1) % s.cap) ++ memByte s (off % s.cap) := by
  apply BitVec.eq_of_toNat_eq
  have hlow := (memByte s (off % s.cap)).isLt
  have hhigh := (memByte s ((off + 1) % s.cap)).isLt
  rw [sampleAt, BitVec.toNat_ofNat, BitVec.toNat_append, ← Nat.shiftLeft_add_eq_or_of_lt hlow, Nat.shiftLeft_eq]
  simp only [memRead, Nat.add_zero]
  omega

/-- The output beat of the frame `4*j` bytes after cursor `r`, with the latched volume and the draws from the `d`-th on
(41_render_convert.md R140, R142). -/
def frameBeat (s : State) (vol : Word) (r d j : Nat) : OutBeat :=
  { left := conv (memByte s ((r + 4 * j + 1) % s.cap) ++ memByte s ((r + 4 * j) % s.cap)) vol (Config.nanDraw (d + 2 * j))
    right := conv (memByte s ((r + 4 * j + 3) % s.cap) ++ memByte s ((r + 4 * j + 2) % s.cap)) vol
      (Config.nanDraw (d + 2 * j + 1)) }

/-- The beat depends on the cursor's offset only. -/
theorem frameBeat_of_mod {s : State} {r r' : Nat} (h : r % s.cap = r' % s.cap) (vol : Word) (d j : Nat) :
    frameBeat s vol r d j = frameBeat s vol r' d j := by
  have hoff (k : Nat) : (r + k) % s.cap = (r' + k) % s.cap := Nat.ModEq.add_right k h
  simp only [frameBeat, Nat.add_assoc, hoff]

theorem chunkBeat_eq (s : State) (vol : Word) (o j : Nat) : chunkBeat s vol o j = frameBeat s vol o s.nanDraws j := by
  simp only [chunkBeat, sampleAt_eq, frameBeat, Nat.add_assoc]

/-- The chunk step with its beats by cursor: they are the frames from the read cursor on. -/
theorem renderChunk_take {q : RenderSeq} {s : State} (hleft : 0 < q.left) (hlen : 4 ≤ s.readableSpans.len1) :
    renderChunk q s = { s with
      out := s.out ++ (List.range (chunkFrames s q)).map (frameBeat s q.vol (s.rptr % s.cap) s.nanDraws)
      rptr := cursorAdv s.cap s.rptr (4 * chunkFrames s q)
      nanDraws := s.nanDraws + 2 * chunkFrames s q
      cSeq := some { q with
        left := q.left - chunkFrames s q
        o := q.o + chunkFrames s q
        k := q.k + chunkFrames s q } } := by
  have hbeats : frameBeat s q.vol (s.rptr % s.cap) s.nanDraws = chunkBeat s q.vol (s.rptr % s.cap) :=
    funext fun j => (chunkBeat_eq s q.vol _ j).symm
  rw [hbeats]
  exact if_pos ⟨hleft, hlen⟩

theorem renderChunk_toFill {q : RenderSeq} {s : State} (h : q.left = 0 ∨ s.readableSpans.len1 < 4) :
    renderChunk q s = s.setRender (some { q with phase := .fill }) :=
  if_neg (by omega)

/-- Settles O31: the chunk step takes the whole frames of the first range, or goes to FILL. -/
theorem renderChunkStepRule : Obligations.RenderChunkStepRule := by
  rintro s q rest _ _ _ hsched hq hphase rfl rfl rfl
  rw [step_render hsched hq, renderStep_chunk hphase]
  refine ⟨fun hleft hlen => ?_, fun hnone => congrArg Host.Outcome.next (renderChunk_toFill hnone)⟩
  refine ⟨(List.range (chunkFrames s q)).map (frameBeat s q.vol (s.rptr % s.cap) s.nanDraws), ?_, fun j hj => ?_, _,
     congrArg Host.Outcome.next (renderChunk_take hleft hlen)⟩
  · rw [List.length_map, List.length_range]
    rfl
  · have hj' : j < chunkFrames s q := hj
    exact ⟨_, _, by rw [List.getElem?_map, List.getElem?_range hj']; rfl⟩

/-! ## What a render emits and owes -/

/-- All that a later step of a render can do to the output and the sequencer: take frames, go to FILL, or end. -/
theorem renderStep_cases (q : RenderSeq) (s : State) :
    (∃ f, 0 < f ∧ f ≤ q.left ∧ q.phase = .chunk ∧ (renderStep q s).out.length = s.out.length + f ∧
      (renderStep q s).cSeq = some { q with left := q.left - f, o := q.o + f, k := q.k + f }) ∨
    (q.phase = .chunk ∧ (renderStep q s).out = s.out ∧
      (renderStep q s).cSeq = some { q with phase := .fill }) ∨
    (q.phase = .fill ∧ (renderStep q s).out.length = s.out.length + q.left ∧ (renderStep q s).cSeq = none) := by
  cases hphase : q.phase with
  | fill => exact .inr (.inr ⟨rfl, by simp [renderStep_fill hphase, renderFill, silentFrames]⟩)
  | chunk =>
    rw [renderStep_chunk hphase]
    rcases renderChunk_cases q s with ⟨hleft, hlen, hr⟩ | ⟨-, hr⟩ <;> rw [hr]
    · have hpos : 0 < chunkFrames s q := by unfold chunkFrames; omega
      exact .inl ⟨_, hpos, (chunkFrames_le s q).1, rfl, by simp, by simp [hphase]⟩
    · exact .inr (.inl ⟨rfl, rfl, rfl⟩)

theorem State.framesOwed_of_some {s : State} {q : RenderSeq} (h : s.cSeq = some q) : s.framesOwed = q.left := by
  simp [State.framesOwed, h]

theorem State.framesOwed_of_none {s : State} (h : s.cSeq = none) : s.framesOwed = 0 := by
  simp [State.framesOwed, h]

theorem State.renderStepsLeft_of_chunk {s : State} {q : RenderSeq} (h : s.cSeq = some q) (hphase : q.phase = .chunk) :
    s.renderStepsLeft = q.left + 2 := by
  simp [State.renderStepsLeft, h, hphase]

theorem State.renderStepsLeft_of_fill {s : State} {q : RenderSeq} (h : s.cSeq = some q) (hphase : q.phase = .fill) :
    s.renderStepsLeft = 1 := by
  simp [State.renderStepsLeft, h, hphase]

theorem State.renderStepsLeft_of_none {s : State} (h : s.cSeq = none) : s.renderStepsLeft = 0 := by
  simp [State.renderStepsLeft, h]

/-- The start step emits or owes all frames, and leaves at most two steps more than frames. -/
theorem exec_cRender_owes {s t : State} {n : BitVec 26} (hc : s.cIn = []) (hl : s.status.lstate = .active)
    (hidle : s.cSeq = none) (h : exec (.cRender n) s = .next t) :
    t.out.length + t.framesOwed = s.out.length + n.toNat ∧ t.renderStepsLeft ≤ n.toNat + 2 := by
  cases (passes_consumer (i := .cRender n) rfl hc hl).exec_eq.symm.trans h
  change (effectCRender n s).out.length + (effectCRender n s).framesOwed = _ ∧ (effectCRender n s).renderStepsLeft ≤ _
  by_cases havail : s.availC = 0
  · have hnone : ((s.emit (silentFrames n.toNat)).respond .consumer .ok [0#32]).cSeq = none := by simpa using hidle
    rw [effectCRender_of_empty havail, State.framesOwed_of_none hnone, State.renderStepsLeft_of_none hnone]
    simp [silentFrames]
  · rw [effectCRender_of_readable havail]
    exact ⟨rfl, Nat.le_refl _⟩

/-! ## The steps of the other agents -/

theorem Issue.render_eq {c : Choice} {s u : State} (h : Issue s c u) : u.out = s.out ∧ u.cSeq = s.cSeq := by
  cases h with
  | none => exact ⟨rfl, rfl⟩
  | accept => simp [State.accept]

/-- No agent but C emits, and none ends a render but by the fatal transition or reset. -/
theorem Move.render_cases {c : Choice} {s t : State} (h : Move s c t) (hc : c ≠ .agentC) :
    t.out = s.out ∧ (t.cSeq = s.cSeq ∨ (t.cSeq = none ∧ (c = .reset ∨ t.status.lstate = .fatal))) := by
  cases h with
  | raise | answer | syncW | syncR => simp
  | fatal => exact ⟨rfl, .inr ⟨rfl, .inr rfl⟩⟩
  | reset => exact ⟨rfl, .inr ⟨rfl, .inl rfl⟩⟩
  | advance | emptyRender | startRender | chunk | toFill | fill => exact absurd rfl hc
  | _ => exact ⟨rfl, .inl rfl⟩

theorem step_render_cases {c : Choice} {s t : State} {rest : List Choice} (hsched : s.sched = c :: rest)
    (hc : c ≠ .agentC) (h : step s = .next t) :
    t.out = s.out ∧ (t.cSeq = s.cSeq ∨ (t.cSeq = none ∧ (c = .reset ∨ t.status.lstate = .fatal))) := by
  obtain ⟨u, hissue, hmove⟩ := step_moves_of_sched hsched h
  have hcases := hmove.render_cases hc
  obtain ⟨hout, hseq⟩ := hissue.render_eq
  rwa [hout, hseq] at hcases

/-- A render that a step leaves running keeps its latched volume and its nframes (41_render_convert.md R134). -/
theorem step_keeps_latched {s t : State} {q q' : RenderSeq} (h : step s = .next t) (hq : s.cSeq = some q)
    (hq' : t.cSeq = some q') : q'.vol = q.vol ∧ q'.n = q.n := by
  have hsame (heq : t.cSeq = s.cSeq) : q'.vol = q.vol ∧ q'.n = q.n := by
    rw [hq, hq'] at heq
    cases heq
    exact ⟨rfl, rfl⟩
  cases hsched : s.sched with
  | nil =>
    rw [step, hsched] at h
    cases h
    exact hsame rfl
  | cons c rest =>
    by_cases hc : c = .agentC
    · subst hc
      cases (step_render hsched hq).symm.trans h
      rcases renderStep_cases q (s.setSched rest) with ⟨f, -, -, -, -, hs⟩ | ⟨-, -, hs⟩ | ⟨-, -, hs⟩ <;>
        cases hs.symm.trans hq' <;> exact ⟨rfl, rfl⟩
    · rcases (step_render_cases hsched hc h).2 with heq | ⟨hnone, -⟩
      · exact hsame heq
      · cases hnone.symm.trans hq'

/-- Settles O45: each later step of the render moves frames from those owed to the output, and the other agents do neither. -/
theorem renderConservesFrames : Obligations.RenderConservesFrames := by
  refine ⟨fun s t q q' => step_keeps_latched, fun s t n hc hl hidle h => (exec_cRender_owes hc hl hidle h).1,
    fun s t q rest hsched hq h => ?_, fun s t c rest hsched hc hreset h => ?_⟩
  · cases (step_render hsched hq).symm.trans h
    rw [State.framesOwed_of_some hq]
    rcases renderStep_cases q (s.setSched rest) with ⟨f, -, hf, -, hout, hs⟩ | ⟨-, hout, hs⟩ | ⟨-, hout, hs⟩
    · rw [hout, State.framesOwed_of_some hs, State.setSched_out]
      show s.out.length + f + (q.left - f) = _
      omega
    · rw [hout, State.framesOwed_of_some hs]
      rfl
    · rw [hout, State.framesOwed_of_none hs]
      rfl
  · simpa [hreset] using step_render_cases hsched hc h

/-- Settles O46: a chunk step takes a frame or goes to FILL, so the bound falls with every step of the render. -/
theorem renderStepBound : Obligations.RenderStepBound := by
  refine ⟨fun s t n hc hl hidle h => (exec_cRender_owes hc hl hidle h).2, fun s q rest hsched hq => ?_,
    fun s t c rest hsched hc h => ?_⟩
  · refine ⟨_, step_render hsched hq, ?_⟩
    rcases renderStep_cases q (s.setSched rest) with ⟨f, hpos, hf, hphase, -, hs⟩ | ⟨hphase, -, hs⟩ | ⟨hphase, -, hs⟩
    · rw [State.renderStepsLeft_of_chunk hq hphase, State.renderStepsLeft_of_chunk hs hphase]
      show q.left - f + 2 < _
      omega
    · rw [State.renderStepsLeft_of_chunk hq hphase, State.renderStepsLeft_of_fill hs rfl]
      omega
    · rw [State.renderStepsLeft_of_fill hq hphase, State.renderStepsLeft_of_none hs]
      omega
  · rcases (step_render_cases hsched hc h).2 with heq | ⟨hnone, -⟩
    · unfold State.renderStepsLeft
      rw [heq]
    · rw [State.renderStepsLeft_of_none hnone]
      exact Nat.zero_le _

end Sys2Proof.Machine
end

section
/-! SUPPORT. Runs of agent C alone (41_render_convert.md R142 to R148): on an empty buffer the chunk and fill steps end as the
early exit does (O47), and a sequential render takes the oldest frames in at most two chunks (O48). -/

namespace Sys2Proof.Machine

/-! ## Runs of agent C alone -/

/-- The run of `k` steps of agent C alone from a state. -/
def runC (k : Nat) (s : State) : Host.Outcome State Fault Refusal :=
  Sys2Proof.core.run k (s.setSched (List.replicate k .agentC))

theorem run_succ {s t : State} (h : step s = .next t) (k : Nat) : Sys2Proof.core.run (k + 1) s = Sys2Proof.core.run k t := by
  have h' : Sys2Proof.core.step s = .next t := h
  simp only [Host.Core.run, h']

/-- The steps of a render neither read nor write the schedule. -/
theorem renderStep_setSched (q : RenderSeq) (s : State) (rest : List Choice) :
    renderStep q (s.setSched rest) = (renderStep q s).setSched rest := by
  unfold renderStep
  split
  · by_cases htake : 0 < q.left ∧ 4 ≤ s.readableSpans.len1
    · rw [renderChunk_take htake.1 htake.2]
      exact renderChunk_take (s := s.setSched rest) htake.1 htake.2
    · have hdone : q.left = 0 ∨ s.readableSpans.len1 < 4 := by omega
      rw [renderChunk_toFill hdone]
      exact renderChunk_toFill (s := s.setSched rest) hdone
  · rfl

/-- While a render runs, a step of agent C is the render's. -/
theorem runC_of_busy {s : State} {q : RenderSeq} (hq : s.cSeq = some q) (k : Nat) :
    runC (k + 1) s = runC k (renderStep q s) := by
  have hstep := step_render (s := s.setSched (List.replicate (k + 1) .agentC)) (q := q)
    (rest := List.replicate k .agentC) rfl hq
  rw [runC, run_succ hstep, renderStep_setSched, renderStep_setSched]
  rfl

/-- The agent of an idle port without a command waits (70_reset_and_hazards.md R211). -/
theorem step_of_idle_nil {s : State} {port : Port} {rest : List Choice} (hsched : s.sched = agentOf port :: rest)
    (hidle : s.idle port = true) (hcmds : s.cmds port = []) : step s = .next (s.setSched rest) := by
  have hcmds' : (s.setSched rest).cmds port = [] := by simpa using hcmds
  rw [step_agentOf_idle hsched hidle, issueStep, acceptCommand_nil hcmds']

/-- With no render running and no command to come, agent C waits. -/
theorem runC_of_idle {s : State} (hidle : s.cSeq = none) (hcmds : s.cCmds = []) (k : Nat) :
    runC k s = .next (s.setSched []) := by
  induction k with
  | zero => rfl
  | succ k ih =>
    have hstep : step (s.setSched (List.replicate (k + 1) .agentC)) = .next (s.setSched (List.replicate k .agentC)) :=
      step_of_idle_nil (s := s.setSched _) (port := .consumer) rfl (State.idle_consumer_iff.mpr hidle) hcmds
    rw [runC, run_succ hstep]
    exact ih

/-- With nothing more to take, a chunk step and a fill step end the render. -/
theorem runC_of_done {s : State} {q : RenderSeq} (hq : s.cSeq = some q) (hphase : q.phase = .chunk)
    (hdone : q.left = 0 ∨ s.readableSpans.len1 < 4) {k : Nat} : runC (k + 2) s = runC k (renderFill q s) := by
  rw [runC_of_busy hq, renderStep_chunk hphase, renderChunk_toFill hdone, runC_of_busy rfl, renderStep_fill rfl]
  rfl

/-- Settles O47: with nothing in view the chunk step goes to FILL, and the fill step gives all frames as silence. -/
theorem earlyExitEqualsChunkAndFill : Obligations.EarlyExitEqualsChunkAndFill := by
  intro s n hc hl hidle hempty
  refine ⟨_, (passes_consumer (i := .cRender n) rfl hc hl).exec_eq, ?_⟩
  have hnone : s.readableSpans.len1 < 4 := by
    have hlen : s.readableSpans.len1 ≤ s.availC := Nat.min_le_left ..
    have havail : s.availC = 0 := hempty
    omega
  change runC (0 + 2) (s.setRender (some (startedRender n.toNat s.volume))) = .next ((effectCRender n s).setSched [])
  rw [effectCRender_of_empty hempty, runC_of_done (s := s.setRender _) rfl rfl (.inr hnone)]
  refine congrArg (fun q => Host.Outcome.next ((((s.emit _).setRender q).respond .consumer .ok _).setSched [])) ?_
  exact hidle.symm

/-! ## The frames of a render -/

/-- The oldest `j` frames in view, converted with VOLUME (41_render_convert.md R142, R145). -/
def oldestBeats (s : State) (j : Nat) : List OutBeat := (List.range j).map (frameBeat s s.volume s.rptr s.nanDraws)

/-- The frames from the `j`-th on are those from the cursor advanced past `j` frames on. -/
theorem oldestBeats_add (s : State) (j f : Nat) :
    oldestBeats s (j + f) = oldestBeats s j ++
      (List.range f).map (frameBeat s s.volume (cursorAdv s.cap s.rptr (4 * j) % s.cap) (s.nanDraws + 2 * j)) := by
  have hbeat (i : Nat) : frameBeat s s.volume s.rptr s.nanDraws (j + i)
      = frameBeat s s.volume (cursorAdv s.cap s.rptr (4 * j) % s.cap) (s.nanDraws + 2 * j) i := by
    rw [frameBeat_of_mod (r := cursorAdv s.cap s.rptr (4 * j) % s.cap) (r' := s.rptr + 4 * j)
      (by rw [Nat.mod_mod, cursorAdv_mod_cap])]
    simp only [frameBeat, Nat.mul_add, Nat.add_assoc]
  simp only [oldestBeats, List.range_add, List.map_append, List.map_map, Function.comp_def, hbeat]

/-- The sequencer of a render of `n` frames that has taken `j` and looks for more. -/
def renderTaken (n j : Nat) (vol : Word) : RenderSeq :=
  { phase := .chunk, n := n, left := n - j, o := j, k := j, vol := vol }

/-- The state in which a render of `n` frames, started in `s`, has taken `j` frames. -/
def State.rendering (s : State) (n j : Nat) : State :=
  { s with
    out := s.out ++ oldestBeats s j
    rptr := cursorAdv s.cap s.rptr (4 * j)
    nanDraws := s.nanDraws + 2 * j
    cSeq := some (renderTaken n j s.volume) }

/-- A chunk step of the render takes the next frames. -/
theorem renderChunk_rendering {s : State} {n j : Nat} (hj : j < n) (hlen : 4 ≤ (s.rendering n j).readableSpans.len1) :
    renderChunk (renderTaken n j s.volume) (s.rendering n j)
      = s.rendering n (j + chunkFrames (s.rendering n j) (renderTaken n j s.volume)) := by
  rw [renderChunk_take (q := renderTaken n j s.volume) (Nat.sub_pos_of_lt hj) hlen]
  generalize chunkFrames (s.rendering n j) (renderTaken n j s.volume) = f
  have hout : (s.out ++ oldestBeats s j) ++
      (List.range f).map (frameBeat s s.volume (cursorAdv s.cap s.rptr (4 * j) % s.cap) (s.nanDraws + 2 * j))
        = s.out ++ oldestBeats s (j + f) := by
    rw [oldestBeats_add, List.append_assoc]
  have hrptr : cursorAdv s.cap (cursorAdv s.cap s.rptr (4 * j)) (4 * f) = cursorAdv s.cap s.rptr (4 * (j + f)) := by
    simp only [cursorAdv, Nat.mod_add_mod]
    congr 1
    omega
  have hdraws : s.nanDraws + 2 * j + 2 * f = s.nanDraws + 2 * (j + f) := by omega
  have hleft : n - j - f = n - (j + f) := by omega
  simp only [State.rendering, renderTaken, ← hout, ← hrptr, ← hdraws, ← hleft]
  rfl

/-- The first range of what is in view after `j` frames. -/
theorem len1_rendering {s : State} {K : Nat} (h : CursorsInOrder s) (hview : s.availC = 4 * K) {n j : Nat} (hj : j ≤ K) :
    (s.rendering n j).readableSpans.len1 = min (4 * (K - j)) (s.cap - (s.rptr + 4 * j) % s.cap) := by
  have hdist : cursorDist s.cap s.rptr s.wview = 4 * K := hview
  change min (cursorDist s.cap (cursorAdv s.cap s.rptr (4 * j)) s.wview) (s.cap - cursorAdv s.cap s.rptr (4 * j) % s.cap) = _
  rw [cursorDist_cursorAdv_left h.rptr.1 h.wview (by omega), cursorAdv_mod_cap, hdist]
  congr 1
  omega

/-- The state in which the render has ended. -/
def State.rendered (s : State) (n j : Nat) : State := renderFill (renderTaken n j s.volume) (s.rendering n j)

section

variable {s : State} {n K : Nat}

/-- With all frames taken that are in view or needed, two steps end the render. -/
theorem runC_rendering_min (h : CursorsInOrder s) (hview : s.availC = 4 * K) (hcmds : s.cCmds = []) (k : Nat) :
    runC (k + 2) (s.rendering n (min K n)) = .next ((s.rendered n (min K n)).setSched []) := by
  have hlen := len1_rendering (n := n) h hview (Nat.min_le_left K n)
  rw [runC_of_done (q := renderTaken n (min K n) s.volume) rfl rfl]
  · exact runC_of_idle (s := s.rendered n (min K n)) rfl hcmds k
  · change n - min K n = 0 ∨ _
    omega

/-- The first chunk takes all, or ends at the end of MEM; then the second one takes the rest (41_render_convert.md R145). -/
theorem runC_rendering (h : CursorsInOrder s) (hview : s.availC = 4 * K) (hK : 0 < K) (hcmds : s.cCmds = []) :
    runC 4 (s.rendering n 0) = .next ((s.rendered n (min K n)).setSched []) := by
  rcases Nat.eq_zero_or_pos n with rfl | hn
  · have hend := runC_rendering_min (n := 0) h hview hcmds 2
    rwa [Nat.min_zero] at hend ⊢
  have hcap4 := h.params.cap.1
  have hpos := h.cap_pos
  have hfull : 4 * K ≤ s.cap := hview ▸ h.availC_le.trans h.readable_le
  have hoff4 : s.rptr % s.cap % 4 = 0 := by
    rw [Nat.mod_mod_of_dvd _ (Nat.dvd_of_mod_eq_zero hcap4)]
    exact h.rptr.2
  have hofflt := Nat.mod_lt s.rptr hpos
  have hlen := len1_rendering (n := n) h hview (Nat.zero_le K)
  rw [Nat.mul_zero, Nat.add_zero, Nat.sub_zero] at hlen
  rw [runC_of_busy rfl, renderStep_chunk rfl, renderChunk_rendering hn (by omega), Nat.zero_add]
  have hf : chunkFrames (s.rendering n 0) (renderTaken n 0 s.volume) = min n (min (4 * K) (s.cap - s.rptr % s.cap) / 4) := by
    rw [← hlen]
    rfl
  generalize chunkFrames (s.rendering n 0) (renderTaken n 0 s.volume) = f at hf ⊢
  by_cases hall : f = min K n
  · rw [hall]
    exact runC_rendering_min h hview hcmds 1
  · have hwrap : (s.rptr + 4 * f) % s.cap = 0 := by
      rw [← Nat.mod_add_mod, show s.rptr % s.cap + 4 * f = s.cap by omega, Nat.mod_self]
    have hlen' := len1_rendering (n := n) (j := f) h hview (by omega)
    rw [hwrap] at hlen'
    rw [runC_of_busy rfl, renderStep_chunk rfl, renderChunk_rendering (by omega) (by omega)]
    have hf' : f + chunkFrames (s.rendering n f) (renderTaken n f s.volume) = min K n := by
      change f + min (n - f) ((s.rendering n f).readableSpans.len1 / 4) = _
      omega
    rw [hf']
    exact runC_rendering_min h hview hcmds 0

end

/-! ## A sequential render -/

/-- What a sequential render of `n` frames that takes `m` leaves (41_render_convert.md R145). -/
structure Delivers (s : State) (n m : Nat) (t : State) : Prop where
  out : t.out = s.out ++ oldestBeats s m ++ silentFrames (n - m)
  rptr : t.rptr = cursorAdv s.cap s.rptr (4 * m)
  idle : t.cSeq = none
  resp : t.cResp = s.cResp ++ [⟨.ok, [valueWord m]⟩]
  mem : t.mem = s.mem
  wptr : t.wptr = s.wptr
  status : t.status = s.status

theorem delivers_rendered (s : State) (n m : Nat) : Delivers s n m ((s.rendered n m).setSched []) :=
  by constructor <;> simp [State.rendered, renderFill, State.rendering, renderTaken]

/-- The start step and four more end the render. -/
theorem runC_effectCRender {s : State} {n : BitVec 26} {K : Nat} (h : CursorsInOrder s) (hview : s.availC = 4 * K)
    (hcIn : s.cIn = []) (hidle : s.cSeq = none) (hcmds : s.cCmds = []) :
    ∃ t, runC 4 (effectCRender n s) = .next t ∧ Delivers s n.toNat (min K n.toNat) t := by
  have hrptr : cursorAdv s.cap s.rptr 0 = s.rptr := Nat.mod_eq_of_lt h.rptr.1
  rcases Nat.eq_zero_or_pos K with rfl | hK
  · rw [effectCRender_of_empty hview, Nat.zero_min]
    refine ⟨_, runC_of_idle (s := (s.emit (silentFrames n.toNat)).respond .consumer .ok [0#32]) hidle hcmds 4, ?_⟩
    exact ⟨by simp [oldestBeats], hrptr.symm, hidle, rfl, rfl, rfl, rfl⟩
  · have hstart : effectCRender n s = s.rendering n.toNat 0 := by
      rw [effectCRender_of_readable (by omega)]
      simp [State.rendering, State.deliver, State.setRender, startedRender, renderTaken, oldestBeats, hrptr, hcIn]
    rw [hstart]
    exact ⟨_, runC_rendering h hview hK hcmds, delivers_rendered s _ _⟩

/-- A schedule of agent C alone gives such a run. -/
theorem runC_of_sched {s : State} {k : Nat} (h : s.sched = List.replicate k .agentC) :
    Sys2Proof.core.run k s = runC k s := by
  rw [runC, ← h]
  rfl

/-- The state in which a sequential `C.RENDER` runs its start step: the consumer's view is current and no command is to
come (20_memory.md R57). -/
def State.atSequentialRender (s : State) (rest : List Choice) : State :=
  { s.seeW with sched := rest, cCmds := [], cIssued := s.cIssued + 1, cIn := [] }

/-- The issue of a sequential `C.RENDER` runs its start step there. -/
theorem step_sequential_render {s : State} {n : BitVec 26} {rest : List Choice} (hsched : s.sched = .agentC :: rest)
    (hplay : s.pSeq = none) (hidle : s.cSeq = none) (hcmds : s.cCmds = [⟨encode (.cRender n), [], true⟩]) :
    step s = exec (.cRender n) (s.atSequentialRender rest) := by
  have haccept : (s.setSched rest).accept .consumer ⟨encode (.cRender n), [], true⟩ [] = s.atSequentialRender rest := by
    simp [State.accept, State.issueView, State.setCmds, State.countIssued, State.deliver, State.pBusy, State.seeW,
      State.setSched, State.atSequentialRender, hplay]
  rw [← haccept]
  exact stepRunsDecodedCommand s .consumer rest _ [] (.cRender n) hsched (State.idle_consumer_iff.mpr hidle) hcmds
    (decodeOfEncode (.cRender n) rfl)

/-- Settles O48: the sequential issue makes the view current, and the start step and at most four more deliver what is in
view. -/
theorem sequentialRenderDelivers : Obligations.SequentialRenderDelivers := by
  rintro s n K _ h hactive hplay hidle hcmds hsched hreadable rfl
  have horder : CursorsInOrder (s.atSequentialRender (List.replicate 4 .agentC)) :=
    (cursorsInOrder_ring _).mp ((cursorsInOrder_ring s.seeW).mpr h.seeW)
  have hpass : Passes (.cRender n) (s.atSequentialRender (List.replicate 4 .agentC)) := passes_consumer rfl rfl hactive
  have hstep := (step_sequential_render hsched hplay hidle hcmds).trans hpass.exec_eq
  have hsched' := (effectCRender_move n (hasBuffer_of_legal (by simp [Instr.port]) hpass.legal)).sched
  obtain ⟨t, hrun, hd⟩ := runC_effectCRender (n := n) horder hreadable rfl hidle rfl
  exact ⟨t, (run_succ hstep 4).trans ((runC_of_sched hsched').trans hrun), hd.out, hd.rptr, hd.idle, hd.resp, hd.mem,
    hd.wptr, hd.status⟩

end Sys2Proof.Machine
end

section
/-! SUPPORT. P.PLAY (42_feeder.md R150 to R154): its start step (O21), its write step (O29) and its hold (O30), and the two
steps that complete a play with room for all its frames (O44). -/

namespace Sys2Proof.Machine

/-! ## The start step -/

theorem effectPPlay_of_zero {count : BitVec 26} (h : count.toNat = 0) (s : State) :
    effectPPlay count s = s.respond .producer .ok [0#32] := by
  simp [effectPPlay, operandN26, h]

/-- The sequencer that the start step of a P.PLAY of `n` frames sets (42_feeder.md R150). -/
def startedPlay (n : Nat) (pay : List Word) : PlaySeq := { rem := 4 * n, pay := pay, count := n }

theorem effectPPlay_of_pos {count : BitVec 26} (h : count.toNat ≠ 0) (s : State) :
    effectPPlay count s = (s.deliver .producer []).setPlay (some (startedPlay count.toNat s.pIn)) := by
  simp [effectPPlay, operandN26, h, startedPlay]

/-- Settles O21: with nothing to write the start step answers at once, else it leaves the sequencer. -/
theorem pPlayStartRule : Obligations.PPlayStartRule := by
  refine ⟨fun _ => encode_eq_or .producer 2#4 rfl rfl rfl, fun _ => commonChecks_producer rfl, fun s count hp hl => ?_⟩
  rw [(passes_producer (i := .pPlay count) rfl hp hl).exec_eq]
  refine congrArg Host.Outcome.next ?_
  change effectPPlay count s = _
  split
  · next h => exact effectPPlay_of_zero h s
  · next h => exact effectPPlay_of_pos h s

/-! ## The later steps -/

/-- The step of agent P while a play runs. -/
theorem step_play {s : State} {q : PlaySeq} {rest : List Choice} (hsched : s.sched = .agentP :: rest)
    (hq : s.pSeq = some q) : step s = playStep q (s.setSched rest) := by
  rw [step_of_sched_cons hsched, agentStep_producer_busy (s := s.setSched rest) hq]

/-- With no whole frame free in view the play holds. -/
theorem playStep_hold {q : PlaySeq} {s : State} (h : s.freeP < 4) : playStep q s = .next s := by
  have hnone : s.acceptedBytes q.rem = 0 := by
    unfold State.acceptedBytes
    omega
  exact if_pos hnone

/-- A write step of `k` bytes: the whole next state, but for the bytes it stores (42_feeder.md R151). -/
theorem playStep_write {q : PlaySeq} {s : State} {k : Nat} (hk : k = s.acceptedBytes q.rem) (hpos : 0 < k)
    (hpay : k / 4 ≤ q.pay.length) :
    playStep q s = .next { s with
      mem := (s.writeFrames (q.pay.take (k / 4)) k).mem
      wptr := cursorAdv s.cap s.wptr k
      pSeq := if q.rem - k = 0 then none else some { q with rem := q.rem - k, pay := q.pay.drop (k / 4) }
      pIn := if q.rem - k = 0 then [] else s.pIn
      pResp := if q.rem - k = 0 then s.pResp ++ [⟨.ok, [valueWord (4 * q.count)]⟩] else s.pResp } := by
  subst hk
  rcases playStep_cases q s with ⟨hnone, -⟩ | ⟨hshort, -⟩ | ⟨-, -, hall, hr⟩ | ⟨-, -, hsome, hr⟩
  · omega
  · omega
  · have hdone : q.rem - s.acceptedBytes q.rem = 0 := by omega
    simp only [hr, if_pos hdone]
    rfl
  · have hmore : q.rem - s.acceptedBytes q.rem ≠ 0 := by omega
    simp only [hr, if_neg hmore]
    rfl

/-- The beats that a producer step takes from its payload stand at the write cursor. -/
theorem memByte_writeFrames_take {s : State} {pay : List Word} {k i j : Nat} {beat : Word}
    (hw : Fits s (pay.take (k / 4)) k) (hi : i < k / 4) (hj : j < 4) (hbeat : pay[i]? = some beat) :
    memByte (s.writeFrames (pay.take (k / 4)) k) ((s.wptr + 4 * i + j) % s.cap) = beat.extractLsb' (8 * j) 8 := by
  have hlen : i < (pay.take (k / 4)).length := by
    have := hw.whole
    omega
  have hget : (pay.take (k / 4))[i] = beat := by
    obtain ⟨_, hget⟩ := List.getElem?_eq_some_iff.mp hbeat
    simpa using hget
  exact hget ▸ memByte_writeFrames hw hlen hj

/-- Settles O29: the beats taken fit the free region in view, so they stand at the write cursor and no other byte changes. -/
theorem playWriteStepRule : Obligations.PlayWriteStepRule := by
  intro s q rest k hsched hq hbeats howes hroom hk
  have hk' : k = (s.setSched rest).acceptedBytes q.rem := hk
  have hpay : k / 4 ≤ q.pay.length := by omega
  have hfits : Fits (s.setSched rest) (q.pay.take (k / 4)) k := hk' ▸ fits_take (hk' ▸ hpay)
  have hstep := (step_play hsched hq).trans (playStep_write hk' (by omega) hpay)
  refine ⟨by omega, fun hc => ?_, _, hstep, fun i hi j hj beat hbeat => ?_, fun a ha => ?_, rfl⟩
  · have hdist4 := cursorDist_mod_four hc.params.cap.1 hc.rview hc.wptr.1 hc.wholeRview hc.wptr.2
    have hcap4 := hc.params.cap.1
    omega
  · exact memByte_writeFrames_take hfits hi hj hbeat
  · exact memByte_writeFrames_other hfits ha

/-! ## The hold -/

theorem Issue.pSeq {c : Choice} {s u : State} (h : Issue s c u) : u.pSeq = s.pSeq := by
  cases h with
  | none => rfl
  | accept => simp [State.accept]

/-- No agent but P starts, changes or ends a play, but by the fatal transition or reset. -/
theorem Move.play_cases {c : Choice} {s t : State} (h : Move s c t) (hc : c ≠ .agentP) (hreset : c ≠ .reset) :
    t.pSeq = s.pSeq ∨ (c = .agentH ∧ t.pSeq = none ∧ t.status.lstate = .fatal) := by
  cases h with
  | raise | answer | syncW | syncR => simp
  | fatal => exact .inr ⟨rfl, rfl, rfl⟩
  | reset => exact absurd rfl hreset
  | write | writeShort | startPlay | playMore | playEnd => exact absurd rfl hc
  | _ => exact .inl rfl

/-- Settles O30: agent P's own step accepts no byte, and the moves of the other agents leave its sequencer. -/
theorem playHolds : Obligations.PlayHolds := by
  refine ⟨fun s q rest hsched hq hfull => ?_, fun s t q c rest hsched hc hreset hq h => ?_⟩
  · exact (step_play hsched hq).trans (playStep_hold hfull)
  · obtain ⟨u, hissue, hmove⟩ := step_moves_of_sched hsched h
    have hcases := hmove.play_cases hc hreset
    rwa [hissue.pSeq, State.setSched_pSeq, hq] at hcases

/-! ## A play with room -/

/-- The producer's view at the first step of a command that it issues: current at a sequential issue (20_memory.md R57). -/
def State.issuedRview (s : State) (seen : Bool) : Nat := if seen && !s.cBusy then s.rptr else s.rview

/-- The issue takes no free byte from the producer's view. -/
theorem cursorDist_issuedRview_le {s : State} (h : CursorsInOrder s) (seen : Bool) :
    cursorDist s.cap (s.issuedRview seen) s.wptr ≤ cursorDist s.cap s.rview s.wptr := by
  unfold State.issuedRview
  split
  · exact Nat.le.intro ((Nat.add_comm ..).trans h.add_readable)
  · exact Nat.le_refl _

theorem State.issueView_producer (s : State) (seen : Bool) :
    s.issueView .producer seen = { s with rview := s.issuedRview seen } := by
  unfold State.issueView State.issuedRview
  dsimp only
  split <;> rfl

theorem State.accept_producer (s : State) (cmd : Command) (q : List Command) :
    s.accept .producer cmd q = { s with
      pCmds := q
      pIssued := s.pIssued + 1
      rview := s.issuedRview cmd.seen
      pIn := cmd.payload } :=
  congrArg (·.deliver .producer cmd.payload) (State.issueView_producer _ cmd.seen)

/-- The state that the issue of a P.PLAY of `n` frames leaves: the play is running and no command is to come. -/
def State.playing (s : State) (n : Nat) (pay : List Word) (seen : Bool) (rest : List Choice) : State :=
  { s with
    sched := rest
    pCmds := []
    pIssued := s.pIssued + 1
    rview := s.issuedRview seen
    pIn := []
    pSeq := some (startedPlay n pay) }

/-- The issue of a P.PLAY with frames runs its start step. -/
theorem step_issue_play {s : State} {count : BitVec 26} {pay : List Word} {seen : Bool} {rest : List Choice}
    (hsched : s.sched = .agentP :: rest) (hl : s.status.lstate ∈ [LState.ready, LState.active]) (hidle : s.pSeq = none)
    (hcmds : s.pCmds = [⟨encode (.pPlay count), pay, seen⟩]) (hpay : pay.length = count.toNat) (hpos : count.toNat ≠ 0) :
    step s = .next (s.playing count.toNat pay seen rest) := by
  have hissue : step s = exec (.pPlay count) ((s.setSched rest).accept .producer ⟨encode (.pPlay count), pay, seen⟩ []) :=
    stepRunsDecodedCommand s .producer rest _ [] (.pPlay count) hsched (State.idle_producer_iff.mpr hidle) hcmds
      (decodeOfEncode (.pPlay count) rfl)
  rw [hissue, State.accept_producer, Passes.exec_eq]
  · exact congrArg Host.Outcome.next (effectPPlay_of_pos hpos _)
  · exact passes_producer rfl hpay hl

/-- Settles O44: the issue takes no free byte from view, so the one write step that follows writes all frames. -/
theorem playWithRoomCompletes : Obligations.PlayWithRoomCompletes := by
  intro s count pay seen h hl hidle hpay hpos hcmds hsched hroom
  have hstart := step_issue_play hsched hl hidle hcmds hpay hpos.ne'
  have hview := cursorDist_issuedRview_le h seen
  obtain ⟨-, -, t, hwrite, hbytes, hother, ht⟩ :=
    playWriteStepRule (s.playing count.toNat pay seen [.agentP]) (startedPlay count.toNat pay) [] (4 * count.toNat)
      rfl rfl (congrArg (4 * ·) hpay.symm) (by simp only [startedPlay]; omega)
      (by simp only [State.playing]; omega) (by simp only [State.playing, startedPlay]; omega)
  have hdone : (startedPlay count.toNat pay).rem - 4 * count.toNat = 0 := Nat.sub_self _
  rw [Nat.mul_div_cancel_left _ (by decide : 0 < 4)] at hbytes
  simp only [hdone, if_true] at ht
  refine ⟨t, (run_succ hstart 1).trans (run_succ hwrite 0), hbytes, hother, ?_⟩
  rw [ht]
  exact ⟨rfl, rfl, rfl, rfl, rfl⟩

end Sys2Proof.Machine
end

section
/-! SUPPORT. Where every command is legal (60_exceptions.md R193), and what the rules of the single commands of port H share:
the common checks of R194 for all commands, and a command of port H that passes them. -/

namespace Sys2Proof.Machine

/-! ## The legality table -/

/-- The legality table: the lifecycle columns, and for H.DEINIT idle sequencers (60_exceptions.md R193). -/
theorem legal_iff {i : Instr} {s : State} :
    legal i s = true ↔ s.status.lstate ∈ legalStates i ∧ (i = .hDeinit → s.pSeq = none ∧ s.cSeq = none) := by
  cases i with
  | hDeinit => simp [legal, legalStates, State.pBusy, State.cBusy, and_assoc]
  | hSetVolume | hConvert | hReadReg => cases hl : s.status.lstate <;> simp [legal, legalStates, hl]
  | _ => simp [legal, legalStates]

theorem raises_illegal {i : Instr} {s : State} (hp : (s.dataIn i.port).length ≠ payloadBeats i) : Raises i s .illegal :=
  ⟨_, (exec_eq_checked i s).trans (checked_payload _ hp), raiseError_after s .illegal i.port⟩

theorem raises_state {i : Instr} {s : State} (hp : (s.dataIn i.port).length = payloadBeats i) (hl : legal i s = false) :
    Raises i s .state :=
  ⟨_, (exec_eq_checked i s).trans (checked_state _ hp hl), raiseError_after s .state i.port⟩

/-- Every command makes the common checks, by its row of the table (60_exceptions.md R193, R194). -/
theorem commonChecks (i : Instr) : CommonChecks i (payloadBeats i) (legalStates i) := fun _ =>
  ⟨raises_illegal, fun hp hs => raises_state hp (Bool.eq_false_iff.mpr fun hl => hs (legal_iff.mp hl).1)⟩

/-! ## A command of port H that passes the checks -/

theorem passes_host {i : Instr} {s : State} (hi : i.port = .host) (hp : s.hIn.length = payloadBeats i)
    (hl : s.status.lstate ∈ legalStates i) (hidle : i = .hDeinit → s.pSeq = none ∧ s.cSeq = none) : Passes i s :=
  ⟨hi.symm ▸ hp, legal_iff.mpr ⟨hl, hidle⟩⟩

/-- A command of port H that ends with a response: with no payload to discard, the response only adds to the record of
responses (30_encoding.md R77, R78). -/
theorem Passes.exec_answers {i : Instr} {s u : State} {code : Code} {vs : List Word} (h : Passes i s) (hin : u.hIn = [])
    (he : effectOf i s = u.respond .host code vs) :
    exec i s = .next { u with hResp := u.hResp ++ [⟨code, vs⟩] } := by
  rw [h.exec_eq, he]
  simp [State.respond, hin]

/-- A byte of a buffer that holds no written byte is a draw (10_state.md R30). -/
theorem memByte_of_nil {s : State} (h : s.mem = []) (a : Nat) : memByte s a = Config.memDraw s.memGen a := by
  simp [memByte, h, memLookup]

end Sys2Proof.Machine
end

section
/-! SUPPORT. The lifecycle as a whole (43_lifecycle.md R160, R170): which commands change LSTATE (O35), and that nothing moves
in FATAL (O37). -/

namespace Sys2Proof.Machine

/-! ## The transitions -/

@[simp] theorem statusWithError_lstate (e : ErrClass) (st : Status) : (statusWithError e st).lstate = st.lstate := by
  cases e <;> rfl

/-- Only H and reset change LSTATE. -/
theorem Move.lstate_eq {c : Choice} {s t : State} (h : Move s c t) (hc : c ≠ .agentH) (hreset : c ≠ .reset) :
    t.status.lstate = s.status.lstate := by
  cases h with
  | raise | answer | syncW | syncR => simp
  | init | deinit | switch | start | fatal | setVolume | convert => exact absurd rfl hc
  | reset => exact absurd rfl hreset
  | _ => rfl

/-- From `s` to `t` the command makes a transition of the lifecycle table (43_lifecycle.md R160). -/
def Transition (i : Instr) (s t : State) : Prop :=
  (i = .hInit ∧ s.status.lstate = .uninit ∧ t.status.lstate = .ready) ∨
  (i = .hActivate ∧ s.status.lstate = .ready ∧ t.status.lstate = .active) ∨
  (i = .hDeactivate ∧ s.status.lstate = .active ∧ t.status.lstate = .ready) ∨
  (i = .hDeinit ∧ s.status.lstate = .ready ∧ t.status.lstate = .closed) ∨
  (∃ rate, i = .hStart rate ∧ rate.toNat ≠ s.rate ∧ s.status.lstate ∈ [LState.ready, LState.active] ∧
    t.status.lstate = .fatal)

theorem effectHSetVolume_lstate (s : State) : (effectHSetVolume s).status.lstate = s.status.lstate := by
  unfold effectHSetVolume
  split <;> simp

theorem effectHReadReg_lstate (idx : BitVec 3) (s : State) : (effectHReadReg idx s).status.lstate = s.status.lstate := by
  unfold effectHReadReg
  split <;> simp

theorem effectHStart_transition {rate : BitVec 26} {s : State} (hl : s.status.lstate ∈ [LState.ready, LState.active]) :
    (effectHStart rate s).status.lstate = s.status.lstate ∨ Transition (.hStart rate) s (effectHStart rate s) := by
  unfold effectHStart
  split
  · next hrate => exact .inr (.inr (.inr (.inr (.inr ⟨rate, rfl, hrate, hl, rfl⟩))))
  · exact .inl rfl

/-- A command that passes the common checks keeps LSTATE or makes its transition. -/
theorem effectOf_transition {i : Instr} {s : State} (hp : (s.dataIn i.port).length = payloadBeats i)
    (hl : legal i s = true) :
    (effectOf i s).status.lstate = s.status.lstate ∨ Transition i s (effectOf i s) := by
  have hmem : s.status.lstate ∈ legalStates i := (legal_iff.mp hl).1
  cases i with
  | hInit => exact .inr (.inl ⟨rfl, List.mem_singleton.mp hmem, rfl⟩)
  | hActivate => exact .inr (.inr (.inl ⟨rfl, List.mem_singleton.mp hmem, rfl⟩))
  | hDeactivate => exact .inr (.inr (.inr (.inl ⟨rfl, List.mem_singleton.mp hmem, rfl⟩)))
  | hDeinit => exact .inr (.inr (.inr (.inr (.inl ⟨rfl, List.mem_singleton.mp hmem, rfl⟩))))
  | hStart rate => exact effectHStart_transition hmem
  | hStop | hConvert => exact .inl rfl
  | hSetVolume => exact .inl (effectHSetVolume_lstate s)
  | hReadReg idx => exact .inl (effectHReadReg_lstate idx s)
  | _ => exact .inl ((effectOf_move hp hl).lstate_eq (by simp [Instr.port]) agentOf_ne_reset)

theorem exec_transition {i : Instr} {s t : State} (h : exec i s = .next t) :
    t.status.lstate = s.status.lstate ∨ Transition i s t := by
  rcases exec_cases h with ⟨-, ht⟩ | ⟨-, -, ht⟩ | ⟨hp, hl, ht⟩ <;> cases ht
  · exact .inl (by simp)
  · exact .inl (by simp)
  · exact effectOf_transition hp hl

/-- A command finds LSTATE and the supported rate as they were before it was issued. -/
theorem Transition.of_accept {i : Instr} {s t : State} {port : Port} {cmd : Command} {q : List Command}
    (h : Transition i (s.accept port cmd q) t) : Transition i s t := by
  simpa [Transition, State.accept] using h

/-- An issue on H changes LSTATE only by a transition of the command that the issued word decodes to. -/
theorem issueStep_host_transition {s t : State} (h : issueStep .host s = .next t)
    (hne : t.status.lstate ≠ s.status.lstate) :
    ∃ cmd q i, s.hCmds = cmd :: q ∧ decode .host cmd.word = .ok i ∧ Transition i s t := by
  rcases issueStep_cases h with ⟨-, ht⟩ | ⟨cmd, q, u, hcmds, hu, hfirst⟩
  · cases ht
    exact absurd rfl hne
  · obtain rfl : u = s.accept .host cmd q := hu
    have hstatus := (Issue.accept (s := s) .host cmd q rfl).status
    rcases hfirst with ⟨e, -, ht⟩ | ⟨i, hd, ht⟩
    · cases ht
      exact absurd (by simp [hstatus]) hne
    · rcases exec_transition ht.symm with hsame | htrans
      · exact absurd (hstatus ▸ hsame) hne
      · exact ⟨cmd, q, i, hcmds, hd, htrans.of_accept⟩

/-- Settles O35: the moves of P, C and the link keep LSTATE, and a command of H keeps it or makes its own transition. -/
theorem lifecycleTransitions : Obligations.LifecycleTransitions := by
  intro s t c rest hsched h hne
  by_cases hreset : c = .reset
  · subst hreset
    cases (step_of_sched_cons hsched).symm.trans h
    exact .inl ⟨rfl, rfl⟩
  by_cases hc : c = .agentH
  · subst hc
    exact .inr ⟨rfl, issueStep_host_transition (s := s.setSched rest) ((step_of_sched_cons hsched).symm.trans h) hne⟩
  · obtain ⟨u, hissue, hmove⟩ := step_moves_of_sched hsched h
    have hkeep := hmove.lstate_eq hc hreset
    rw [hissue.status] at hkeep
    exact absurd hkeep hne

/-! ## FATAL -/

/-- Nothing moves from `s` to `t`: LSTATE, MEM, the cursors and views, VOLUME, DROPPED, the output and the sequencers. -/
def Unmoved (s t : State) : Prop :=
  t.status.lstate = s.status.lstate ∧ t.mem = s.mem ∧ t.memGen = s.memGen ∧ t.wptr = s.wptr ∧ t.rptr = s.rptr ∧
    t.wview = s.wview ∧ t.rview = s.rview ∧ t.volume = s.volume ∧ t.dropped = s.dropped ∧ t.out = s.out ∧
    t.pSeq = s.pSeq ∧ t.cSeq = s.cSeq

theorem unmoved_respond (s : State) (port : Port) (code : Code) (vs : List Word) : Unmoved s (s.respond port code vs) := by
  simp [Unmoved]

theorem unmoved_raiseError (s : State) (e : ErrClass) (port : Port) : Unmoved s (s.raiseError e port) := by
  simp [Unmoved]

theorem unmoved_effectHReadReg (idx : BitVec 3) (s : State) : Unmoved s (effectHReadReg idx s) := by
  unfold effectHReadReg
  split
  · exact unmoved_raiseError s _ _
  · exact unmoved_respond s _ _ _

/-- Only H.READ_REG is legal in FATAL (60_exceptions.md R193). -/
theorem eq_hReadReg_of_fatal {i : Instr} (h : LState.fatal ∈ legalStates i) : ∃ idx, i = .hReadReg idx := by
  cases i with
  | hReadReg idx => exact ⟨idx, rfl⟩
  | _ => simp [legalStates] at h

/-- Settles O37: the common checks refuse every other command, and neither an error nor H.READ_REG moves anything. -/
theorem fatalIsFinal : Obligations.FatalIsFinal := by
  intro i s t hfatal h
  suffices hfinal : ((s.dataIn i.port).length ≠ payloadBeats i → AfterError s .illegal i.port t) ∧
      ((s.dataIn i.port).length = payloadBeats i → (∀ idx, i ≠ .hReadReg idx) → AfterError s .state i.port t) ∧
      Unmoved s t by
    rwa [Unmoved, hfatal] at hfinal
  rcases exec_cases h with ⟨hp, ht⟩ | ⟨hp, -, ht⟩ | ⟨hp, hl, ht⟩ <;> cases ht
  · exact ⟨fun _ => raiseError_after .., fun hp' => absurd hp' hp, unmoved_raiseError ..⟩
  · exact ⟨fun hp' => absurd hp hp', fun _ _ => raiseError_after .., unmoved_raiseError ..⟩
  · obtain ⟨idx, rfl⟩ := eq_hReadReg_of_fatal (hfatal ▸ (legal_iff.mp hl).1)
    exact ⟨fun hp' => absurd hp hp', fun _ hi => absurd rfl (hi idx), unmoved_effectHReadReg idx s⟩

end Sys2Proof.Machine
end

section
/-! SUPPORT. The single commands of port H (43_lifecycle.md R161 to R168): the rule of each (O11 to O18). -/

namespace Sys2Proof.Machine

/-- Settles O11: H.INIT leaves no written byte. -/
theorem hInitRule : Obligations.HInitRule := by
  refine ⟨rfl, commonChecks .hInit, fun s hin hl => ?_⟩
  have hpass : Passes .hInit s := passes_host rfl (congrArg List.length hin) (List.mem_singleton.mpr hl) nofun
  have hexec := hpass.exec_answers (u := (s.emptyBuffer.setDropped 0#32).setStatus
    { s.status with overrun := false, started := false, lstate := .ready }) hin rfl
  exact ⟨_, hexec, memByte_of_nil rfl, rfl⟩

/-- Settles O12: beside the response only LSTATE is written. -/
theorem hActivateRule : Obligations.HActivateRule := by
  refine ⟨rfl, commonChecks .hActivate, fun s hin hl => ?_⟩
  have hpass : Passes .hActivate s := passes_host rfl (congrArg List.length hin) (List.mem_singleton.mpr hl) nofun
  exact hpass.exec_answers (u := s.setLState .active) hin rfl

/-- A render's steps neither read nor write LSTATE (43_lifecycle.md R163). -/
theorem renderStep_setLState (q : RenderSeq) (s : State) (l : LState) :
    renderStep q (s.setLState l) = (renderStep q s).setLState l := by
  cases hphase : q.phase with
  | chunk =>
    rw [renderStep_chunk hphase, renderStep_chunk hphase]
    simp only [renderChunk, apply_ite (State.setLState · l)]
    rfl
  | fill =>
    rw [renderStep_fill hphase, renderStep_fill hphase]
    rfl

/-- Settles O13: beside the response only LSTATE is written, which a render in progress does not read and the consumer's
commands are checked against. -/
theorem hDeactivateRule : Obligations.HDeactivateRule := by
  refine ⟨rfl, commonChecks .hDeactivate, fun s hin hl => ?_, fun s l q => renderStep_setLState q s l,
    fun i s hi hready hc => ?_⟩
  · have hpass : Passes .hDeactivate s := passes_host rfl (congrArg List.length hin) (List.mem_singleton.mpr hl) nofun
    exact hpass.exec_answers (u := s.setLState .ready) hin rfl
  · have hempty : (s.dataIn i.port).length = 0 := by simp [hi, State.dataIn, hc]
    exact (commonChecks_consumer hi s).2 hempty (by simp [hready])

theorem effectHStart_of_supported {rate : BitVec 26} {s : State} (h : rate.toNat = s.rate) :
    effectHStart rate s = (s.setStatus { s.status with started := true }).respond .host .ok [0#32] :=
  if_neg (not_not.mpr h)

theorem effectHStart_of_unsupported {rate : BitVec 26} {s : State} (h : rate.toNat ≠ s.rate) :
    effectHStart rate s = s.fatal.raiseError .rate .host :=
  if_pos h

/-- Settles O14: by the rate, STARTED or the fatal transition. -/
theorem hStartRule : Obligations.HStartRule := by
  refine ⟨fun _ => encode_eq_or .host 4#4 rfl rfl rfl, fun rate => commonChecks (.hStart rate), fun s rate hin hl => ?_⟩
  have hpass : Passes (.hStart rate) s := passes_host rfl (congrArg List.length hin) hl nofun
  split
  · next h =>
    exact hpass.exec_answers (u := s.setStatus { s.status with started := true }) hin (effectHStart_of_supported h)
  · next h =>
    exact hpass.exec_answers (u := s.fatal.setStatus (statusWithError .rate s.fatal.status)) hin
      (effectHStart_of_unsupported h)

/-- Settles O15: nothing but the response. -/
theorem hStopRule : Obligations.HStopRule := by
  refine ⟨rfl, commonChecks .hStop, fun s hin hl => ?_⟩
  have hpass : Passes .hStop s := passes_host rfl (congrArg List.length hin) hl nofun
  exact hpass.exec_answers hin rfl

/-- Settles O16: a busy sequencer makes H.DEINIT illegal in every state; done, it leaves no written byte. -/
theorem hDeinitRule : Obligations.HDeinitRule := by
  refine ⟨rfl, commonChecks .hDeinit, fun s hin hbusy => ?_, fun s hin hl hp hc => ?_⟩
  · refine raises_state (congrArg List.length hin) (Bool.eq_false_iff.mpr fun hl => ?_)
    obtain ⟨hp, hc⟩ := (legal_iff.mp hl).2 rfl
    exact hbusy.elim (absurd hp) (absurd hc)
  · have hpass : Passes .hDeinit s :=
      passes_host rfl (congrArg List.length hin) (List.mem_singleton.mpr hl) fun _ => ⟨hp, hc⟩
    have hexec := hpass.exec_answers (u := s.emptyBuffer.setStatus
      { s.status with started := false, lstate := .closed }) hin rfl
    exact ⟨_, hexec, memByte_of_nil rfl, rfl⟩

theorem effectHSetVolume_of_beat {s : State} {v : Word} (h : s.hIn = [v]) :
    effectHSetVolume s = (s.setVolume v).respond .host .ok [0#32] := by
  simp [effectHSetVolume, h]

/-- Settles O17: the one beat of the payload becomes VOLUME, whatever its pattern. -/
theorem hSetVolumeRule : Obligations.HSetVolumeRule := by
  refine ⟨rfl, commonChecks .hSetVolume, fun s v hin hl => ?_⟩
  have hpass : Passes .hSetVolume s := ⟨congrArg List.length hin, bne_iff_ne.mpr hl⟩
  exact hpass.exec_eq.trans (congrArg _ (effectHSetVolume_of_beat hin))

/-- Zeros above an operand do not change its value. -/
theorem setWidth_zero_append {n m : Nat} (x : BitVec m) (k : Nat) : ((0#n) ++ x).setWidth k = x.setWidth k := by
  apply BitVec.eq_of_toNat_eq
  simp [BitVec.toNat_append]

theorem effectHReadReg_of_some {idx : BitVec 3} {s : State} {v : Word} (h : readRegister idx s = some v) :
    effectHReadReg idx s = s.respond .host .ok [v] := by
  simp [effectHReadReg, h]

theorem passes_hReadReg {s : State} (hin : s.hIn = []) (idx : BitVec 3) : Passes (.hReadReg idx) s :=
  ⟨congrArg List.length hin, rfl⟩

/-- Settles O18: each of the indices 0 to 6 names a register, and index 7 none. -/
theorem hReadRegRule : Obligations.HReadRegRule := by
  refine ⟨fun idx => ?_, fun idx => commonChecks (.hReadReg idx), rfl, fun s hin => (passes_hReadReg hin 7#3).raises rfl,
    fun s hin r hr => ?_⟩
  · rw [← setWidth_zero_append (n := 23) idx 32]
    exact encode_eq_or .host 8#4 rfl rfl rfl
  · have hread : readRegister r.1 s = some r.2 := by
      simp only [List.mem_cons, List.not_mem_nil, or_false] at hr
      rcases hr with rfl | rfl | rfl | rfl | rfl | rfl | rfl <;> rfl
    exact (passes_hReadReg hin r.1).exec_answers hin (effectHReadReg_of_some hread)

end Sys2Proof.Machine
end

section
/-! SUPPORT. No run stops (60_exceptions.md R192, R195): every step answers a next state that meets the invariant again, and so
does every number of steps (O59). -/

namespace Sys2Proof.Machine

/-- What every step answers with is what every run answers with. -/
theorem run_answers {P : State → Prop} (hstep : ∀ s, P s → ∃ t, step s = .next t ∧ P t) (k : Nat) {s : State} (hs : P s) :
    ∃ t, Sys2Proof.core.run k s = .next t ∧ P t := by
  induction k generalizing s with
  | zero => exact ⟨s, rfl, hs⟩
  | succ k ih =>
    obtain ⟨u, hu, hPu⟩ := hstep s hs
    rw [run_succ hu]
    exact ih hPu

/-- Every step of a state that meets the invariant answers a state that meets it. -/
theorem step_keeps_inv (s : State) (hs : Inv s) : ∃ t, step s = .next t ∧ Inv t := by
  obtain ⟨t, ht, hseq⟩ := stepKeepsSequencers s hs.sequencers
  exact ⟨t, ht,
    { cursors := stepKeepsCursorOrder s t hs.cursors ht
      mem := (stepKeepsMemoryForm s t hs.cursors.params hs.mem ht).2
      written := stepKeepsReadableWritten s t hs.cursors hs.written ht
      sequencers := hseq }⟩

/-- Settles O59, by induction on the number of steps: the invariant, and the sequencers alone, are kept by every step. -/
theorem runNeverStops : Obligations.RunNeverStops :=
  ⟨fun _ k => run_answers step_keeps_inv k, fun _ k => run_answers stepKeepsSequencers k⟩

end Sys2Proof.Machine
end

section
/-! SUPPORT. The legality table as a whole (60_exceptions.md R193, O36): E_STATE is raised by the common checks alone, and the
later steps of a running play, like those of a render, do not look at LSTATE. -/

namespace Sys2Proof.Machine

/-- The rows and columns of the table that forbid a command. -/
theorem legal_eq_false_iff {i : Instr} {s : State} : legal i s = false ↔
    s.status.lstate ∉ legalStates i ∨ (i = .hDeinit ∧ (s.pSeq ≠ none ∨ s.cSeq ≠ none)) := by
  rw [← Bool.not_eq_true, legal_iff, not_and_or, Classical.not_imp, not_and_or]

/-- No command's own effect raises E_STATE (60_exceptions.md R194): an error it may raise is of another class. -/
theorem effectOf_eState (i : Instr) (s : State) : (effectOf i s).status.eState = s.status.eState := by
  cases i with
  | hStart | hSetVolume | hReadReg | pPlay | cRender =>
    simp only [effectOf, effectHStart, effectHSetVolume, effectHReadReg, effectPPlay, effectCRender]
    split <;> rfl
  | pWrite | cAdvance =>
    simp only [effectOf, effectPWrite, effectCAdvance]
    split
    · rfl
    · split <;> rfl
  | cLoadf =>
    simp only [effectOf, effectCLoadf]
    split
    · rfl
    · split
      · rfl
      · split <;> rfl
  | _ => rfl

/-- A play's write steps neither read nor write LSTATE (60_exceptions.md R193): they hold, or write the same bytes. -/
theorem playStep_setLState {q : PlaySeq} {s t : State} (l : LState) (h : playStep q s = .next t) :
    playStep q (s.setLState l) = .next (t.setLState l) := by
  rcases playStep_cases q s with ⟨hnone, hr⟩ | ⟨-, hr⟩ | ⟨hpay, hpos, -⟩ | ⟨hpay, hpos, -⟩
  · cases hr.symm.trans h
    exact if_pos hnone
  · cases hr.symm.trans h
  all_goals
    cases (playStep_write rfl hpos hpay).symm.trans h
    exact playStep_write (s := s.setLState l) rfl hpos hpay

/-- Settles O36: the common checks raise E_STATE exactly where the table forbids the command, a command that passes them never
does, and no later step of a render or play looks at LSTATE. -/
theorem legalityTable : Obligations.LegalityTable := by
  refine ⟨fun i s hp => ⟨fun hout => raises_state hp (legal_eq_false_iff.mpr hout), fun hin => ?_⟩,
    fun s l q => renderStep_setLState q s l, fun _ _ l _ => playStep_setLState l⟩
  have hpass : Passes i s := ⟨hp, eq_true_of_ne_false (mt legal_eq_false_iff.mp hin)⟩
  exact ⟨_, hpass.exec_eq, effectOf_eState i s⟩

end Sys2Proof.Machine
end

section
/-! SUPPORT. The reset event (70_reset_and_hazards.md R210, O2), and the ports that wait or run one command (R211,
30_encoding.md R82, O9): what the issuers have still to issue and have issued is a piece of the state that only an issue moves. -/

namespace Sys2Proof.Machine

/-- Settles O2: the next state is the one `State.resetEvent` spells out, and none of its bytes is written. -/
theorem resetEventClears : Obligations.ResetEventClears := fun s rest hsched =>
  ⟨(s.setSched rest).resetEvent, step_of_sched_cons hsched, rfl, (show State.reset.statusWord = 0#32 by decide),
    rfl, rfl, rfl, rfl, rfl, rfl, memByte_of_nil rfl, rfl, rfl, rfl, rfl, rfl, rfl, rfl, rfl, rfl, rfl, rfl⟩

/-! ## The issuers' piece of the state -/

/-- The state with every piece blanked but the commands still to issue and the counts of issues (log 4, 24). -/
def State.issuers (s : State) : State :=
  { State.reset with
    hCmds := s.hCmds, pCmds := s.pCmds, cCmds := s.cCmds
    hIssued := s.hIssued, pIssued := s.pIssued, cIssued := s.cIssued }

theorem State.cmds_issuers (s : State) (port : Port) : s.issuers.cmds port = s.cmds port := by cases port <;> rfl

theorem State.issued_issuers (s : State) (port : Port) : s.issuers.issued port = s.issued port := by cases port <;> rfl

theorem State.issued_setSched (s : State) (rest : List Choice) (port : Port) :
    (s.setSched rest).issued port = s.issued port := by
  cases port <;> rfl

/-- An issue counts on its own port. -/
theorem State.issued_accept (s : State) (p port : Port) (cmd : Command) (q : List Command) :
    (s.accept p cmd q).issued port = if p = port then s.issued port + 1 else s.issued port := by
  cases p <;> cases port <;> simp [State.accept, State.issued]

/-- An issue takes from the queue of its own port. -/
theorem State.cmds_accept (s : State) (p port : Port) (cmd : Command) (q : List Command) :
    (s.accept p cmd q).cmds port = if p = port then q else s.cmds port := by
  cases p <;> cases port <;> simp [State.accept, State.cmds]

/-- Only the issue before a move touches the issuers' piece. -/
theorem Move.issuers {c : Choice} {s t : State} (h : Move s c t) : t.issuers = s.issuers := by
  cases h with
  | raise c port | answer c port => cases port <;> rfl
  | syncW d => rw [State.syncW_eq]; rfl
  | syncR d => rw [State.syncR_eq]; rfl
  | _ => rfl

theorem Move.issued {c : Choice} {s t : State} (h : Move s c t) (port : Port) : t.issued port = s.issued port := by
  rw [← t.issued_issuers, h.issuers, s.issued_issuers]

theorem Move.cmds {c : Choice} {s t : State} (h : Move s c t) (port : Port) : t.cmds port = s.cmds port := by
  rw [← t.cmds_issuers, h.issuers, s.cmds_issuers]

/-- The agent of a busy port goes on with the port's command: it moves without an issue (30_encoding.md R82). -/
theorem agentStep_busy_move {port : Port} {s t : State} (hbusy : s.idle port = false)
    (h : agentStep (agentOf port) s = .next t) : Move s (agentOf port) t := by
  cases port with
  | host => cases hbusy
  | producer =>
    cases hq : s.pSeq with
    | none => rw [State.idle_producer_iff.mpr hq] at hbusy; cases hbusy
    | some q => exact playStep_move hq ((agentStep_producer_busy hq).symm.trans h)
  | consumer =>
    cases hq : s.cSeq with
    | none => rw [State.idle_consumer_iff.mpr hq] at hbusy; cases hbusy
    | some q =>
      cases (agentStep_consumer_busy hq).symm.trans h
      exact renderStep_move hq

/-- Settles O9: an empty schedule and an empty queue leave nothing to do, and a busy port's step is a move without an issue. -/
theorem portsWaitOrRunOneCommand : Obligations.PortsWaitOrRunOneCommand := by
  refine ⟨fun s hsched => ?_, fun s port rest => step_of_idle_nil, fun s t port rest hsched hbusy h => ?_⟩
  · rw [step, hsched]
  · have hmove : Move (s.setSched rest) (agentOf port) t :=
      agentStep_busy_move ((s.idle_setSched rest port).trans hbusy) ((step_of_sched_cons hsched).symm.trans h)
    simpa [State.issuers] using hmove.issuers

end Sys2Proof.Machine
end

section
/-! SUPPORT. Infinite runs and weak fairness (70_reset_and_hazards.md R219): the state a step of a run is made in, invariants
along a run, and the one argument by which fairness gives progress. -/

namespace Sys2Proof.Machine

variable {run : Nat → State} {choice : Nat → Choice} {n : Nat}

/-- `u` is what `s` is when choice `c` steps: the issuers may have added commands, and `c` alone is scheduled
(70_reset_and_hazards.md R222). -/
structure Prepared (s : State) (c : Choice) (u : State) : Prop where
  sched : u.sched = [c]
  ring : u.ring = s.ring
  pSeq : u.pSeq = s.pSeq
  cSeq : u.cSeq = s.cSeq
  status : u.status = s.status
  issued : ∀ port, u.issued port = s.issued port
  cmds : ∀ port, s.cmds port ≠ [] → u.cmds port ≠ []

/-- What reads the ring buffer only is the same in the prepared state. -/
theorem Prepared.of_ring {α : Type} {s u : State} {c : Choice} (hu : Prepared s c u) (f : State → α)
    (hf : ∀ v : State, f v.ring = f v) : f u = f s := by
  rw [← hf u, hu.ring, hf s]

/-- Every step of a run is the machine's step in the prepared state. -/
theorem IsRun.step_next (hrun : IsRun run choice) (n : Nat) :
    ∃ u, Prepared (run n) (choice n) u ∧ step u = .next (run (n + 1)) := by
  obtain ⟨_, ⟨h, p, c, rfl⟩, hstep⟩ := hrun n
  refine ⟨_, ?_, hstep⟩
  refine ⟨rfl, rfl, rfl, rfl, rfl, fun port => ?_, fun port hne => ?_⟩
  · cases port <;> rfl
  · cases port <;> exact List.append_ne_nil_of_left_ne_nil hne _

/-- What every step of a run keeps holds from then on. -/
theorem IsRun.keeps {P : State → Prop} (hrun : IsRun run choice)
    (hstep : ∀ {s u t : State} {c : Choice}, Prepared s c u → step u = .next t → P s → P t) (hn : P (run n)) :
    ∀ m, n ≤ m → P (run m) := by
  intro m hm
  induction m, hm using Nat.le_induction with
  | base => exact hn
  | succ m _ ih =>
    obtain ⟨u, hu, ht⟩ := hrun.step_next m
    exact hstep hu ht ih

theorem IsRun.keeps_sequencers (hrun : IsRun run choice) (hn : SequencersFormed (run n)) :
    ∀ m, n ≤ m → SequencersFormed (run m) := by
  refine hrun.keeps (fun {s u t c} hu ht hs => ?_) hn
  have hformed : SequencersFormed u :=
    hs.of_eq hu.pSeq hu.cSeq (congrArg Status.lstate hu.status) fun _ he => hu.status ▸ he
  obtain ⟨t', ht', hkept⟩ := stepKeepsSequencers u hformed
  cases ht'.symm.trans ht
  exact hkept

theorem Prepared.cursorsInOrder {s u : State} {c : Choice} (hu : Prepared s c u) (hs : CursorsInOrder s) : CursorsInOrder u := by
  rwa [← cursorsInOrder_ring, hu.ring, cursorsInOrder_ring]

theorem IsRun.keeps_cursors (hrun : IsRun run choice) (hn : CursorsInOrder (run n)) :
    ∀ m, n ≤ m → CursorsInOrder (run m) :=
  hrun.keeps (fun hu ht hs => stepKeepsCursorOrder _ _ (hu.cursorsInOrder hs) ht) hn

/-- The argument of every clause on progress: a measure that no step raises and every taken step of `f` lowers, while `f` is
enabled until it is 0, comes to 0 in a weakly fair run. -/
theorem WeaklyFair.reaches_zero (hfair : WeaklyFair run choice) (f : FairStep) {μ : Nat → Nat}
    (henabled : ∀ m, n ≤ m → 0 < μ m → f.Enabled (run m))
    (hfalls : ∀ m, n ≤ m → 0 < μ m → μ (m + 1) ≤ μ m ∧ (f.Taken (run m) (choice m) → μ (m + 1) < μ m)) :
    ∃ m, n ≤ m ∧ μ m = 0 := by
  induction hμ : μ n using Nat.strong_induction_on generalizing n with
  | _ k ih =>
    by_contra hnone
    have hpos (m : Nat) (hm : n ≤ m) : 0 < μ m := Nat.pos_of_ne_zero fun h => hnone ⟨m, hm, h⟩
    have hle (m : Nat) (hm : n ≤ m) : μ m ≤ μ n := by
      induction m, hm using Nat.le_induction with
      | base => exact Nat.le_refl _
      | succ m hm hmn => exact (hfalls m hm (hpos m hm)).1.trans hmn
    obtain ⟨m, hm, htaken⟩ := hfair f n fun m hm => henabled m hm (hpos m hm)
    have hlt : μ (m + 1) < k := ((hfalls m hm (hpos m hm)).2 htaken).trans_le (hμ ▸ hle m hm)
    obtain ⟨m', hm', hzero⟩ := ih _ hlt (n := m + 1) (fun j hj => henabled j (by omega)) (fun j hj => hfalls j (by omega)) rfl
    exact hnone ⟨m', by omega, hzero⟩

end Sys2Proof.Machine
end

section
/-! SUPPORT. Progress in weakly fair runs (70_reset_and_hazards.md R219, O60), one clause after the other: an issue, a render,
a P.PLAY with room, and the two views. -/

namespace Sys2Proof.Machine

variable {run : Nat → State} {choice : Nat → Choice} {n : Nat}

/-! ## A waiting command is issued -/

/-- The agent of an idle port with a waiting command issues it. -/
theorem step_issues {port : Port} {s t : State} {rest : List Choice} (hsched : s.sched = agentOf port :: rest)
    (hwaits : FairStep.Enabled (.issue port) s) (h : step s = .next t) : t.issued port = s.issued port + 1 := by
  obtain ⟨hidle, hne⟩ := hwaits
  have haccepts (cmd : Command) (q : List Command) :
      ((s.setSched rest).accept port cmd q).issued port = s.issued port + 1 := by
    rw [State.issued_accept, if_pos rfl, State.issued_setSched]
  rcases issueStep_cases ((step_agentOf_idle hsched hidle).symm.trans h) with ⟨hnil, -⟩ | ⟨cmd, q, u, -, hu, hfirst⟩
  · exact absurd ((s.cmds_setSched rest port).symm.trans hnil) hne
  · obtain rfl : u = (s.setSched rest).accept port cmd q := hu
    rcases hfirst with ⟨-, -, ht⟩ | ⟨i, -, ht⟩
    · cases ht
      exact ((Move.raise _ port rfl .illegal).issued port).trans (haccepts cmd q)
    · exact ((exec_move ht.symm).issued port).trans (haccepts cmd q)

/-- No agent but P starts a play or goes on with one. -/
theorem step_play_cases {c : Choice} {s t : State} {rest : List Choice} (hsched : s.sched = c :: rest)
    (hc : c ≠ .agentP) (h : step s = .next t) : t.pSeq = s.pSeq ∨ t.pSeq = none := by
  by_cases hreset : c = .reset
  · subst hreset
    cases (step_of_sched_cons hsched).symm.trans h
    exact .inr rfl
  · obtain ⟨u, hissue, hmove⟩ := step_moves_of_sched hsched h
    have hcases := hmove.play_cases hc hreset
    rw [hissue.pSeq] at hcases
    exact hcases.imp_right fun hfatal => hfatal.2.1

/-- An idle port stays idle while other agents step. -/
theorem step_keeps_idle {port : Port} {c : Choice} {s t : State} {rest : List Choice} (hsched : s.sched = c :: rest)
    (hc : c ≠ agentOf port) (hidle : s.idle port = true) (h : step s = .next t) : t.idle port = true := by
  cases port with
  | host => rfl
  | producer =>
    rw [State.idle_producer_iff] at hidle ⊢
    exact (step_play_cases hsched hc h).elim (·.trans hidle) id
  | consumer =>
    rw [State.idle_consumer_iff] at hidle ⊢
    exact (step_render_cases hsched hc h).2.elim (·.trans hidle) And.left

/-- An issue on another port leaves a port's queue and count. -/
theorem Issue.other_port {port : Port} {c : Choice} {s u : State} (h : Issue s c u) (hc : c ≠ agentOf port) :
    u.cmds port = s.cmds port ∧ u.issued port = s.issued port := by
  cases h with
  | none => exact ⟨rfl, rfl⟩
  | accept p cmd q hp =>
    have hother : p ≠ port := fun heq => hc (heq ▸ hp)
    rw [State.cmds_accept, State.issued_accept, if_neg hother, if_neg hother]
    exact ⟨rfl, rfl⟩

/-- While other agents step, a waiting command waits on. -/
theorem step_keeps_waiting {port : Port} {c : Choice} {s t : State} {rest : List Choice} (hsched : s.sched = c :: rest)
    (hc : c ≠ agentOf port) (hwaits : FairStep.Enabled (.issue port) s) (h : step s = .next t) :
    FairStep.Enabled (.issue port) t ∧ t.issued port = s.issued port := by
  obtain ⟨u, hissue, hmove⟩ := step_moves_of_sched hsched h
  obtain ⟨hcmds, hissued⟩ := hissue.other_port hc
  refine ⟨⟨step_keeps_idle hsched hc hwaits.1 h, ?_⟩, ?_⟩
  · rw [hmove.cmds, hcmds, State.cmds_setSched]
    exact hwaits.2
  · rw [hmove.issued, hissued, State.issued_setSched]

theorem Prepared.waits {port : Port} {c : Choice} {s u : State} (hu : Prepared s c u)
    (h : FairStep.Enabled (.issue port) s) : FairStep.Enabled (.issue port) u := by
  have hidle : u.idle port = s.idle port := by
    cases port <;> simp [State.idle, State.pBusy, State.cBusy, hu.pSeq, hu.cSeq]
  exact ⟨hidle.trans h.1, hu.cmds port h.2⟩

/-- What a step of a run does to a waiting command. -/
theorem IsRun.waiting_step (hrun : IsRun run choice) {port : Port} (hwaits : FairStep.Enabled (.issue port) (run n)) :
    (choice n = agentOf port ∧ (run (n + 1)).issued port = (run n).issued port + 1) ∨
    (choice n ≠ agentOf port ∧ FairStep.Enabled (.issue port) (run (n + 1)) ∧
      (run (n + 1)).issued port = (run n).issued port) := by
  obtain ⟨u, hu, ht⟩ := hrun.step_next n
  rw [← hu.issued]
  by_cases hc : choice n = agentOf port
  · exact .inl ⟨hc, step_issues (hc ▸ hu.sched) (hu.waits hwaits) ht⟩
  · exact .inr ⟨hc, step_keeps_waiting hu.sched hc (hu.waits hwaits) ht⟩

theorem IsRun.issues (hrun : IsRun run choice) (hfair : WeaklyFair run choice) {port : Port}
    (hwaits : FairStep.Enabled (.issue port) (run n)) : ∃ m, n < m ∧ (run n).issued port < (run m).issued port := by
  by_contra hnone
  have hstays (m : Nat) (hm : n ≤ m) :
      FairStep.Enabled (.issue port) (run m) ∧ (run m).issued port = (run n).issued port := by
    induction m, hm using Nat.le_induction with
    | base => exact ⟨hwaits, rfl⟩
    | succ m hm ih =>
      obtain ⟨hw, hissued⟩ := ih
      rcases hrun.waiting_step hw with ⟨-, hcount⟩ | ⟨-, hw', hsame⟩
      · exact absurd ⟨m + 1, by omega, by omega⟩ hnone
      · exact ⟨hw', hsame.trans hissued⟩
  obtain ⟨m, hm, hc⟩ := hfair (.issue port) n fun m hm => (hstays m hm).1
  obtain ⟨hw, hissued⟩ := hstays m hm
  rcases hrun.waiting_step hw with ⟨-, hcount⟩ | ⟨hother, -⟩
  · exact hnone ⟨m + 1, by omega, by omega⟩
  · exact hother hc

/-! ## A render ends -/

theorem State.renderStepsLeft_pos {s : State} (h : s.cSeq ≠ none) : 0 < s.renderStepsLeft := by
  obtain ⟨q, hq⟩ := Option.ne_none_iff_exists'.mp h
  cases hphase : q.phase with
  | chunk => rw [State.renderStepsLeft_of_chunk hq hphase]; omega
  | fill => rw [State.renderStepsLeft_of_fill hq hphase]; omega

/-- The bound of 41_render_convert.md R144 falls along a run while a render runs. -/
theorem IsRun.render_step (hrun : IsRun run choice) (hbusy : (run n).cSeq ≠ none) :
    (run (n + 1)).renderStepsLeft ≤ (run n).renderStepsLeft ∧
    (FairStep.Taken .render (run n) (choice n) → (run (n + 1)).renderStepsLeft < (run n).renderStepsLeft) := by
  obtain ⟨u, hu, ht⟩ := hrun.step_next n
  obtain ⟨-, hown, hother⟩ := renderStepBound
  have hsame : u.renderStepsLeft = (run n).renderStepsLeft := by
    unfold State.renderStepsLeft
    rw [hu.cSeq]
  rw [← hsame]
  by_cases hc : choice n = .agentC
  · obtain ⟨q, hq⟩ := Option.ne_none_iff_exists'.mp hbusy
    obtain ⟨t, ht', hlt⟩ := hown u q [] (hc ▸ hu.sched) (hu.cSeq.trans hq)
    cases ht'.symm.trans ht
    exact ⟨hlt.le, fun _ => hlt⟩
  · exact ⟨hother u _ _ [] hu.sched hc ht, fun htaken => absurd htaken hc⟩

theorem IsRun.render_ends (hrun : IsRun run choice) (hfair : WeaklyFair run choice) (hbusy : (run n).cSeq ≠ none) :
    ∃ m, n < m ∧ (run m).cSeq = none := by
  have hruns (m : Nat) (h : 0 < (run m).renderStepsLeft) : (run m).cSeq ≠ none := fun hnone =>
    h.ne' (State.renderStepsLeft_of_none hnone)
  obtain ⟨m, hm, hzero⟩ := hfair.reaches_zero (n := n) .render (μ := fun m => (run m).renderStepsLeft)
    (fun m _ => hruns m) (fun m _ h => hrun.render_step (hruns m h))
  have hdone : (run m).cSeq = none := by
    by_contra h
    exact (State.renderStepsLeft_pos h).ne' hzero
  exact ⟨m, lt_of_le_of_ne hm fun heq => hbusy (heq ▸ hdone), hdone⟩

/-! ## A play with room ends -/

/-- The bytes a running P.PLAY has not written yet; 0 when none runs (42_feeder.md R150). -/
def State.bytesOwed (s : State) : Nat :=
  match s.pSeq with
  | none => 0
  | some q => q.rem

theorem State.bytesOwed_of_some {s : State} {q : PlaySeq} (h : s.pSeq = some q) : s.bytesOwed = q.rem := by
  simp [State.bytesOwed, h]

theorem State.bytesOwed_of_none {s : State} (h : s.pSeq = none) : s.bytesOwed = 0 := by
  simp [State.bytesOwed, h]

/-- With a whole frame free in view, a running play has a write step to take (42_feeder.md R154). -/
theorem PlayFormed.accepts {s u : State} {q : PlaySeq} (hq : PlayFormed s q) (hroom : 4 ≤ u.freeP) :
    0 < u.acceptedBytes q.rem := by
  have howes := hq.owes
  have hbeats := hq.beats
  unfold State.acceptedBytes
  omega

/-- A write step that accepts bytes owes fewer. -/
theorem playStep_owes_less {q : PlaySeq} {s t : State} (haccepts : 0 < s.acceptedBytes q.rem) (h : playStep q s = .next t) :
    t.bytesOwed < q.rem := by
  have hle := (acceptedBytes_spec s q.rem).2.1
  rcases playStep_cases q s with ⟨hhold, -⟩ | ⟨-, hr⟩ | ⟨-, -, -, hr⟩ | ⟨-, -, -, hr⟩
  · omega
  all_goals cases hr.symm.trans h
  · exact haccepts.trans_le hle
  · exact Nat.sub_lt (haccepts.trans_le hle) haccepts

theorem IsRun.play_step (hrun : IsRun run choice) {q : PlaySeq} (hq : (run n).pSeq = some q) (hformed : PlayFormed (run n) q)
    (hroom : 4 ≤ (run n).freeP) :
    (run (n + 1)).bytesOwed ≤ (run n).bytesOwed ∧
    (FairStep.Taken .playWrite (run n) (choice n) → (run (n + 1)).bytesOwed < (run n).bytesOwed) := by
  obtain ⟨u, hu, ht⟩ := hrun.step_next n
  rw [State.bytesOwed_of_some hq]
  by_cases hc : choice n = .agentP
  · have hplay := (step_play (hc ▸ hu.sched) (hu.pSeq.trans hq)).symm.trans ht
    have hfree : (u.setSched []).freeP = (run n).freeP := hu.of_ring State.freeP fun _ => rfl
    have hlt := playStep_owes_less (hformed.accepts (hroom.trans_eq hfree.symm)) hplay
    exact ⟨hlt.le, fun _ => hlt⟩
  · refine ⟨?_, fun htaken => absurd htaken hc⟩
    rcases step_play_cases hu.sched hc ht with hsame | hnone
    · rw [State.bytesOwed_of_some ((hsame.trans hu.pSeq).trans hq)]
    · rw [State.bytesOwed_of_none hnone]
      exact Nat.zero_le _

theorem IsRun.play_ends (hrun : IsRun run choice) (hfair : WeaklyFair run choice) (hformed : SequencersFormed (run n))
    (hbusy : (run n).pSeq ≠ none) (hroom : ∀ m, n ≤ m → (run m).pSeq ≠ none → 4 ≤ (run m).freeP) :
    ∃ m, n < m ∧ (run m).pSeq = none := by
  have hruns (m : Nat) (hm : n ≤ m) (h : 0 < (run m).bytesOwed) :
      ∃ q, (run m).pSeq = some q ∧ PlayFormed (run m) q ∧ 4 ≤ (run m).freeP := by
    have hbusy' : (run m).pSeq ≠ none := fun hnone => h.ne' (State.bytesOwed_of_none hnone)
    obtain ⟨q, hq⟩ := Option.ne_none_iff_exists'.mp hbusy'
    exact ⟨q, hq, (hrun.keeps_sequencers hformed m hm).play q hq, hroom m hm hbusy'⟩
  obtain ⟨m, hm, hzero⟩ := hfair.reaches_zero (n := n) .playWrite (μ := fun m => (run m).bytesOwed)
    (fun m hm h => let ⟨q, hq, hplay, hfree⟩ := hruns m hm h; ⟨q, hq, hplay.accepts hfree⟩)
    (fun m hm h => let ⟨_, hq, hplay, hfree⟩ := hruns m hm h; hrun.play_step hq hplay hfree)
  have hdone : (run m).pSeq = none := by
    by_contra h
    obtain ⟨q, hq⟩ := Option.ne_none_iff_exists'.mp h
    have howes := ((hrun.keeps_sequencers hformed m hm).play q hq).owes
    exact howes.ne' ((State.bytesOwed_of_some hq).symm.trans hzero)
  exact ⟨m, lt_of_le_of_ne hm fun heq => hbusy (heq ▸ hdone), hdone⟩

/-! ## Views catch up -/

/-- The two directions of the link: WVIEW follows WPTR, RVIEW follows RPTR (20_memory.md R54, R55). -/
inductive Side where
  | write
  | read

/-- The cursor whose value the link carries. -/
def Side.cursor (side : Side) (s : State) : Nat :=
  match side with
  | .write => s.wptr
  | .read => s.rptr

/-- The view that follows it. -/
def Side.view (side : Side) (s : State) : Nat :=
  match side with
  | .write => s.wview
  | .read => s.rview

/-- The agent that publishes the cursor (20_memory.md R53). -/
def Side.owner (side : Side) : Choice :=
  match side with
  | .write => .agentP
  | .read => .agentC

/-- The link step with its draw. -/
def Side.sync (side : Side) (d : Nat) : Choice :=
  match side with
  | .write => .syncW d
  | .read => .syncR d

/-- The link step as a step that fairness speaks of. -/
def Side.fairStep (side : Side) : FairStep :=
  match side with
  | .write => .syncW
  | .read => .syncR

/-- How far the view lags behind the cursor. -/
def Side.lag (side : Side) (s : State) : Nat := cursorDist s.cap (side.view s) (side.cursor s)

variable {side : Side}

theorem Side.cursor_ring (side : Side) (s : State) : side.cursor s.ring = side.cursor s := by cases side <;> rfl

theorem Side.view_ring (side : Side) (s : State) : side.view s.ring = side.view s := by cases side <;> rfl

theorem Side.lag_ring (side : Side) (s : State) : side.lag s.ring = side.lag s := by cases side <;> rfl

theorem Side.enabled_iff {s : State} : side.fairStep.Enabled s ↔ 0 < side.lag s := by cases side <;> exact Iff.rfl

theorem Side.taken_iff {s : State} {c : Choice} :
    side.fairStep.Taken s c ↔ ∃ d, c = side.sync d ∧ linkEnabled d (side.lag s) = true := by
  cases side <;> exact Iff.rfl

theorem Side.sync_inj {d d' : Nat} (h : side.sync d = side.sync d') : d = d' := by
  cases side <;> exact (by injection h)

theorem Side.in_range {s : State} (hs : CursorsInOrder s) : side.view s < 2 * s.cap ∧ side.cursor s < 2 * s.cap := by
  cases side with
  | write => exact ⟨hs.wview, hs.wptr.1⟩
  | read => exact ⟨hs.rview, hs.rptr.1⟩

/-- How a view of a still cursor `w` moves from `v` to `v'`: by a link step's draw, or, where the link step is not taken, not
at all or to the cursor (20_memory.md R55, R57). -/
def ViewStep (cap w v v' : Nat) (taken : Prop) : Prop :=
  (¬ taken ∧ (v' = v ∨ v' = w)) ∨ ∃ d, linkEnabled d (cursorDist cap v w) = true ∧ v' = cursorAdv cap v d

/-- A link step's draw moves the view where it is enabled; the step is taken only there. -/
theorem ViewStep.link {cap w v v' d : Nat} {taken : Prop}
    (hv : v' = if linkEnabled d (cursorDist cap v w) then cursorAdv cap v d else v)
    (htaken : taken → linkEnabled d (cursorDist cap v w) = true) : ViewStep cap w v v' taken := by
  by_cases hd : linkEnabled d (cursorDist cap v w) = true
  · exact .inr ⟨d, hd, hv.trans (if_pos hd)⟩
  · exact .inl ⟨fun h => hd (htaken h), .inl (hv.trans (if_neg hd))⟩

/-- A view never gets further behind a still cursor, and a taken link step brings it nearer. -/
theorem ViewStep.nearer {cap w v v' : Nat} {taken : Prop} (hv : v < 2 * cap) (hw : w < 2 * cap)
    (h : ViewStep cap w v v' taken) :
    cursorDist cap v' w ≤ cursorDist cap v w ∧ (taken → cursorDist cap v' w < cursorDist cap v w) := by
  rcases h with ⟨huntaken, rfl | rfl⟩ | ⟨d, hd, rfl⟩
  · exact ⟨Nat.le_refl _, (absurd · huntaken)⟩
  · rw [cursorDist_self hw]
    exact ⟨Nat.zero_le _, (absurd · huntaken)⟩
  · obtain ⟨hpos, hle⟩ := linkEnabled_iff.mp hd
    rw [cursorDist_cursorAdv_left hv hw hle]
    omega

/-- The view after a link step. -/
theorem Side.view_of_sync {s t : State} {d : Nat} (h : agentStep (side.sync d) s = .next t) :
    side.view t = if linkEnabled d (side.lag s) then cursorAdv s.cap (side.view s) d else side.view s := by
  cases side with
  | write => cases h; exact State.syncW_wview s d
  | read => cases h; exact State.syncR_rview s d

/-- What an operation of another agent than the link does to a view: the cursor's owner leaves it, and any other agent leaves
both or makes the view current. -/
theorem RingOp.view_cases {c : Choice} {s t : State} (hop : RingOp s c t) (hc : ∀ d, c ≠ side.sync d) :
    (side.view t = side.view s ∧ (c = side.owner ∨ side.cursor t = side.cursor s)) ∨
    (c ≠ side.owner ∧ side.view t = side.cursor t) := by
  cases side with
  | write =>
    cases hop with
    | keep | advance => exact .inl ⟨rfl, .inr rfl⟩
    | empty _ hagent => exact .inr ⟨by rintro rfl; simp [Side.owner] at hagent, rfl⟩
    | write | seeR => exact .inl ⟨rfl, .inl rfl⟩
    | seeW => exact .inr ⟨nofun, rfl⟩
    | syncW d => exact absurd rfl (hc d)
    | syncR d => rw [State.syncR_eq]; exact .inl ⟨rfl, .inr rfl⟩
  | read =>
    cases hop with
    | keep | write => exact .inl ⟨rfl, .inr rfl⟩
    | empty _ hagent => exact .inr ⟨by rintro rfl; simp [Side.owner] at hagent, rfl⟩
    | advance | seeW => exact .inl ⟨rfl, .inl rfl⟩
    | seeR => exact .inr ⟨nofun, rfl⟩
    | syncR d => exact absurd rfl (hc d)
    | syncW d => rw [State.syncW_eq]; exact .inl ⟨rfl, .inr rfl⟩

/-- A step of another agent than the link leaves a view or makes it current: an issue may make it current, but no move that
follows publishes the cursor. -/
theorem step_view_cases {c : Choice} {s t : State} {rest : List Choice} (hsched : s.sched = c :: rest)
    (hc : ∀ d, c ≠ side.sync d) (h : step s = .next t) : side.view t = side.view s ∨ side.view t = side.cursor t := by
  have hkept : side.view t = side.view s ∨ (c ≠ side.owner ∧ side.view t = side.cursor t) := by
    refine step_keeps_ring (P := fun u => side.view u = side.view s ∨ (c ≠ side.owner ∧ side.view u = side.cursor u))
      (fun u => by rw [side.view_ring, side.cursor_ring]) ?_ (.inl rfl) h
    intro c' hc' u v hop hu
    obtain rfl : c = c' := by simpa [hsched] using hc'
    rcases hop.view_cases hc with ⟨hview, hcursor⟩ | hcurrent
    · rw [hview]
      exact hu.imp_right fun ⟨howner, hu⟩ => ⟨howner, hu.trans (hcursor.resolve_left howner).symm⟩
    · exact .inr hcurrent
  exact hkept.imp_right And.right

/-- While the cursor stands still, every step of the machine moves the view towards it or not at all. -/
theorem step_view {c : Choice} {s t : State} {rest : List Choice} (hsched : s.sched = c :: rest) (h : step s = .next t)
    (hstill : side.cursor t = side.cursor s) :
    ViewStep s.cap (side.cursor s) (side.view s) (side.view t) (side.fairStep.Taken s c) := by
  rw [Side.taken_iff]
  by_cases hlink : ∃ d, c = side.sync d
  · obtain ⟨d, rfl⟩ := hlink
    have hview := Side.view_of_sync ((step_of_sched_cons hsched).symm.trans h)
    refine .link hview ?_
    rintro ⟨d', hd', henabled⟩
    exact Side.sync_inj hd' ▸ henabled
  · exact .inl ⟨fun ⟨d, hd, _⟩ => hlink ⟨d, hd⟩, hstill ▸ step_view_cases hsched (fun d hd => hlink ⟨d, hd⟩) h⟩

/-- While the cursor stands still, the view does not fall behind, and each link step taken brings it nearer. -/
theorem IsRun.lag_falls (hrun : IsRun run choice) (hs : CursorsInOrder (run n))
    (hstill : side.cursor (run (n + 1)) = side.cursor (run n)) :
    side.lag (run (n + 1)) ≤ side.lag (run n) ∧
    (side.fairStep.Taken (run n) (choice n) → side.lag (run (n + 1)) < side.lag (run n)) := by
  obtain ⟨u, hu, ht⟩ := hrun.step_next n
  have hcursor : side.cursor u = side.cursor (run n) := hu.of_ring side.cursor side.cursor_ring
  have hlag : side.lag u = side.lag (run n) := hu.of_ring side.lag side.lag_ring
  have hu' := hu.cursorsInOrder hs
  have hnearer := (step_view hu.sched ht (hstill.trans hcursor.symm)).nearer (Side.in_range hu').1 (Side.in_range hu').2
  rw [Side.taken_iff, hlag, ← Side.taken_iff] at hnearer
  rwa [← hlag, Side.lag, (step_params_eq ht).1, hstill, ← hcursor]

theorem IsRun.view_catches_up (hrun : IsRun run choice) (hfair : WeaklyFair run choice) (hs : CursorsInOrder (run n))
    (hstill : ∀ m, n ≤ m → side.cursor (run m) = side.cursor (run n)) :
    ∃ m, n ≤ m ∧ side.view (run m) = side.cursor (run n) := by
  have hord := hrun.keeps_cursors hs
  obtain ⟨m, hm, hzero⟩ := hfair.reaches_zero (n := n) side.fairStep (μ := fun m => side.lag (run m))
    (fun _ _ => Side.enabled_iff.mpr)
    (fun m hm _ => hrun.lag_falls (hord m hm) ((hstill (m + 1) (by omega)).trans (hstill m hm).symm))
  refine ⟨m, hm, ?_⟩
  rw [← hstill m hm]
  by_contra hbehind
  obtain ⟨hview, hcursor⟩ := Side.in_range (side := side) (hord m hm)
  exact (cursorDist_pos hview hcursor hbehind).ne' hzero

/-- Settles O60: a waiting command waits on until its port's agent is chosen, and in each other clause a measure falls with
every step that fairness brings: the render's step bound, the bytes the play owes, the distance the view lags. -/
theorem weakFairnessGivesProgress : Obligations.WeakFairnessGivesProgress := fun _ _ _ hrun hfair =>
  ⟨fun _ hidle hcmds => hrun.issues hfair ⟨hidle, hcmds⟩, hrun.render_ends hfair, hrun.play_ends hfair,
    hrun.view_catches_up (side := .write) hfair, hrun.view_catches_up (side := .read) hfair⟩

end Sys2Proof.Machine
end

section
/-! SUPPORT. The state right after reset (10_state.md R41, O1). -/

namespace Sys2Proof.Machine

theorem statusWord_reset : State.reset.statusWord = 0#32 := by decide

/-- Settles O1: every register is a field of `State.reset`; the STATUS word is read off those fields, the bytes of MEM are free
values since none is written, and the parameters are legal. -/
theorem resetValues : Obligations.ResetValues :=
  ⟨statusWord_reset, rfl, rfl, rfl, rfl, rfl, rfl, rfl, rfl, rfl, memByte_of_nil rfl, paramsLegal_reset⟩

end Sys2Proof.Machine
end
